-- ==== Sys2Proof/Word.lean ====
section
/-! DEFINITION. The word types of the machine and the two sparse stores: memory and framebuffer.

Rule R6 of spec/00_scope.md fixes the widths: registers and memory locations have 8 bits, register pairs,
SP, PC, addresses and the timer counter have 16, a framebuffer word has 32 (R41). -/

namespace Sys2Proof

/-- An 8-bit value: a register, a memory location (R6). -/
abbrev Byte := BitVec 8

/-- A 16-bit value: a register pair, SP, PC, an address, the timer's counter (R6). -/
abbrev Word := BitVec 16

/-- A 32-bit ARGB colour of the framebuffer (R41). -/
abbrev Argb := BitVec 32

/-- One byte array of the machine (R42, R48): the bytes that differ from 0x00, as (index, byte) pairs with
strictly rising indexes. An index that is not listed reads as 0x00 (log entry 2). -/
abbrev Memory := List (Nat × BitVec 8)

/-- The framebuffer (R41): the words that differ from 0, as (160 * row + column, word) pairs with strictly
rising indexes. A place that is not listed holds 0 (log entry 3). -/
abbrev Frame := List (Nat × BitVec 32)

end Sys2Proof
end

