-- ==== Sys2Proof/Syntax.lean ====
section
/-! DEFINITION. The instructions: one constructor for each of the 116 rows of spec/opcode_table.json.

The operand types are the index tables of rule R12 (spec/00_scope.md). -/

namespace Sys2Proof

/-- `r8[i]` for i other than 6 (R12): index 6 is the byte at HL and has constructors of its own. -/
inductive Reg8 where
  | b | c | d | e | h | l | a
  deriving DecidableEq, Repr

/-- `rr[i]` (R12): the pairs of the 16-bit loads and the 16-bit arithmetic. -/
inductive Pair where
  | bc | de | hl | sp
  deriving DecidableEq, Repr

/-- `rr2[i]` (R12): the pairs of PUSH and POP. -/
inductive StackPair where
  | bc | de | hl | af
  deriving DecidableEq, Repr

/-- `cc[i]` (R12): the conditions of JP, JR, CALL and RET. -/
inductive Cond where
  | nz | z | nc | c
  deriving DecidableEq, Repr

/-- The instructions of the machine, in the order of spec/opcode_table.json. `n` is an unsigned immediate
byte, `e` a signed displacement byte, `nn` a 16-bit immediate, `b` a bit number, `t` the RST target
divided by 8 (R152). -/
inductive Instr where
  -- unprefixed, x = 0
  | nop
  | ldNnSp (nn : Word)
  | stop (n : Byte)
  | jrE (e : Byte)
  | jrCcE (cc : Cond) (e : Byte)
  | ldRrNn (rr : Pair) (nn : Word)
  | addHlRr (rr : Pair)
  | ldBcA
  | ldABc
  | ldDeA
  | ldADe
  | ldHliA
  | ldAHli
  | ldHldA
  | ldAHld
  | incRr (rr : Pair)
  | decRr (rr : Pair)
  | incR (r : Reg8)
  | incHl
  | decR (r : Reg8)
  | decHl
  | ldRN (r : Reg8) (n : Byte)
  | ldHlN (n : Byte)
  | rlca
  | rrca
  | rla
  | rra
  | daa
  | cpl
  | scf
  | ccf
  -- x = 1
  | ldRR (rd : Reg8) (rs : Reg8)
  | ldRHl (r : Reg8)
  | ldHlR (r : Reg8)
  | halt
  -- x = 2, and the immediate forms of x = 3
  | addAR (r : Reg8)
  | addAHl
  | addAN (n : Byte)
  | adcAR (r : Reg8)
  | adcAHl
  | adcAN (n : Byte)
  | subR (r : Reg8)
  | subHl
  | subN (n : Byte)
  | sbcAR (r : Reg8)
  | sbcAHl
  | sbcAN (n : Byte)
  | andR (r : Reg8)
  | andHl
  | andN (n : Byte)
  | xorR (r : Reg8)
  | xorHl
  | xorN (n : Byte)
  | orR (r : Reg8)
  | orHl
  | orN (n : Byte)
  | cpR (r : Reg8)
  | cpHl
  | cpN (n : Byte)
  -- x = 3
  | retCc (cc : Cond)
  | ldhNA (n : Byte)
  | addSpE (e : Byte)
  | ldhAN (n : Byte)
  | ldHlSpE (e : Byte)
  | popRr (rr : StackPair)
  | popAf
  | ret
  | reti
  | jpHl
  | ldSpHl
  | jpCcNn (cc : Cond) (nn : Word)
  | ldhCA
  | ldNnA (nn : Word)
  | ldhAC
  | ldANn (nn : Word)
  | jpNn (nn : Word)
  | prefixCB
  | di
  | ei
  | callCcNn (cc : Cond) (nn : Word)
  | pushRr (rr : StackPair)
  | callNn (nn : Word)
  | rstT (t : Fin 8)
  -- the eleven illegal opcodes (R158)
  | illegalD3
  | illegalDB
  | illegalDD
  | illegalE3
  | illegalE4
  | illegalEB
  | illegalEC
  | illegalED
  | illegalF4
  | illegalFC
  | illegalFD
  -- the extended table (R157)
  | rlcR (r : Reg8)
  | rlcHl
  | rrcR (r : Reg8)
  | rrcHl
  | rlR (r : Reg8)
  | rlHl
  | rrR (r : Reg8)
  | rrHl
  | slaR (r : Reg8)
  | slaHl
  | sraR (r : Reg8)
  | sraHl
  | swapR (r : Reg8)
  | swapHl
  | srlR (r : Reg8)
  | srlHl
  | bitBR (b : Fin 8) (r : Reg8)
  | bitBHl (b : Fin 8)
  | resBR (b : Fin 8) (r : Reg8)
  | resBHl (b : Fin 8)
  | setBR (b : Fin 8) (r : Reg8)
  | setBHl (b : Fin 8)
  deriving DecidableEq, Repr

end Sys2Proof
end

