-- ==== Sys2Proof/WellFormed.lean ====
section
/-! DEFINITION. Which terms of `Instr` are instructions of the hardware.

The operand types already hold every bound (an index, a bit number, an RST target). One check is left:
POP rr takes p in 0..2 only (R235); the word of p = 3 is the instruction POP AF of its own (R236). -/

namespace Sys2Proof

/-- The term is an instruction of the table: POP rr never names AF (R235, R236). -/
def Instr.wellFormed : Instr → Bool
  | .popRr .af => false
  | _ => true

end Sys2Proof
end

