-- ==== Sys2Proof/Decode.lean ====
section
/-! DEFINITION. Decoding (spec/30_encoding.md), total on any bytes, and the encoder written from the same
tables. The decoder is the table "by field" of rules R156 and R157. -/

namespace Sys2Proof

/-! ## Fields and immediates -/

/-- Field `x` of an opcode byte: bits 7:6 (R151). -/
def fieldX (op : Byte) : Nat := op.toNat / 64

/-- Field `y` of an opcode byte: bits 5:3 (R151). -/
def fieldY (op : Byte) : Nat := op.toNat / 8 % 8

/-- Field `z` of an opcode byte: bits 2:0 (R151). -/
def fieldZ (op : Byte) : Nat := op.toNat % 8

/-- The opcode byte with the three fields (R151). -/
def opcode (x y z : Nat) : Byte := BitVec.ofNat 8 (64 * x + 8 * y + z)

/-- A 16-bit immediate: the byte at the lower address is the low byte (R152). -/
def immediate16 (lo hi : Byte) : Word := hi ++ lo

/-- The byte of a 16-bit immediate that stands at the lower address (R152). -/
def immediateLow (nn : Word) : Byte := nn.extractLsb' 0 8

/-- The byte of a 16-bit immediate that stands at the higher address (R152). -/
def immediateHigh (nn : Word) : Byte := nn.extractLsb' 8 8

/-- The prefix byte of the extended table (R157, R366). -/
def prefixByte : Byte := 0xCB

/-! ## Index tables (R12) -/

/-- `r8[i]`; none for index 6, the byte at HL. -/
def reg8Of : Nat → Option Reg8
  | 0 => some .b
  | 1 => some .c
  | 2 => some .d
  | 3 => some .e
  | 4 => some .h
  | 5 => some .l
  | 6 => none
  | _ => some .a

/-- The index of a register in `r8`. -/
def Reg8.index : Reg8 → Nat
  | .b => 0 | .c => 1 | .d => 2 | .e => 3 | .h => 4 | .l => 5 | .a => 7

/-- `rr[p]`. -/
def pairOf : Nat → Pair
  | 0 => .bc
  | 1 => .de
  | 2 => .hl
  | _ => .sp

/-- The index of a pair in `rr`. -/
def Pair.index : Pair → Nat
  | .bc => 0 | .de => 1 | .hl => 2 | .sp => 3

/-- `rr2[p]`. -/
def stackPairOf : Nat → StackPair
  | 0 => .bc
  | 1 => .de
  | 2 => .hl
  | _ => .af

/-- The index of a pair in `rr2`. -/
def StackPair.index : StackPair → Nat
  | .bc => 0 | .de => 1 | .hl => 2 | .af => 3

/-- `cc[i]`. -/
def condOf : Nat → Cond
  | 0 => .nz
  | 1 => .z
  | 2 => .nc
  | _ => .c

/-- The index of a condition in `cc`. -/
def Cond.index : Cond → Nat
  | .nz => 0 | .z => 1 | .nc => 2 | .c => 3

/-! ## The unprefixed table (R156) -/

/-- Quadrant x = 0. -/
def decodeX0 (y z : Nat) (n : Byte) (nn : Word) : Instr :=
  match z with
  | 0 =>
    match y with
    | 0 => .nop
    | 1 => .ldNnSp nn
    | 2 => .stop n
    | 3 => .jrE n
    | _ => .jrCcE (condOf (y - 4)) n
  | 1 => if y % 2 = 0 then .ldRrNn (pairOf (y / 2)) nn else .addHlRr (pairOf (y / 2))
  | 2 =>
    match y with
    | 0 => .ldBcA
    | 1 => .ldABc
    | 2 => .ldDeA
    | 3 => .ldADe
    | 4 => .ldHliA
    | 5 => .ldAHli
    | 6 => .ldHldA
    | _ => .ldAHld
  | 3 => if y % 2 = 0 then .incRr (pairOf (y / 2)) else .decRr (pairOf (y / 2))
  | 4 => match reg8Of y with
    | some r => .incR r
    | none => .incHl
  | 5 => match reg8Of y with
    | some r => .decR r
    | none => .decHl
  | 6 => match reg8Of y with
    | some r => .ldRN r n
    | none => .ldHlN n
  | _ =>
    match y with
    | 0 => .rlca
    | 1 => .rrca
    | 2 => .rla
    | 3 => .rra
    | 4 => .daa
    | 5 => .cpl
    | 6 => .scf
    | _ => .ccf

/-- Quadrant x = 1: the register loads, and HALT where both operands would be the byte at HL. -/
def decodeX1 (y z : Nat) : Instr :=
  match reg8Of y, reg8Of z with
  | some rd, some rs => .ldRR rd rs
  | some rd, none => .ldRHl rd
  | none, some rs => .ldHlR rs
  | none, none => .halt

/-- Quadrant x = 2: `alu[y] A,r8[z]`. -/
def decodeX2 (y z : Nat) : Instr :=
  match reg8Of z with
  | some r =>
    match y with
    | 0 => .addAR r
    | 1 => .adcAR r
    | 2 => .subR r
    | 3 => .sbcAR r
    | 4 => .andR r
    | 5 => .xorR r
    | 6 => .orR r
    | _ => .cpR r
  | none =>
    match y with
    | 0 => .addAHl
    | 1 => .adcAHl
    | 2 => .subHl
    | 3 => .sbcAHl
    | 4 => .andHl
    | 5 => .xorHl
    | 6 => .orHl
    | _ => .cpHl

/-- Quadrant x = 3. -/
def decodeX3 (y z : Nat) (n : Byte) (nn : Word) : Instr :=
  match z with
  | 0 =>
    match y with
    | 4 => .ldhNA n
    | 5 => .addSpE n
    | 6 => .ldhAN n
    | 7 => .ldHlSpE n
    | _ => .retCc (condOf y)
  | 1 =>
    match y with
    | 1 => .ret
    | 3 => .reti
    | 5 => .jpHl
    | 7 => .ldSpHl
    | 6 => .popAf
    | _ => .popRr (stackPairOf (y / 2))
  | 2 =>
    match y with
    | 4 => .ldhCA
    | 5 => .ldNnA nn
    | 6 => .ldhAC
    | 7 => .ldANn nn
    | _ => .jpCcNn (condOf y) nn
  | 3 =>
    match y with
    | 0 => .jpNn nn
    | 1 => .prefixCB
    | 2 => .illegalD3
    | 3 => .illegalDB
    | 4 => .illegalE3
    | 5 => .illegalEB
    | 6 => .di
    | _ => .ei
  | 4 =>
    match y with
    | 4 => .illegalE4
    | 5 => .illegalEC
    | 6 => .illegalF4
    | 7 => .illegalFC
    | _ => .callCcNn (condOf y) nn
  | 5 =>
    match y with
    | 1 => .callNn nn
    | 3 => .illegalDD
    | 5 => .illegalED
    | 7 => .illegalFD
    | _ => .pushRr (stackPairOf (y / 2))
  | 6 =>
    match y with
    | 0 => .addAN n
    | 1 => .adcAN n
    | 2 => .subN n
    | 3 => .sbcAN n
    | 4 => .andN n
    | 5 => .xorN n
    | 6 => .orN n
    | _ => .cpN n
  | _ => .rstT (Fin.ofNat 8 y)

/-- The instruction a first byte selects from the unprefixed table, with the immediate bytes its format
calls for; an operand the format does not have is not looked at (R154, R156). -/
def decodeFirst (op : Byte) (n : Byte) (nn : Word) : Instr :=
  match fieldX op with
  | 0 => decodeX0 (fieldY op) (fieldZ op) n nn
  | 1 => decodeX1 (fieldY op) (fieldZ op)
  | 2 => decodeX2 (fieldY op) (fieldZ op)
  | _ => decodeX3 (fieldY op) (fieldZ op) n nn

/-! ## The extended table (R157) -/

/-- The rotates and shifts of the extended table: `xop` with x = 0. -/
def decodeRotate (y z : Nat) : Instr :=
  match reg8Of z with
  | some r =>
    match y with
    | 0 => .rlcR r
    | 1 => .rrcR r
    | 2 => .rlR r
    | 3 => .rrR r
    | 4 => .slaR r
    | 5 => .sraR r
    | 6 => .swapR r
    | _ => .srlR r
  | none =>
    match y with
    | 0 => .rlcHl
    | 1 => .rrcHl
    | 2 => .rlHl
    | 3 => .rrHl
    | 4 => .slaHl
    | 5 => .sraHl
    | 6 => .swapHl
    | _ => .srlHl

/-- The instruction the byte after the prefix selects: every value has one (R157). -/
def decodeExtended (xop : Byte) : Instr :=
  match fieldX xop, reg8Of (fieldZ xop) with
  | 0, _ => decodeRotate (fieldY xop) (fieldZ xop)
  | 1, some r => .bitBR (Fin.ofNat 8 (fieldY xop)) r
  | 1, none => .bitBHl (Fin.ofNat 8 (fieldY xop))
  | 2, some r => .resBR (Fin.ofNat 8 (fieldY xop)) r
  | 2, none => .resBHl (Fin.ofNat 8 (fieldY xop))
  | _, some r => .setBR (Fin.ofNat 8 (fieldY xop)) r
  | _, none => .setBHl (Fin.ofNat 8 (fieldY xop))

/-! ## Lengths and the decoder -/

/-- How many bytes follow the first one: the length is fixed by the first byte alone (R150, R156). The
byte after the prefix counts here. -/
def operandCount (op : Byte) : Nat :=
  let y := fieldY op
  match fieldX op, fieldZ op with
  | 0, 0 => if y = 0 then 0 else if y = 1 then 2 else 1
  | 0, 1 => if y % 2 = 0 then 2 else 0
  | 0, 6 => 1
  | 3, 0 => if y < 4 then 0 else 1
  | 3, 2 => if y < 4 then 2 else if y = 5 then 2 else if y = 7 then 2 else 0
  | 3, 3 => if y = 0 then 2 else if y = 1 then 1 else 0
  | 3, 4 => if y < 4 then 2 else 0
  | 3, 5 => if y = 1 then 2 else 0
  | 3, 6 => 1
  | _, _ => 0

/-- Why a list of bytes is no instruction. -/
inductive DecodeReject where
  /-- There is no byte at all. -/
  | noBytes
  /-- The format of the first byte calls for more immediate bytes than there are. -/
  | operandMissing (op : Byte)
  deriving DecidableEq, Repr

/-- Decoding (R154): the instruction at the head of the bytes, and the bytes after it. Every first byte
selects an instruction, one of the eleven illegal opcodes among them; only too short a list is rejected.
The prefix with its second byte is the extended instruction (R155); the prefix byte alone, at the end of
the bytes, is the table's row PREFIX_CB (R366, log entry 5). -/
def decode : List Byte → Except DecodeReject (Instr × List Byte)
  | [] => .error .noBytes
  | op :: rest =>
    if op = prefixByte then
      match rest with
      | [] => .ok (.prefixCB, [])
      | xop :: more => .ok (decodeExtended xop, more)
    else
      match operandCount op, rest with
      | 0, _ => .ok (decodeFirst op 0 0, rest)
      | 1, n :: more => .ok (decodeFirst op n 0, more)
      | 2, lo :: hi :: more => .ok (decodeFirst op 0 (immediate16 lo hi), more)
      | _, _ => .error (.operandMissing op)

/-! ## The encoder -/

/-- An opcode followed by a 16-bit immediate, low byte first (format OP_NN of R150). -/
def withImmediate16 (op : Byte) (nn : Word) : List Byte := [op, immediateLow nn, immediateHigh nn]

/-- An instruction of the extended table (format CB of R150). -/
def extended (x y z : Nat) : List Byte := [prefixByte, opcode x y z]

/-- The bytes of an instruction, at ascending addresses: the Encoding line of its rule. -/
def encode : Instr → List Byte
  | .nop => [0x00]
  | .ldNnSp nn => withImmediate16 0x08 nn
  | .stop n => [0x10, n]
  | .jrE e => [0x18, e]
  | .jrCcE cc e => [opcode 0 (4 + cc.index) 0, e]
  | .ldRrNn rr nn => withImmediate16 (opcode 0 (2 * rr.index) 1) nn
  | .addHlRr rr => [opcode 0 (2 * rr.index + 1) 1]
  | .ldBcA => [0x02]
  | .ldABc => [0x0A]
  | .ldDeA => [0x12]
  | .ldADe => [0x1A]
  | .ldHliA => [0x22]
  | .ldAHli => [0x2A]
  | .ldHldA => [0x32]
  | .ldAHld => [0x3A]
  | .incRr rr => [opcode 0 (2 * rr.index) 3]
  | .decRr rr => [opcode 0 (2 * rr.index + 1) 3]
  | .incR r => [opcode 0 r.index 4]
  | .incHl => [0x34]
  | .decR r => [opcode 0 r.index 5]
  | .decHl => [0x35]
  | .ldRN r n => [opcode 0 r.index 6, n]
  | .ldHlN n => [0x36, n]
  | .rlca => [0x07]
  | .rrca => [0x0F]
  | .rla => [0x17]
  | .rra => [0x1F]
  | .daa => [0x27]
  | .cpl => [0x2F]
  | .scf => [0x37]
  | .ccf => [0x3F]
  | .ldRR rd rs => [opcode 1 rd.index rs.index]
  | .ldRHl r => [opcode 1 r.index 6]
  | .ldHlR r => [opcode 1 6 r.index]
  | .halt => [0x76]
  | .addAR r => [opcode 2 0 r.index]
  | .addAHl => [0x86]
  | .addAN n => [0xC6, n]
  | .adcAR r => [opcode 2 1 r.index]
  | .adcAHl => [0x8E]
  | .adcAN n => [0xCE, n]
  | .subR r => [opcode 2 2 r.index]
  | .subHl => [0x96]
  | .subN n => [0xD6, n]
  | .sbcAR r => [opcode 2 3 r.index]
  | .sbcAHl => [0x9E]
  | .sbcAN n => [0xDE, n]
  | .andR r => [opcode 2 4 r.index]
  | .andHl => [0xA6]
  | .andN n => [0xE6, n]
  | .xorR r => [opcode 2 5 r.index]
  | .xorHl => [0xAE]
  | .xorN n => [0xEE, n]
  | .orR r => [opcode 2 6 r.index]
  | .orHl => [0xB6]
  | .orN n => [0xF6, n]
  | .cpR r => [opcode 2 7 r.index]
  | .cpHl => [0xBE]
  | .cpN n => [0xFE, n]
  | .retCc cc => [opcode 3 cc.index 0]
  | .ldhNA n => [0xE0, n]
  | .addSpE e => [0xE8, e]
  | .ldhAN n => [0xF0, n]
  | .ldHlSpE e => [0xF8, e]
  | .popRr rr => [opcode 3 (2 * rr.index) 1]
  | .popAf => [0xF1]
  | .ret => [0xC9]
  | .reti => [0xD9]
  | .jpHl => [0xE9]
  | .ldSpHl => [0xF9]
  | .jpCcNn cc nn => withImmediate16 (opcode 3 cc.index 2) nn
  | .ldhCA => [0xE2]
  | .ldNnA nn => withImmediate16 0xEA nn
  | .ldhAC => [0xF2]
  | .ldANn nn => withImmediate16 0xFA nn
  | .jpNn nn => withImmediate16 0xC3 nn
  | .prefixCB => [prefixByte]
  | .di => [0xF3]
  | .ei => [0xFB]
  | .callCcNn cc nn => withImmediate16 (opcode 3 cc.index 4) nn
  | .pushRr rr => [opcode 3 (2 * rr.index) 5]
  | .callNn nn => withImmediate16 0xCD nn
  | .rstT t => [opcode 3 t.val 7]
  | .illegalD3 => [0xD3]
  | .illegalDB => [0xDB]
  | .illegalDD => [0xDD]
  | .illegalE3 => [0xE3]
  | .illegalE4 => [0xE4]
  | .illegalEB => [0xEB]
  | .illegalEC => [0xEC]
  | .illegalED => [0xED]
  | .illegalF4 => [0xF4]
  | .illegalFC => [0xFC]
  | .illegalFD => [0xFD]
  | .rlcR r => extended 0 0 r.index
  | .rlcHl => extended 0 0 6
  | .rrcR r => extended 0 1 r.index
  | .rrcHl => extended 0 1 6
  | .rlR r => extended 0 2 r.index
  | .rlHl => extended 0 2 6
  | .rrR r => extended 0 3 r.index
  | .rrHl => extended 0 3 6
  | .slaR r => extended 0 4 r.index
  | .slaHl => extended 0 4 6
  | .sraR r => extended 0 5 r.index
  | .sraHl => extended 0 5 6
  | .swapR r => extended 0 6 r.index
  | .swapHl => extended 0 6 6
  | .srlR r => extended 0 7 r.index
  | .srlHl => extended 0 7 6
  | .bitBR b r => extended 1 b.val r.index
  | .bitBHl b => extended 1 b.val 6
  | .resBR b r => extended 2 b.val r.index
  | .resBHl b => extended 2 b.val 6
  | .setBR b r => extended 3 b.val r.index
  | .setBHl b => extended 3 b.val 6

/-! ## A word of the opcode table -/

/-- The bytes, at ascending addresses, of an instruction whose table word is `w` with `nbits` bits. The
first byte is the low one, but for the two-byte rows of the extended table, where the table reads the pair
as one number with the prefix in the HIGH byte (R154). The row PREFIX_CB has the prefix byte alone. Log
entry 5. -/
def tableBytes (nbits w : Nat) : List Byte :=
  let v := w % 2 ^ nbits
  let byte (k : Nat) : Byte := BitVec.ofNat 8 (v / 256 ^ k)
  if nbits = 8 ∧ byte 0 = prefixByte then [prefixByte]
  else if nbits = 16 ∧ byte 1 = prefixByte then [prefixByte, byte 0, 0]
  else [byte 0, byte 1, byte 2]

/-- The instruction the decoder reads from an instruction whose bits are `w`, numbered as
spec/opcode_table.json numbers them; every bit above `nbits` is 0. -/
def decodeTableWord (nbits w : Nat) : Option Instr :=
  match decode (tableBytes nbits w) with
  | .ok (i, _) => some i
  | .error _ => none

end Sys2Proof
end

