-- ==== Sys2Proof/Machine/Bits.lean ====
section
/-! DEFINITION. Halves of words, extensions and single bits (R11, R13 of spec/00_scope.md). -/

namespace Sys2Proof.Machine

/-- Bits 15:8 of a word. -/
def hiByte (w : Word) : Byte := w.extractLsb' 8 8

/-- Bits 7:0 of a word. -/
def loByte (w : Word) : Byte := w.extractLsb' 0 8

/-- The concatenation of R11: the first byte in the high half. -/
def joinBytes (hi lo : Byte) : Word := hi ++ lo

/-- `sext_16` (R13). -/
def sext16 (v : Byte) : Word := v.signExtend 16

/-- `zext_16` (R13). -/
def zext16 (v : Byte) : Word := v.setWidth 16

/-- A Boolean as the bit it is written as (R11). -/
def bit1 (b : Bool) : BitVec 1 := BitVec.ofBool b

/-- The value with bit `b` made `x` (R313, R314). -/
def withBit (v : Byte) (b : Nat) (x : Bool) : Byte :=
  if x then v ||| (1#8 <<< b) else v &&& ~~~ (1#8 <<< b)

end Sys2Proof.Machine
end

