-- ==== Sys2Proof/Machine/Memory.lean ====
section
/-! DEFINITION. The byte arrays and the framebuffer as sorted lists: reading, writing, the canonical form. -/

namespace Sys2Proof

/-- The byte at an index; an index not listed holds 0x00 (log entry 2). -/
def Memory.read : Memory → Nat → Byte
  | [], _ => 0
  | (k, w) :: rest, i => if k = i then w else Memory.read rest i

/-- Store a byte. Storing 0x00 takes the entry out, so that the canonical form is kept. -/
def Memory.write : Memory → Nat → Byte → Memory
  | [], i, v => if v = 0 then [] else [(i, v)]
  | (k, w) :: rest, i, v =>
    if k < i then (k, w) :: Memory.write rest i v
    else
      let tail := if k = i then rest else (k, w) :: rest
      if v = 0 then tail else (i, v) :: tail

/-- The canonical form from `lo` on: indexes strictly rising from at least `lo` and below `size`, no
listed 0x00. -/
def Memory.wfFrom (size : Nat) : Nat → Memory → Bool
  | _, [] => true
  | lo, (k, w) :: rest => decide (lo ≤ k) && decide (k < size) && (w != 0) && Memory.wfFrom size (k + 1) rest

/-- The canonical form of an array of `size` bytes. -/
def Memory.wf (size : Nat) (m : Memory) : Bool := Memory.wfFrom size 0 m

/-- The word of the framebuffer at a place; a place not listed holds 0 (log entry 3). -/
def Frame.read : Frame → Nat → Argb
  | [], _ => 0
  | (k, w) :: rest, i => if k = i then w else Frame.read rest i

/-- The entries of a run of words that stand from place `at_` on. -/
def Frame.entries : Nat → List Argb → Frame
  | _, [] => []
  | at_, v :: rest => if v = 0 then Frame.entries (at_ + 1) rest else (at_, v) :: Frame.entries (at_ + 1) rest

/-- Replace the words from place `at_` on by `row`, as many as `row` has. -/
def Frame.writeRow (m : Frame) (at_ : Nat) (row : List Argb) : Frame :=
  m.filter (fun c => decide (c.1 < at_)) ++ Frame.entries at_ row
    ++ m.filter (fun c => decide (at_ + row.length ≤ c.1))

/-- The canonical form of a framebuffer of `size` words, from place `lo` on. -/
def Frame.wfFrom (size : Nat) : Nat → Frame → Bool
  | _, [] => true
  | lo, (k, w) :: rest => decide (lo ≤ k) && decide (k < size) && (w != 0) && Frame.wfFrom size (k + 1) rest

/-- The canonical form of the framebuffer: 160 by 144 words (R41). -/
def Frame.wf (m : Frame) : Bool := Frame.wfFrom (160 * 144) 0 m

end Sys2Proof
end

