-- ==== Sys2Proof/Config.lean ====
section
/-! DEFINITION. What is fixed when the machine is launched: the parameters of rule R7 (spec/00_scope.md).

They are plain data and stand in `State` as a field no step changes, so that a claim about every state is a
claim for every value of every parameter. The spec leaves no result of an instruction open, so there is
no free value here (INVENTORY.md, "What the manual leaves open"). -/

namespace Sys2Proof

/-- The cartridge controller kind (`MBC_KIND`, R7, R120). -/
inductive MbcKind where
  | romOnly
  | ctrlA
  | ctrlB
  deriving DecidableEq, Repr

/-- Which state of `IE & IF & 0x1F` at HALT with IME = 0 sets the halt bug (`HALT_BUG_COND`, R7, R361). -/
inductive HaltBugCond where
  | noPending
  | pending
  deriving DecidableEq, Repr

/-- The colour of each 2-bit shade (`SHADE[0..3]`, R7). -/
structure Shades where
  shade0 : Argb
  shade1 : Argb
  shade2 : Argb
  shade3 : Argb
  deriving DecidableEq, Repr

/-- The launch parameters of R7 that hold for a whole run. `BUTTONS(t)` and `RESET_REGS` are not here: the
first is an input (fields of `State`), the second a reset value (`PowerOn`). -/
structure Launch where
  /-- `ROM`, the cartridge image. -/
  rom : Memory
  /-- `ROM_LEN`. -/
  romLen : Nat
  /-- `MBC_KIND`. -/
  mbcKind : MbcKind
  /-- `XRAM_LEN`. -/
  xramLen : Nat
  /-- `BOOT`: the 256 bytes of the overlay, or none. -/
  boot : Option Memory
  /-- `SHADE[0..3]`. -/
  shades : Shades
  /-- The bits of `IO_OR[a]` that are 1, by offset in the I/O page; an offset not listed has 0x00 (R97). -/
  ioOr : Memory
  /-- The bits of `IO_AND[a]` that are 0, by offset in the I/O page; an offset not listed has `IO_AND` 0xFF
  (R97). -/
  ioClear : Memory
  /-- `HALT_BUG_COND` (log entry 14). -/
  haltBugCond : HaltBugCond
  deriving DecidableEq, Repr

/-- What the reset state takes from the launch (R50, R502): the registers of `RESET_REGS`, the contents of
the memories and, where there is no boot overlay, the picture registers and the stored I/O bytes. -/
structure PowerOn where
  a : Byte
  f : Byte
  b : Byte
  c : Byte
  d : Byte
  e : Byte
  h : Byte
  l : Byte
  sp : Word
  lcdc : Byte
  statEnable : BitVec 4
  scy : Byte
  scx : Byte
  lyc : Byte
  bgp : Byte
  obp0 : Byte
  obp1 : Byte
  wy : Byte
  wx : Byte
  io : Memory
  vram : Memory
  wram : Memory
  oam : Memory
  hram : Memory
  xram : Memory
  framebuffer : Frame
  buttons : Byte
  buttonQueue : List Byte
  deriving DecidableEq, Repr

/-- The launch that `State.reset` takes: a ROM-only cartridge of 32 KiB whose listed bytes are all 0x00, no
external RAM, no boot overlay, D0's halt-bug condition, plain storage for the unnamed I/O addresses
(log entry 1). -/
def Launch.default : Launch where
  rom := []
  romLen := 0x8000
  mbcKind := .romOnly
  xramLen := 0
  boot := none
  shades := { shade0 := 0xFFFFFFFF, shade1 := 0xFFAAAAAA, shade2 := 0xFF555555, shade3 := 0xFF000000 }
  ioOr := []
  ioClear := []
  haltBugCond := .noPending

/-- The launch values that `State.reset` takes: the customary ones R50 names (A=0x01, F=0xB0, BC=0x0013,
DE=0x00D8, HL=0x014D, SP=0xFFFE, LCDC=0x91, BGP=0xFC) and zero for everything else (log entry 1). -/
def PowerOn.default : PowerOn where
  a := 0x01
  f := 0xB0
  b := 0x00
  c := 0x13
  d := 0x00
  e := 0xD8
  h := 0x01
  l := 0x4D
  sp := 0xFFFE
  lcdc := 0x91
  statEnable := 0
  scy := 0
  scx := 0
  lyc := 0
  bgp := 0xFC
  obp0 := 0
  obp1 := 0
  wy := 0
  wx := 0
  io := []
  vram := []
  wram := []
  oam := []
  hram := []
  xram := []
  framebuffer := []
  buttons := 0
  buttonQueue := []

end Sys2Proof
end

