-- ==== Sys2Proof/Machine/State.lean ====
section
/-! DEFINITION. The state of the machine, the reasons a step can stop, and the state after reset.

State holds every piece of state of spec/10_state.md (R20 to R48), grouped by the component that owns it,
the launch parameters (R7) and the host's button masks (R7, R10). -/

namespace Sys2Proof.Machine

/-- The CPU's registers and hidden flags (R20 to R29). -/
structure Cpu where
  a : Byte
  /-- The flag register: Z, N, H, C in bits 7 to 4, bits 3:0 read 0 (R23). -/
  f : Byte
  b : Byte
  c : Byte
  d : Byte
  e : Byte
  h : Byte
  l : Byte
  sp : Word
  pc : Word
  /-- IME, the interrupt master enable (R25). -/
  ime : Bool
  /-- `ime_pending`, the armed enable of EI (R26). -/
  imePending : Bool
  halted : Bool
  stopped : Bool
  /-- `halt_bug`: the next opcode fetch leaves PC (R28). -/
  haltBug : Bool
  faulted : Bool
  faultOp : Byte
  faultPc : Word
  /-- The address the opcode byte of the running instruction was read from: the part of the
  intra-instruction progress of R31 that an instruction needs (R365; log entry 10). -/
  opcodeAddr : Word
  deriving DecidableEq, Repr

/-- KEY1, the speed-switch control register (R30). -/
structure Key1 where
  doubleSpeed : Bool
  speedArmed : Bool
  deriving DecidableEq, Repr

/-- The interval timer (R35 to R37) with its request output (R34). -/
structure Timer where
  /-- The 16-bit free-running counter; DIV is its high byte. -/
  counter : Word
  tima : Byte
  tma : Byte
  /-- The stored bits 2:0 of TAC: enable and select. -/
  tac : BitVec 3
  reloadPending : Bool
  /-- `timer_req`. -/
  req : Bool
  deriving DecidableEq, Repr

/-- The modes of the picture unit (R38). -/
inductive PpuMode where
  | hblank
  | vblank
  | oamScan
  | transfer
  deriving DecidableEq, Repr

/-- The picture unit (R38 to R41) with its request outputs (R34). -/
structure Ppu where
  mode : PpuMode
  /-- Sub-ticks spent in the mode; in VBlank, in the line. -/
  modeTicks : Nat
  ly : Byte
  windowLine : Byte
  lcdc : Byte
  /-- The stored bits 6:3 of STAT, bit 3 first. -/
  statEnable : BitVec 4
  scy : Byte
  scx : Byte
  lyc : Byte
  bgp : Byte
  obp0 : Byte
  obp1 : Byte
  wy : Byte
  wx : Byte
  /-- `ppu_vblank_req`. -/
  vblankReq : Bool
  /-- `ppu_stat_req`. -/
  statReq : Bool
  frameReady : Bool
  framebuffer : Frame
  deriving DecidableEq, Repr

/-- The OAM-DMA controller (R44). -/
structure Dma where
  /-- `dma_counter`: the DMA ticks left, 0 when idle. -/
  counter : Nat
  /-- `dma_source`: the page last written to the DMA register. -/
  source : Byte
  deriving DecidableEq, Repr

/-- The registers of cartridge controller A (R46). -/
structure CtrlA where
  romBank5 : BitVec 5
  bank2 : BitVec 2
  mode : Bool
  ramEnable : Bool
  deriving DecidableEq, Repr

/-- The registers of cartridge controller B (R47). `rtc` holds the five RTC-style bytes under their
selection values 0x08 to 0x0C (log entry 12). -/
structure CtrlB where
  romBank7 : BitVec 7
  ramRtcSelect : Byte
  ramEnable : Bool
  rtc : Memory
  rtcLatch : Byte
  deriving DecidableEq, Repr

end Sys2Proof.Machine

namespace Sys2Proof.Machine

/-- The whole machine between two steps. -/
structure State where
  /-- The launch parameters (R7); no step changes them (log entry 11). -/
  launch : Launch
  cpu : Cpu
  /-- IE at 0xFFFF (R32). -/
  intEnable : Byte
  /-- The stored bits 4:0 of IF at 0xFF0F (R33). -/
  intFlag : BitVec 5
  key1 : Key1
  timer : Timer
  ppu : Ppu
  dma : Dma
  /-- `boot_disabled` (R43). -/
  bootDisabled : Bool
  /-- P1.sel, the stored bits 5:4 of P1 (R45). -/
  joySelect : BitVec 2
  /-- The host's button mask in force (`BUTTONS`, R7, R478). -/
  buttons : Byte
  /-- The masks the host sets before the coming M-cycles, oldest first (R7, R440); when there is none left
  the last mask stays in force. -/
  buttonQueue : List Byte
  ctrlA : CtrlA
  ctrlB : CtrlB
  /-- The stored bytes of 0xFF00..0xFF7F, by offset (R42): the slots that have no field of their own. -/
  io : Memory
  /-- Video RAM by offset from 0x8000 (R42). -/
  vram : Memory
  /-- Work RAM by offset from 0xC000 (R42). -/
  wram : Memory
  /-- Object-attribute memory by offset from 0xFE00 (R42). -/
  oam : Memory
  /-- High RAM by offset from 0xFF80 (R42). -/
  hram : Memory
  /-- The cartridge's external RAM (R48). -/
  xram : Memory
  deriving DecidableEq, Repr

/-- Why the machine stops. -/
inductive Fault where
  /-- Raised by `step` on a machine whose `faulted` latch is set: an illegal opcode `op` was fetched from
  `pc`, and no agent takes another step (R29, R400). Safe: the run ends where the hardware is frozen. -/
  | illegalOpcode (op : Byte) (pc : Word)
  deriving DecidableEq, Repr

/-- Why the model gives no meaning. -/
inductive Refusal where
  /-- An arm of `exec` whose instruction has no meaning yet. Safe. No arm is left. -/
  | notModelled (mnemonic : String)
  /-- Raised by `step` if the fetched bytes did not decode; no fetch gives such bytes (every first byte is
  fetched with the bytes its format calls for). Safe. -/
  | undecoded
  deriving DecidableEq, Repr

/-- What a meaning and a step answer. -/
abbrev Result := Host.Outcome State Fault Refusal

/-- The state after reset for any launch: the table of R50, both columns. -/
def State.resetWith (launch : Launch) (p : PowerOn) : State where
  launch := launch
  cpu :=
    { a := p.a, f := p.f &&& 0xF0, b := p.b, c := p.c, d := p.d, e := p.e, h := p.h, l := p.l,
      sp := p.sp, pc := if launch.boot.isSome then 0x0000 else 0x0100,
      ime := false, imePending := false, halted := false, stopped := false, haltBug := false,
      faulted := false, faultOp := 0, faultPc := 0, opcodeAddr := 0 }
  intEnable := 0
  intFlag := 0
  key1 := { doubleSpeed := false, speedArmed := false }
  timer := { counter := 0, tima := 0, tma := 0, tac := 0, reloadPending := false, req := false }
  ppu :=
    let r (v : Byte) : Byte := if launch.boot.isSome then 0 else v
    { mode := .oamScan, modeTicks := 0, ly := 0, windowLine := 0,
      lcdc := r p.lcdc, statEnable := if launch.boot.isSome then 0 else p.statEnable,
      scy := r p.scy, scx := r p.scx, lyc := r p.lyc, bgp := r p.bgp, obp0 := r p.obp0,
      obp1 := r p.obp1, wy := r p.wy, wx := r p.wx,
      vblankReq := false, statReq := false, frameReady := false, framebuffer := p.framebuffer }
  dma := { counter := 0, source := 0 }
  bootDisabled := launch.boot.isNone
  joySelect := 0b11
  buttons := p.buttons
  buttonQueue := p.buttonQueue
  ctrlA := { romBank5 := 1, bank2 := 0, mode := false, ramEnable := false }
  ctrlB := { romBank7 := 1, ramRtcSelect := 0, ramEnable := false, rtc := [], rtcLatch := 0 }
  io := if launch.boot.isSome then [] else p.io
  vram := p.vram
  wram := p.wram
  oam := p.oam
  hram := p.hram
  xram := p.xram

/-- The machine right after reset, for the launch the log names (R50 with `BOOT = None`; log entry 1). -/
def State.reset : State := State.resetWith Launch.default PowerOn.default

end Sys2Proof.Machine
end

