-- ==== Sys2Proof/Machine/Cart.lean ====
section
/-! DEFINITION. The cartridge: header, ROM windows, the two bank-switching controllers, external RAM
(spec/20_memory.md rules R83, R85, R120 to R127). -/

namespace Sys2Proof.Machine

/-! ## The header -/

/-- `MBC_KIND` from header byte 0x147; none for a cartridge the spec does not cover (R120). -/
def mbcKindOf (code : Byte) : Option MbcKind :=
  if code = 0x00 ∨ code = 0x08 ∨ code = 0x09 then some .romOnly
  else if code = 0x01 ∨ code = 0x02 ∨ code = 0x03 then some .ctrlA
  else if code = 0x0F ∨ code = 0x10 ∨ code = 0x11 ∨ code = 0x12 ∨ code = 0x13 then some .ctrlB
  else none

/-- `XRAM_LEN` from header byte 0x149; none above 5 (R121). -/
def xramLenOf (code : Byte) : Option Nat :=
  match code.toNat with
  | 0 => some 0
  | 1 => some 2048
  | 2 => some 8192
  | 3 => some 32768
  | 4 => some 131072
  | 5 => some 65536
  | _ => none

/-! ## ROM windows -/

/-- The bank in the window 0x4000..0x7FFF (R122, R123, R125). -/
def State.hiBank (s : State) : Nat :=
  match s.launch.mbcKind with
  | .romOnly => 1
  | .ctrlA =>
    if s.ctrlA.mode then s.ctrlA.romBank5.toNat
    else (s.ctrlA.bank2 ++ s.ctrlA.romBank5 : BitVec 7).toNat
  | .ctrlB => s.ctrlB.romBank7.toNat

/-- The index in `ROM` that an address below 0x8000 reads; every index wraps modulo `ROM_LEN` (R83, R124). -/
def State.romIndex (s : State) (a : Nat) : Nat :=
  (if a < 0x4000 then a else s.hiBank * 0x4000 + (a - 0x4000)) % s.launch.romLen

/-- `CartRead(addr)` (R83). -/
def State.cartRead (s : State) (a : Nat) : Byte := s.launch.rom.read (s.romIndex a)

/-! ## Controller registers -/

/-- The written bank number with 0 made 1 (R127). -/
def nonzeroBank {w : Nat} (b : BitVec w) : BitVec w := if b = 0 then 1 else b

/-- The value that unlocks the RAM latch: low nibble 0xA (R123, R125). -/
def unlocksRam (v : Byte) : Bool := v &&& 0x0F == 0x0A

/-- A write to 0x0000..0x7FFF under controller A (R123). -/
def CtrlA.write (c : CtrlA) (a : Nat) (v : Byte) : CtrlA :=
  if a < 0x2000 then { c with ramEnable := unlocksRam v }
  else if a < 0x4000 then { c with romBank5 := nonzeroBank (v.setWidth 5) }
  else if a < 0x6000 then { c with bank2 := v.setWidth 2 }
  else { c with mode := v.getLsbD 0 }

/-- A write to 0x0000..0x7FFF under controller B (R125). -/
def CtrlB.write (c : CtrlB) (a : Nat) (v : Byte) : CtrlB :=
  if a < 0x2000 then { c with ramEnable := unlocksRam v }
  else if a < 0x4000 then { c with romBank7 := nonzeroBank (v.setWidth 7) }
  else if a < 0x6000 then { c with ramRtcSelect := v }
  else { c with rtcLatch := v }

/-- `CartWrite(addr, v)` (R122, R123, R125): it never changes ROM. -/
def State.cartWrite (s : State) (a : Nat) (v : Byte) : State :=
  match s.launch.mbcKind with
  | .romOnly => s
  | .ctrlA => { s with ctrlA := s.ctrlA.write a v }
  | .ctrlB => { s with ctrlB := s.ctrlB.write a v }

/-! ## The external RAM window -/

/-- What the window 0xA000..0xBFFF shows at an offset. -/
inductive CartRam where
  /-- Protected, absent, or nothing selected: reads 0xFF, writes dropped (R85, R126). -/
  | nothing
  /-- A byte of `XRAM`. -/
  | xram (i : Nat)
  /-- An RTC-style register of controller B, by its selection value. -/
  | rtc (sel : Nat)
  deriving DecidableEq, Repr

/-- The byte of `XRAM` in a bank, wrapped modulo `XRAM_LEN`; nothing where there is no external RAM (R85,
R124, R126). -/
def State.xramAt (s : State) (bank off : Nat) : CartRam :=
  if s.launch.xramLen = 0 then .nothing else .xram ((bank * 0x2000 + off) % s.launch.xramLen)

/-- The target of an access to the external RAM window (R85, R122, R123, R125, R126). -/
def State.cartRamTarget (s : State) (off : Nat) : CartRam :=
  match s.launch.mbcKind with
  | .romOnly => s.xramAt 0 off
  | .ctrlA =>
    if s.ctrlA.ramEnable then s.xramAt (if s.ctrlA.mode then s.ctrlA.bank2.toNat else 0) off
    else .nothing
  | .ctrlB =>
    let sel := s.ctrlB.ramRtcSelect.toNat
    if s.ctrlB.ramEnable then
      if sel ≤ 0x07 then s.xramAt sel off
      else if sel ≤ 0x0C then .rtc sel
      else .nothing
    else .nothing

/-- `CartRamRead` (R85). -/
def State.cartRamRead (s : State) (off : Nat) : Byte :=
  match s.cartRamTarget off with
  | .nothing => 0xFF
  | .xram i => s.xram.read i
  | .rtc sel => s.ctrlB.rtc.read sel

/-- `CartRamWrite` (R85). -/
def State.cartRamWrite (s : State) (off : Nat) (v : Byte) : State :=
  match s.cartRamTarget off with
  | .nothing => s
  | .xram i => { s with xram := s.xram.write i v }
  | .rtc sel => { s with ctrlB := { s.ctrlB with rtc := s.ctrlB.rtc.write sel v } }

/-- The launch is one R9 lets the model assume: an image longer than its header, a controller and an
external RAM size that the header names, arrays in canonical form (log entry 13). -/
def wellFormedLaunch (l : Launch) : Bool :=
  decide (0x14F < l.romLen) && l.rom.wf l.romLen
    && (mbcKindOf (l.rom.read 0x147) == some l.mbcKind)
    && (xramLenOf (l.rom.read 0x149) == some l.xramLen)
    && (match l.boot with
        | none => true
        | some b => b.wf 256)
    && l.ioOr.wf 128 && l.ioClear.wf 128

end Sys2Proof.Machine
end

