-- ==== Sys2Proof/Machine/Interval.lean ====
section
/-! DEFINITION. The interval timer (spec/60_exceptions.md rules R460 to R465). -/

namespace Sys2Proof.Machine

/-- TAC.enable (R36). -/
def Timer.enable (t : Timer) : Bool := t.tac.getLsbD 2

/-- The counter bit TAC.select watches (R461). -/
def Timer.selBit (t : Timer) : Nat :=
  match (t.tac.extractLsb' 0 2).toNat with
  | 0 => 9
  | 1 => 3
  | 2 => 5
  | _ => 7

/-- `IncTima` (R463): the overflow requests the interrupt and arms the reload. -/
def Timer.incTima (t : Timer) : Timer :=
  if t.tima = 0xFF then { t with tima := 0x00, req := true, reloadPending := true }
  else { t with tima := t.tima + 1 }

/-- Give the counter a new value, and tick TIMA if the watched bit falls while the timer is enabled (R460,
R461, R462). -/
def Timer.setCounter (t : Timer) (new : Word) : Timer :=
  let t' := { t with counter := new }
  if t.enable && t.counter.getLsbD t.selBit && !new.getLsbD t.selBit then t'.incTima else t'

/-- The delayed reload, first thing in a timer step (R464). -/
def Timer.reload (t : Timer) : Timer :=
  if t.reloadPending then { t with tima := t.tma, reloadPending := false } else t

/-- `TimerTick` (R460). -/
def Timer.tick (t : Timer) : Timer :=
  let t' := t.reload
  t'.setCounter (t'.counter + 4)

/-- A write to DIV: the high byte of the counter is replaced, the low byte kept (R462). -/
def Timer.writeDiv (t : Timer) (v : Byte) : Timer := t.setCounter (joinBytes v (loByte t.counter))

end Sys2Proof.Machine
end

