-- ==== Sys2Proof/Machine/Io.lean ====
section
/-! DEFINITION. The I/O registers 0xFF00..0xFF7F (spec/20_memory.md rules R90 to R100; R478). -/

namespace Sys2Proof.Machine

/-- The registers of the I/O page (R90). -/
inductive IoReg where
  | p1 | sb | sc | div | tima | tma | tac | intFlag
  | lcdc | stat | scy | scx | ly | lyc | dma | bgp | obp0 | obp1 | wy | wx
  | key1 | bootDisable
  /-- An audio register (R96). -/
  | audio
  /-- The sound-enable register 0xFF26 (R96). -/
  | soundEnable
  /-- An address without a register: a stored byte with two mask parameters (R97). -/
  | other
  deriving DecidableEq, Repr

/-- The register at an offset of the I/O page (R90, R96, R97). -/
def ioRegAt (off : Nat) : IoReg :=
  match off with
  | 0x00 => .p1
  | 0x01 => .sb
  | 0x02 => .sc
  | 0x04 => .div
  | 0x05 => .tima
  | 0x06 => .tma
  | 0x07 => .tac
  | 0x0F => .intFlag
  | 0x26 => .soundEnable
  | 0x40 => .lcdc
  | 0x41 => .stat
  | 0x42 => .scy
  | 0x43 => .scx
  | 0x44 => .ly
  | 0x45 => .lyc
  | 0x46 => .dma
  | 0x47 => .bgp
  | 0x48 => .obp0
  | 0x49 => .obp1
  | 0x4A => .wy
  | 0x4B => .wx
  | 0x4D => .key1
  | 0x50 => .bootDisable
  | off => if 0x10 ≤ off ∧ off ≤ 0x3F then .audio else .other

/-- The code of a mode in STAT[1:0] (R38). -/
def PpuMode.code : PpuMode → BitVec 2
  | .hblank => 0
  | .vblank => 1
  | .oamScan => 2
  | .transfer => 3

/-- What STAT reads: 1, the four enable bits, the coincidence, the mode (R90, R469). -/
def Ppu.readStat (p : Ppu) : Byte := 1#1 ++ p.statEnable ++ bit1 (p.ly == p.lyc) ++ p.mode.code

/-- What P1 reads: the buttons of the selected columns, active low (R478). -/
def joypadRead (sel : BitVec 2) (buttons : Byte) : Byte :=
  let directions : BitVec 4 := if sel.getLsbD 0 then 0 else buttons.extractLsb' 0 4
  let actions : BitVec 4 := if sel.getLsbD 1 then 0 else buttons.extractLsb' 4 4
  0b11#2 ++ sel ++ (0xF#4 &&& ~~~directions &&& ~~~actions)

/-- `IORead` (R90) at an offset of the I/O page. No read changes state (R74). -/
def State.ioRead (s : State) (off : Nat) : Byte :=
  match ioRegAt off with
  | .p1 => joypadRead s.joySelect s.buttons
  | .sb => s.io.read off
  | .sc => s.io.read off
  | .div => hiByte s.timer.counter
  | .tima => s.timer.tima
  | .tma => s.timer.tma
  | .tac => 0b11111#5 ++ s.timer.tac
  | .intFlag => 0b111#3 ++ s.intFlag
  | .lcdc => s.ppu.lcdc
  | .stat => s.ppu.readStat
  | .scy => s.ppu.scy
  | .scx => s.ppu.scx
  | .ly => s.ppu.ly
  | .lyc => s.ppu.lyc
  | .dma => s.dma.source
  | .bgp => s.ppu.bgp
  | .obp0 => s.ppu.obp0
  | .obp1 => s.ppu.obp1
  | .wy => s.ppu.wy
  | .wx => s.ppu.wx
  | .key1 => bit1 s.key1.doubleSpeed ++ 0b111111#6 ++ bit1 s.key1.speedArmed
  | .bootDisable => s.io.read off
  | .audio => s.io.read off
  | .soundEnable => s.io.read off
  | .other => s.io.read off ||| s.launch.ioOr.read off

/-- Store a byte of the I/O page that has no field of its own. -/
def State.ioStore (s : State) (off : Nat) (v : Byte) : State := { s with io := s.io.write off v }

/-- `IOWrite` (R90) at an offset of the I/O page. -/
def State.ioWrite (s : State) (off : Nat) (v : Byte) : State :=
  match ioRegAt off with
  | .p1 => { s with joySelect := v.extractLsb' 4 2 }
  | .sb => s.ioStore off v
  | .sc => s.ioStore off v
  | .div => { s with timer := s.timer.writeDiv v }
  | .tima => { s with timer := { s.timer with tima := v } }
  | .tma => { s with timer := { s.timer with tma := v } }
  | .tac => { s with timer := { s.timer with tac := v.setWidth 3 } }
  | .intFlag => { s with intFlag := v.setWidth 5 }
  | .lcdc => { s with ppu := { s.ppu with lcdc := v } }
  | .stat => { s with ppu := { s.ppu with statEnable := v.extractLsb' 3 4 } }
  | .scy => { s with ppu := { s.ppu with scy := v } }
  | .scx => { s with ppu := { s.ppu with scx := v } }
  | .ly => { s with ppu := { s.ppu with ly := 0 } }
  | .lyc => { s with ppu := { s.ppu with lyc := v } }
  | .dma => { s with dma := { counter := 162, source := v } }
  | .bgp => { s with ppu := { s.ppu with bgp := v } }
  | .obp0 => { s with ppu := { s.ppu with obp0 := v } }
  | .obp1 => { s with ppu := { s.ppu with obp1 := v } }
  | .wy => { s with ppu := { s.ppu with wy := v } }
  | .wx => { s with ppu := { s.ppu with wx := v } }
  | .key1 => { s with key1 := { s.key1 with speedArmed := v.getLsbD 0 } }
  | .bootDisable => { s.ioStore off v with bootDisabled := true }
  | .audio => s.ioStore off v
  | .soundEnable => s.ioStore off (v ||| 0x70)
  | .other => s.ioStore off (v &&& ~~~(s.launch.ioClear.read off))

end Sys2Proof.Machine
end

