-- ==== Sys2Proof/Machine/Bus.lean ====
section
/-! DEFINITION. The address-space router: CPU reads and writes, and the DMA controller's source reads
(spec/20_memory.md rules R70 to R91, R102, R103). -/

namespace Sys2Proof.Machine

/-- The target an address selects (R75), with the offset in it. -/
inductive Place where
  | cart (a : Nat)
  | vram (i : Nat)
  | cartRam (off : Nat)
  | wram (i : Nat)
  | oam (i : Nat)
  | hole
  | io (off : Nat)
  | hram (i : Nat)
  | intEnable
  deriving DecidableEq, Repr

/-- The address map (R75): the one routing of reads (R80) and writes (R81). 0xE000..0xFDFF mirrors work RAM
(R86); 0xFEA0..0xFEFF is the unmapped hole (R88). -/
def placeOf (addr : Word) : Place :=
  let a := addr.toNat
  if a ≤ 0x7FFF then .cart a
  else if a ≤ 0x9FFF then .vram (a - 0x8000)
  else if a ≤ 0xBFFF then .cartRam (a - 0xA000)
  else if a ≤ 0xDFFF then .wram (a - 0xC000)
  else if a ≤ 0xFDFF then .wram (a - 0xE000)
  else if a ≤ 0xFE9F then .oam (a - 0xFE00)
  else if a ≤ 0xFEFF then .hole
  else if a ≤ 0xFF7F then .io (a - 0xFF00)
  else if a ≤ 0xFFFE then .hram (a - 0xFF80)
  else .intEnable

/-- The CPU's accesses to video RAM are blocked: the picture unit is in pixel-transfer (R84). -/
def State.vramBlocked (s : State) : Bool := s.ppu.mode == .transfer

/-- A read of 0x0000..0x7FFF: the boot overlay while it is mapped, else the cartridge (R82, R83). -/
def State.romRead (s : State) (a : Nat) : Byte :=
  match s.launch.boot with
  | some b => if a ≤ 0x00FF ∧ s.bootDisabled = false then b.read a else s.cartRead a
  | none => s.cartRead a

/-- Cases 2 to 12 of R80. `blockVram` says whether case 4 tests the mode. -/
def State.routeRead (s : State) (blockVram : Bool) (addr : Word) : Byte :=
  match placeOf addr with
  | .cart a => s.romRead a
  | .vram i => if blockVram && s.vramBlocked then 0xFF else s.vram.read i
  | .cartRam off => s.cartRamRead off
  | .wram i => s.wram.read i
  | .oam i => s.oam.read i
  | .hole => 0xFF
  | .io off => s.ioRead off
  | .hram i => s.hram.read i
  | .intEnable => s.intEnable

/-- The DMA read block covers an address (R103). -/
def State.dmaBlocks (s : State) (addr : Word) : Bool := decide (0 < s.dma.counter) && decide (addr.toNat < 0xFF00)

/-- `MemRead(addr, 1)` as routed in this M-cycle (R80). -/
def State.memRead (s : State) (addr : Word) : Byte :=
  if s.dmaBlocks addr then 0xFF else s.routeRead true addr

/-- `DmaSourceRead(a)`: R80 without the DMA block and without the pixel-transfer test (R102). -/
def State.dmaSourceRead (s : State) (addr : Word) : Byte := s.routeRead false addr

/-- `MemWrite(addr, 1, v)` as routed in this M-cycle (R81). -/
def State.memWrite (s : State) (addr : Word) (v : Byte) : State :=
  match placeOf addr with
  | .cart a => s.cartWrite a v
  | .vram i => if s.vramBlocked then s else { s with vram := s.vram.write i v }
  | .cartRam off => s.cartRamWrite off v
  | .wram i => { s with wram := s.wram.write i v }
  | .oam i => { s with oam := s.oam.write i v }
  | .hole => s
  | .io off => s.ioWrite off v
  | .hram i => { s with hram := s.hram.write i v }
  | .intEnable => { s with intEnable := v }

end Sys2Proof.Machine
end

