-- ==== Sys2Proof/Machine/Video.lean ====
section
/-! DEFINITION. The picture unit: mode state machine, interrupt requests, scanline compositor
(spec/60_exceptions.md rules R466 to R475). -/

namespace Sys2Proof.Machine

/-! ## Colours -/

/-- The colour of a shade (`SHADE`, R7). -/
def shadeColour (sh : Shades) (i : BitVec 2) : Argb :=
  match i.toNat with
  | 0 => sh.shade0
  | 1 => sh.shade1
  | 2 => sh.shade2
  | _ => sh.shade3

/-- The shade a palette register gives a colour number: bits 2i+1:2i (R40). -/
def paletteShade (palette : Byte) (colour : BitVec 2) : BitVec 2 := palette.extractLsb' (2 * colour.toNat) 2

/-- The colour number of a pixel of a tile row: bit 7 is the leftmost pixel (R471). -/
def rowPixel (lo hi : Byte) (px : Nat) : BitVec 2 :=
  bit1 (hi.getLsbD (7 - px)) ++ bit1 (lo.getLsbD (7 - px))

/-! ## Background and window -/

/-- `TilePixel(t, px, py)` (R471): tile data from 0x8000 by unsigned index, or from 0x9000 by signed index. -/
def Ppu.tilePixel (p : Ppu) (vram : Memory) (t : Byte) (px py : Nat) : BitVec 2 :=
  let base : Nat := if p.lcdc.getLsbD 4 then t.toNat * 16 else (0x1000 + t.toInt * 16).toNat
  rowPixel (vram.read (base + 2 * py)) (vram.read (base + 2 * py + 1)) px

/-- The base of a tile map, from its select bit (R471, R472). -/
def tileMap (select : Bool) : Nat := if select then 0x1C00 else 0x1800

/-- `BgColour(x, y)` (R471). -/
def Ppu.bgColour (p : Ppu) (vram : Memory) (x y : Nat) : BitVec 2 :=
  if p.lcdc.getLsbD 0 then
    let bx := (x + p.scx.toNat) % 256
    let by_ := (y + p.scy.toNat) % 256
    let t := vram.read (tileMap (p.lcdc.getLsbD 3) + by_ / 8 * 32 + bx / 8)
    p.tilePixel vram t (bx % 8) (by_ % 8)
  else 0

/-- The window is drawn on line `y` (R472). -/
def Ppu.windowDrawn (p : Ppu) (y : Nat) : Bool :=
  p.lcdc.getLsbD 5 && p.lcdc.getLsbD 0 && decide (p.wy.toNat ≤ y) && decide (p.wx.toNat ≤ 166)

/-- The window's colour number at column `x` (R472). -/
def Ppu.windowColour (p : Ppu) (vram : Memory) (x : Nat) : BitVec 2 :=
  let wx := x + 7 - p.wx.toNat
  let wl := p.windowLine.toNat
  let t := vram.read (tileMap (p.lcdc.getLsbD 6) + wl / 8 * 32 + wx / 8)
  p.tilePixel vram t (wx % 8) (wl % 8)

/-- The colour number under the sprites at column `x` of line `y` (R474). -/
def Ppu.backColour (p : Ppu) (vram : Memory) (x y : Nat) : BitVec 2 :=
  if p.windowDrawn y && decide (p.wx.toNat ≤ x + 7) then p.windowColour vram x else p.bgColour vram x y

/-! ## Sprites -/

/-- One entry of OAM (R473). -/
structure Sprite where
  y : Nat
  x : Nat
  tile : Byte
  attr : Byte
  deriving DecidableEq, Repr

/-- OAM entry `i` (R473). -/
def spriteAt (oam : Memory) (i : Nat) : Sprite :=
  { y := (oam.read (4 * i)).toNat, x := (oam.read (4 * i + 1)).toNat,
    tile := oam.read (4 * i + 2), attr := oam.read (4 * i + 3) }

/-- The height of the sprites: LCDC[2] (R473). -/
def Ppu.spriteHeight (p : Ppu) : Nat := if p.lcdc.getLsbD 2 then 16 else 8

/-- The sprite overlaps line `y` (R473). -/
def Sprite.overlaps (sp : Sprite) (h y : Nat) : Bool := decide (sp.y ≤ y + 16) && decide (y + 16 < sp.y + h)

/-- The first ten sprites in OAM order that overlap line `y`; none while LCDC[1] is 0 (R473). -/
def Ppu.selectedSprites (p : Ppu) (oam : Memory) (y : Nat) : List Sprite :=
  if p.lcdc.getLsbD 1 then
    (((List.range 40).map (spriteAt oam)).filter (fun sp => sp.overlaps p.spriteHeight y)).take 10
  else []

/-- `SpritePixel(i, x, y)`: the sprite's colour number at column `x`, 0 (transparent) where the sprite has
no pixel (R473). -/
def Ppu.spritePixel (p : Ppu) (vram : Memory) (sp : Sprite) (x y : Nat) : BitVec 2 :=
  if sp.x ≤ x + 8 ∧ x + 8 < sp.x + 8 then
    let h := p.spriteHeight
    let row := y + 16 - sp.y
    let row := if sp.attr.getLsbD 6 then h - 1 - row else row
    let px := x + 8 - sp.x
    let px := if sp.attr.getLsbD 5 then 7 - px else px
    let t := if h = 16 then sp.tile &&& 0xFE else sp.tile
    let base := t.toNat * 16
    rowPixel (vram.read (base + 2 * row)) (vram.read (base + 2 * row + 1)) px
  else 0

/-- The sprite shown at a column: of those with a pixel that is not transparent, the one with the smallest
X, at equal X the first in OAM order (R473). -/
def Ppu.shownSprite (p : Ppu) (vram : Memory) (selected : List Sprite) (x y : Nat) : Option Sprite :=
  (selected.filter (fun sp => p.spritePixel vram sp x y != 0)).foldl
    (fun best sp =>
      match best with
      | none => some sp
      | some b => if sp.x < b.x then some sp else some b)
    none

/-! ## One line -/

/-- The pixel of the framebuffer at column `x` of line `y` (R474). -/
def Ppu.pixel (p : Ppu) (vram : Memory) (sh : Shades) (selected : List Sprite) (y x : Nat) : Argb :=
  let c := p.backColour vram x y
  match p.shownSprite vram selected x y with
  | some sp =>
    if sp.attr.getLsbD 7 && c != 0 then shadeColour sh (paletteShade p.bgp c)
    else
      shadeColour sh (paletteShade (if sp.attr.getLsbD 4 then p.obp1 else p.obp0) (p.spritePixel vram sp x y))
  | none => shadeColour sh (paletteShade p.bgp c)

/-- The 160 pixels of line `y` (R474). -/
def Ppu.renderRow (p : Ppu) (vram oam : Memory) (sh : Shades) (y : Nat) : List Argb :=
  let selected := p.selectedSprites oam y
  (List.range 160).map (p.pixel vram sh selected y)

/-- `RenderLine` (R470, R472): nothing is rendered for LY of 144 and above; the window-line counter moves on
a line where the window is drawn. -/
def Ppu.renderLine (p : Ppu) (vram oam : Memory) (sh : Shades) : Ppu :=
  let y := p.ly.toNat
  if y < 144 then
    { p with
      framebuffer := p.framebuffer.writeRow (160 * y) (p.renderRow vram oam sh y)
      windowLine := if p.windowDrawn y then p.windowLine + 1 else p.windowLine }
  else p

/-! ## The mode state machine -/

/-- A STAT event: the request is set if the event's enable bit is (R467). `i` is the bit of the stored
field STAT[6:3]. -/
def Ppu.statEvent (p : Ppu) (i : Nat) : Ppu := { p with statReq := p.statReq || p.statEnable.getLsbD i }

/-- Event (d) of R467: the new LY equals LYC. -/
def Ppu.compareEvent (p : Ppu) : Ppu := if p.ly = p.lyc then p.statEvent 3 else p

/-- The end of HBlank: the next line, and VBlank from line 144 on (R466, R468). -/
def Ppu.endHblank (p : Ppu) : Ppu :=
  let p := { p with modeTicks := 0, ly := p.ly + 1 }.compareEvent
  if p.ly = 144 then { p with mode := .vblank, vblankReq := true }.statEvent 1
  else { p with mode := .oamScan }.statEvent 2

/-- The end of a line of VBlank; after line 153 the frame is complete (R468, R475). -/
def Ppu.endVblankLine (p : Ppu) : Ppu :=
  let p := { p with modeTicks := 0, ly := p.ly + 1 }
  if 153 < p.ly.toNat then
    ({ p with ly := 0, windowLine := 0, frameReady := true, mode := .oamScan }.statEvent 2).compareEvent
  else p.compareEvent

/-- `PpuSubTick` (R468): mode lengths 80, 172, 204 and 456 sub-ticks. -/
def Ppu.subTick (vram oam : Memory) (sh : Shades) (p : Ppu) : Ppu :=
  let p := { p with modeTicks := p.modeTicks + 1 }
  match p.mode with
  | .oamScan =>
    if p.modeTicks = 80 then { p with mode := .transfer, modeTicks := 0 }.renderLine vram oam sh else p
  | .transfer =>
    if p.modeTicks = 172 then { p with mode := .hblank, modeTicks := 0 }.statEvent 0 else p
  | .hblank => if p.modeTicks = 204 then p.endHblank else p
  | .vblank => if p.modeTicks = 456 then p.endVblankLine else p

/-- `PpuTick` (R468): four sub-ticks; the frame-ready output lasts one M-cycle (R475). -/
def Ppu.tick (vram oam : Memory) (sh : Shades) (p : Ppu) : Ppu :=
  let sub := Ppu.subTick vram oam sh
  sub (sub (sub (sub { p with frameReady := false })))

end Sys2Proof.Machine
end

