-- ==== Sys2Proof/Machine/Cycle.lean ====
section
/-! DEFINITION. One M-cycle of the block around the CPU's step (spec/60_exceptions.md rules R440 to R442).

`State.beginCycle` is the part of an M-cycle before the CPU step, `State.endCycle` the part after it.
`State.cycle` leaves the CPU step of one M-cycle and enters that of the next: what happens between two
bus accesses of one instruction (R31, R73). -/

namespace Sys2Proof.Machine

/-- The host's change of `BUTTONS` between two M-cycles (R7, R440): the next mask of the queue, if any (log
entry 8). -/
def State.hostInput (s : State) : State :=
  match s.buttonQueue with
  | [] => s
  | m :: rest => { s with buttons := m, buttonQueue := rest }

/-- `PpuTick` (R468). -/
def State.ppuTick (s : State) : State := { s with ppu := s.ppu.tick s.vram s.oam s.launch.shades }

/-- `tickDma()` (R101). -/
def State.dmaTick (s : State) : State :=
  if 0 < s.dma.counter then
    let k := 162 - s.dma.counter
    let oam :=
      if 1 ≤ k ∧ k ≤ 160 then
        s.oam.write (k - 1) (s.dmaSourceRead (joinBytes s.dma.source 0 + BitVec.ofNat 16 (k - 1)))
      else s.oam
    { s with oam := oam, dma := { s.dma with counter := s.dma.counter - 1 } }
  else s

/-- `TimerTick` (R460). -/
def State.timerTick (s : State) : State := { s with timer := s.timer.tick }

/-- The part of an M-cycle before the CPU step: picture unit, DMA, timer, in this order (R440). -/
def State.beginCycle (s : State) : State := s.hostInput.ppuTick.dmaTick.timerTick

/-- `DriverOr` (R441): the request outputs go into IF and are cleared. -/
def State.endCycle (s : State) : State :=
  { s with
    intFlag := s.intFlag ||| (bit1 s.timer.req ++ bit1 s.ppu.statReq ++ bit1 s.ppu.vblankReq).setWidth 5
    ppu := { s.ppu with vblankReq := false, statReq := false }
    timer := { s.timer with req := false } }

/-- From the CPU step of one M-cycle to the CPU step of the next. -/
def State.cycle (s : State) : State := s.endCycle.beginCycle

end Sys2Proof.Machine
end

