-- ==== Sys2Proof/Machine/Ops.lean ====
section
/-! DEFINITION. The named operations over registers and the bus, taking an interrupt, the illegal-opcode
fault, and the return from an interrupt.

CONVENTION (R31, R73; log entries 4 and 7). The state a meaning is given, and every state inside it, is the machine IN THE CPU
STEP of an M-cycle: the other agents have stepped in this M-cycle, the driver has not. A meaning is given
the CPU step of the M-cycle that fetched the instruction's last byte, with PC past the instruction;
`State.cycle` takes it to the CPU step of the next M-cycle; the M-cycle it ends in is finished by `step`. -/

namespace Sys2Proof.Machine

/-! ## Registers -/

/-- Replace the CPU's registers. -/
def State.setCpu (s : State) (c : Cpu) : State := { s with cpu := c }

/-- Read `r8[i]` (R12). -/
def State.reg8 (s : State) : Reg8 → Byte
  | .b => s.cpu.b
  | .c => s.cpu.c
  | .d => s.cpu.d
  | .e => s.cpu.e
  | .h => s.cpu.h
  | .l => s.cpu.l
  | .a => s.cpu.a

/-- Write `r8[i]` (R12). -/
def State.setReg8 (s : State) (r : Reg8) (v : Byte) : State :=
  match r with
  | .b => s.setCpu { s.cpu with b := v }
  | .c => s.setCpu { s.cpu with c := v }
  | .d => s.setCpu { s.cpu with d := v }
  | .e => s.setCpu { s.cpu with e := v }
  | .h => s.setCpu { s.cpu with h := v }
  | .l => s.setCpu { s.cpu with l := v }
  | .a => s.setCpu { s.cpu with a := v }

/-- Write F: the low nibble stays 0 (R23). -/
def State.setF (s : State) (v : Byte) : State := s.setCpu { s.cpu with f := v &&& 0xF0 }

/-- Write SP (R22). -/
def State.setSp (s : State) (v : Word) : State := s.setCpu { s.cpu with sp := v }

/-- Write PC (R24). -/
def State.setPc (s : State) (v : Word) : State := s.setCpu { s.cpu with pc := v }

/-- Write IME (R25). -/
def State.setIme (s : State) (v : Bool) : State := s.setCpu { s.cpu with ime := v }

/-- Write `ime_pending` (R26). -/
def State.setImePending (s : State) (v : Bool) : State := s.setCpu { s.cpu with imePending := v }

/-- BC (R21). -/
def State.bc (s : State) : Word := joinBytes s.cpu.b s.cpu.c

/-- DE (R21). -/
def State.de (s : State) : Word := joinBytes s.cpu.d s.cpu.e

/-- HL (R21). -/
def State.hl (s : State) : Word := joinBytes s.cpu.h s.cpu.l

/-- AF (R21). -/
def State.af (s : State) : Word := joinBytes s.cpu.a s.cpu.f

/-- Write BC (R12: both halves). -/
def State.setBc (s : State) (v : Word) : State := s.setCpu { s.cpu with b := hiByte v, c := loByte v }

/-- Write DE. -/
def State.setDe (s : State) (v : Word) : State := s.setCpu { s.cpu with d := hiByte v, e := loByte v }

/-- Write HL. -/
def State.setHl (s : State) (v : Word) : State := s.setCpu { s.cpu with h := hiByte v, l := loByte v }

/-- Write AF: the low nibble of F stays 0 (R23, R236). -/
def State.setAf (s : State) (v : Word) : State :=
  s.setCpu { s.cpu with a := hiByte v, f := loByte v &&& 0xF0 }

/-- Read `rr[p]` (R12). -/
def State.pair (s : State) : Pair → Word
  | .bc => s.bc
  | .de => s.de
  | .hl => s.hl
  | .sp => s.cpu.sp

/-- Write `rr[p]` (R12). -/
def State.setPair (s : State) (p : Pair) (v : Word) : State :=
  match p with
  | .bc => s.setBc v
  | .de => s.setDe v
  | .hl => s.setHl v
  | .sp => s.setSp v

/-- Read `rr2[p]` (R12). -/
def State.stackPair (s : State) : StackPair → Word
  | .bc => s.bc
  | .de => s.de
  | .hl => s.hl
  | .af => s.af

/-- Write `rr2[p]` (R12). -/
def State.setStackPair (s : State) (p : StackPair) (v : Word) : State :=
  match p with
  | .bc => s.setBc v
  | .de => s.setDe v
  | .hl => s.setHl v
  | .af => s.setAf v

/-! ## Bus M-cycles (R13) -/

/-- `MemRead(addr, 1)` in the next M-cycle: the byte and the machine in that M-cycle's CPU step. -/
def State.busRead (s : State) (addr : Word) : Byte × State := (s.cycle.memRead addr, s.cycle)

/-- `MemWrite(addr, 1, v)` in the next M-cycle. -/
def State.busWrite (s : State) (addr : Word) (v : Byte) : State := s.cycle.memWrite addr v

/-- `Internal` (R13): an M-cycle without a bus access of the CPU. -/
def State.internal (s : State) : State := s.cycle

/-- `MemWrite(addr, 2, v)` (R13): two M-cycles, low byte first; the second address wraps (R72). -/
def State.busWrite16 (s : State) (addr : Word) (v : Word) : State :=
  (s.busWrite addr (loByte v)).busWrite (addr + 1) (hiByte v)

/-- `Push16(v)` (R13): two M-cycles, high byte first. -/
def State.push16 (s : State) (v : Word) : State :=
  let s1 := s.setSp (s.cpu.sp - 1)
  let s2 := s1.busWrite s1.cpu.sp (hiByte v)
  let s3 := s2.setSp (s2.cpu.sp - 1)
  s3.busWrite s3.cpu.sp (loByte v)

/-- `Pop16()` (R13): two M-cycles, low byte first. -/
def State.pop16 (s : State) : Word × State :=
  let (lo, s1) := s.busRead s.cpu.sp
  let s2 := s1.setSp (s1.cpu.sp + 1)
  let (hi, s3) := s2.busRead s2.cpu.sp
  (joinBytes hi lo, s3.setSp (s3.cpu.sp + 1))

/-! ## Fetching -/

/-- `Fetch8()` (R13) in the CPU step of the M-cycle `s` is in: the byte at PC; PC moves on unless the halt
bug is set, which the fetch then clears (R24, R28). -/
def State.fetch8 (s : State) : Byte × State :=
  (s.memRead s.cpu.pc,
    if s.cpu.haltBug then s.setCpu { s.cpu with haltBug := false }
    else s.setPc (s.cpu.pc + 1))

/-- Fetch `n` more bytes, each in an M-cycle of its own (R152). -/
def State.fetchMore (s : State) : Nat → List Byte × State
  | 0 => ([], s)
  | n + 1 =>
    let (v, s1) := s.cycle.fetch8
    let (vs, s2) := s1.fetchMore n
    (v :: vs, s2)

/-- Fetch one instruction (R154): the opcode in the M-cycle `s` is in, then the bytes its format calls for.
The address the opcode was read from is kept (R31, R365). -/
def State.fetchInstr (s : State) : List Byte × State :=
  let (op, s1) := s.fetch8
  let s2 := s1.setCpu { s1.cpu with opcodeAddr := s.cpu.pc }
  let (rest, s3) := s2.fetchMore (operandCount op)
  (op :: rest, s3)

/-! ## Interrupts -/

/-- The five sources in priority order (R410, R412). -/
inductive Irq where
  | vblank | stat | timer | serial | joypad
  deriving DecidableEq, Repr

/-- The source's bit in IE and IF (R32). -/
def Irq.bit : Irq → Nat
  | .vblank => 0 | .stat => 1 | .timer => 2 | .serial => 3 | .joypad => 4

/-- The source's vector address (R32, R410). -/
def Irq.vector : Irq → Word
  | .vblank => 0x0040
  | .stat => 0x0048
  | .timer => 0x0050
  | .serial => 0x0058
  | .joypad => 0x0060

/-- `pend = IE & IF & 0x1F` (R411). -/
def State.pend (s : State) : BitVec 5 := s.intEnable.setWidth 5 &&& s.intFlag

/-- The source of the lowest set bit of `pend`, if there is one (R412, R422). -/
def winnerOf (pend : BitVec 5) : Option Irq :=
  if pend.getLsbD 0 then some .vblank
  else if pend.getLsbD 1 then some .stat
  else if pend.getLsbD 2 then some .timer
  else if pend.getLsbD 3 then some .serial
  else if pend.getLsbD 4 then some .joypad
  else none

/-- The check after both pushes (R423): with the winner's bit still set in `IE & IF` the interrupt is taken,
otherwise the dispatch is cancelled and PC is 0x0000 (R424). -/
def State.decideDispatch (s : State) (w : Irq) : State :=
  if s.pend.getLsbD w.bit then
    { s.setCpu { s.cpu with ime := false, pc := w.vector } with
      intFlag := s.intFlag &&& ~~~(1#5 <<< w.bit) }
  else s.setPc 0x0000

/-- Taking an interrupt: the five M-cycles of R423, from the CPU step of the first to that of the fifth. -/
def State.dispatch (s : State) (w : Irq) : State :=
  let s1 := s.setImePending false
  let s2 := s1.internal
  let s4 := s2.push16 s2.cpu.pc
  let s5 := s4.decideDispatch w
  s5.internal

/-- `raise IllegalOpcode(op, at)` (R400, R365): the latch is set with the opcode and the address it was read
from. -/
def State.raiseIllegal (s : State) (op : Byte) : State :=
  s.setCpu { s.cpu with faulted := true, faultOp := op, faultPc := s.cpu.opcodeAddr }

/-- The return from an interrupt (R339, R426): PC is popped, IME is 1 at once, an armed enable is dropped. -/
def State.returnFromInterrupt (s : State) : State :=
  let (target, s1) := s.pop16
  (s1.setCpu { s1.cpu with pc := target, ime := true, imePending := false }).internal

/-- The interrupt a sampling point takes: IME is 1 and an enabled source is pending (R420). -/
def State.interrupt (s : State) : Option Irq := if s.cpu.ime then winnerOf s.pend else none

/-- Leaving the wait of HALT or STOP (R421). -/
def State.wake (s : State) : State := s.setCpu { s.cpu with halted := false, stopped := false }

/-! ## The end of an instruction -/

/-- The completion rule of R364 for an instruction that started with `ime_pending` = `armed`. An
instruction that raised the fault has not completed: the state stays frozen as it is (R400). -/
def State.complete (s : State) (i : Instr) (armed : Bool) : State :=
  if s.cpu.faulted then s
  else
    s.setCpu
      { s.cpu with
        ime := if armed = true ∧ i ≠ .di then true else s.cpu.ime
        imePending := if i ≠ .ei then false else s.cpu.imePending }

/-! ## Placing an instruction (the host's fetch word) -/

/-- An instruction byte can be placed at the address: it is ROM, the boot overlay, work RAM, OAM or high
RAM, whose fetch returns what is stored there. -/
def holdsCode (addr : Word) : Bool :=
  match placeOf addr with
  | .cart _ => true
  | .wram _ => true
  | .oam _ => true
  | .hram _ => true
  | .vram _ => false
  | .cartRam _ => false
  | .hole => false
  | .io _ => false
  | .intEnable => false

/-- Put a byte where a fetch from the address reads it: the boot overlay while it is mapped, the ROM byte of
the bank in the window, or the RAM byte. -/
def State.placeByte (s : State) (addr : Word) (v : Byte) : State :=
  let toRom (a : Nat) : State := { s with launch := { s.launch with rom := s.launch.rom.write (s.romIndex a) v } }
  match placeOf addr with
  | .cart a =>
    match s.launch.boot with
    | some b =>
      if a ≤ 0x00FF ∧ s.bootDisabled = false then { s with launch := { s.launch with boot := some (b.write a v) } }
      else toRom a
    | none => toRom a
  | .wram i => { s with wram := s.wram.write i v }
  | .oam i => { s with oam := s.oam.write i v }
  | .hram i => { s with hram := s.hram.write i v }
  | .vram _ => s
  | .cartRam _ => s
  | .hole => s
  | .io _ => s
  | .intEnable => s

/-- Store three bytes where the next step fetches its instruction, and set what this fetch needs: no fault,
no wait, no halt bug, no interrupt to take, no DMA block over PC, and PC at an address that can hold
code (work RAM if it is not; log entry 6). -/
def State.placeInstr (s : State) (bytes : List Byte) : State :=
  let pc := s.cpu.pc
  let pc := if holdsCode pc && holdsCode (pc + 1) && holdsCode (pc + 2) then pc else 0xC000
  let s1 := s.setCpu
    { s.cpu with
      pc := pc, faulted := false, halted := false, stopped := false, haltBug := false,
      ime := s.cpu.ime && s.interrupt.isNone }
  let s2 := if s1.dmaBlocks pc || s1.dmaBlocks (pc + 2) then { s1 with dma := { s1.dma with counter := 0 } } else s1
  ((s2.placeByte pc (bytes.getD 0 0)).placeByte (pc + 1) (bytes.getD 1 0)).placeByte (pc + 2) (bytes.getD 2 0)

end Sys2Proof.Machine
end

