-- ==== Sys2Proof/Machine/Flags.lean ====
section
/-! DEFINITION. The flags of F and every flag computation of the spec: 8-bit and 16-bit arithmetic, logic,
DAA, rotates, shifts, BIT (spec/41_load16.md to spec/44_rotate_shift_bit.md). Sums are exact, in the
natural numbers, and narrowed at the end. -/

namespace Sys2Proof.Machine

/-! ## The flag register (R23) -/

/-- F from its four flags; bits 3:0 are 0. -/
def flagByte (z n h c : Bool) : Byte := bit1 z ++ bit1 n ++ bit1 h ++ bit1 c ++ 0#4

/-- F.Z. -/
def State.flagZ (s : State) : Bool := s.cpu.f.getLsbD 7

/-- F.N. -/
def State.flagN (s : State) : Bool := s.cpu.f.getLsbD 6

/-- F.H. -/
def State.flagH (s : State) : Bool := s.cpu.f.getLsbD 5

/-- F.C. -/
def State.flagC (s : State) : Bool := s.cpu.f.getLsbD 4

/-- Write the four flags. -/
def State.setFlags (s : State) (z n h c : Bool) : State := s.setF (flagByte z n h c)

/-- The condition of a conditional form (R12). -/
def State.holds (s : State) : Cond → Bool
  | .nz => !s.flagZ
  | .z => s.flagZ
  | .nc => !s.flagC
  | .c => s.flagC

/-- The value 0 or 1 of a carry. -/
def carryNat (c : Bool) : Nat := if c then 1 else 0

/-! ## 8-bit arithmetic and logic (R250 to R258) -/

/-- A result with its four flags. -/
structure Alu where
  value : Byte
  z : Bool
  n : Bool
  h : Bool
  c : Bool
  deriving DecidableEq, Repr

/-- ADD with `c` = false, ADC with the carry flag (R251, R252). -/
def aluAdd (a v : Byte) (c : Bool) : Alu :=
  let s := a.toNat + v.toNat + carryNat c
  let r : Byte := BitVec.ofNat 8 s
  { value := r, z := r == 0, n := false,
    h := decide (0xF < a.toNat % 16 + v.toNat % 16 + carryNat c), c := decide (0xFF < s) }

/-- SUB with `c` = false, SBC with the carry flag (R253, R254). -/
def aluSub (a v : Byte) (c : Bool) : Alu :=
  let r : Byte := BitVec.ofInt 8 ((a.toNat : Int) - v.toNat - carryNat c)
  { value := r, z := r == 0, n := true,
    h := decide (a.toNat % 16 < v.toNat % 16 + carryNat c), c := decide (a.toNat < v.toNat + carryNat c) }

/-- AND (R255). -/
def aluAnd (a v : Byte) : Alu :=
  { value := a &&& v, z := (a &&& v) == 0, n := false, h := true, c := false }

/-- XOR (R256). -/
def aluXor (a v : Byte) : Alu :=
  { value := a ^^^ v, z := (a ^^^ v) == 0, n := false, h := false, c := false }

/-- OR (R257). -/
def aluOr (a v : Byte) : Alu :=
  { value := a ||| v, z := (a ||| v) == 0, n := false, h := false, c := false }

/-- Write A and the four flags from a result. -/
def State.putAlu (s : State) (r : Alu) : State := (s.setReg8 .a r.value).setFlags r.z r.n r.h r.c

/-- Write the four flags from a result and drop its value (R258). -/
def State.putAluFlags (s : State) (r : Alu) : State := s.setFlags r.z r.n r.h r.c

/-- INC: the result, with C given as it was (R259, R260). -/
def aluInc (v : Byte) (c : Bool) : Alu :=
  { value := v + 1, z := v + 1 == 0, n := false, h := v.toNat % 16 == 0xF, c := c }

/-- DEC: the result, with C given as it was (R261, R262). -/
def aluDec (v : Byte) (c : Bool) : Alu :=
  { value := v - 1, z := v - 1 == 0, n := true, h := v.toNat % 16 == 0x0, c := c }

/-- DAA (R263). -/
def aluDaa (a : Byte) (n h c : Bool) : Alu :=
  if n then
    let adj : Byte := (if h then 0x06 else 0) ||| (if c then 0x60 else 0)
    { value := a - adj, z := a - adj == 0, n := n, h := false, c := c }
  else
    let low : Byte := if h = true ∨ 0x9 < a.toNat % 16 then 0x06 else 0
    let high : Bool := c || decide (0x99 < a.toNat)
    let adj : Byte := low ||| (if high then 0x60 else 0)
    { value := a + adj, z := a + adj == 0, n := n, h := false, c := high }

/-! ## 16-bit arithmetic -/

/-- The H flag of ADD HL,rr: carry out of bit 11 (R290). -/
def carry11 (x v : Word) : Bool := decide (0x0FFF < x.toNat % 0x1000 + v.toNat % 0x1000)

/-- The C flag of ADD HL,rr: carry out of bit 15 (R290). -/
def carry15 (x v : Word) : Bool := decide (0xFFFF < x.toNat + v.toNat)

/-- The H flag of ADD SP,e and LD HL,SP+e: carry out of bit 3 of the low bytes, e as an unsigned byte (R233,
R293). -/
def offsetHalfCarry (sp : Word) (e : Byte) : Bool := decide (0xF < sp.toNat % 16 + e.toNat % 16)

/-- The C flag of ADD SP,e and LD HL,SP+e: carry out of bit 7 of the low bytes (R233, R293). -/
def offsetCarry (sp : Word) (e : Byte) : Bool := decide (0xFF < sp.toNat % 256 + e.toNat)

/-! ## Rotates and shifts (R300 to R311) -/

/-- A rotate's or shift's result from the new value and the bit shifted out. -/
def shiftResult (v : Byte) (out : Bool) : Alu := { value := v, z := v == 0, n := false, h := false, c := out }

/-- RLC (R304). -/
def aluRlc (t : Byte) : Alu := shiftResult (t.extractLsb' 0 7 ++ bit1 (t.getLsbD 7)) (t.getLsbD 7)

/-- RRC (R305). -/
def aluRrc (t : Byte) : Alu := shiftResult (bit1 (t.getLsbD 0) ++ t.extractLsb' 1 7) (t.getLsbD 0)

/-- RL (R306). -/
def aluRl (t : Byte) (c : Bool) : Alu := shiftResult (t.extractLsb' 0 7 ++ bit1 c) (t.getLsbD 7)

/-- RR (R307). -/
def aluRr (t : Byte) (c : Bool) : Alu := shiftResult (bit1 c ++ t.extractLsb' 1 7) (t.getLsbD 0)

/-- SLA (R308). -/
def aluSla (t : Byte) : Alu := shiftResult (t.extractLsb' 0 7 ++ bit1 false) (t.getLsbD 7)

/-- SRA: bit 7 is kept (R309). -/
def aluSra (t : Byte) : Alu := shiftResult (bit1 (t.getLsbD 7) ++ t.extractLsb' 1 7) (t.getLsbD 0)

/-- SWAP (R310). -/
def aluSwap (t : Byte) : Alu := shiftResult (t.extractLsb' 0 4 ++ t.extractLsb' 4 4) false

/-- SRL (R311). -/
def aluSrl (t : Byte) : Alu := shiftResult (bit1 false ++ t.extractLsb' 1 7) (t.getLsbD 0)

/-- BIT (R312): Z is the complement of the tested bit, C stays. -/
def State.testBit (s : State) (v : Byte) (b : Fin 8) : State :=
  s.setFlags (!v.getLsbD b.val) false true s.flagC

end Sys2Proof.Machine
end

