-- ==== Sys2Proof/Machine/Operands.lean ====
section
/-! DEFINITION. The operand forms of R153 that touch the bus, each with its M-cycle. -/

namespace Sys2Proof.Machine

/-- The address of LDH (n) and LDH (C) (R152): 0xFF00 plus the byte. -/
def highPage (n : Byte) : Word := 0xFF00 + zext16 n

/-- The operand (HL): the byte at HL, read in the next M-cycle (R153). -/
def State.readAtHl (s : State) : Byte × State := s.busRead s.hl

/-- Load A from an address in the next M-cycle (R205, R206, R209, R211, R213). -/
def State.loadA (s : State) (addr : Word) : State :=
  let (v, s1) := s.busRead addr
  s1.setReg8 .a v

/-- Store A to an address in the next M-cycle (R207, R208, R210, R212, R214). -/
def State.storeA (s : State) (addr : Word) : State := s.busWrite addr s.cpu.a

/-- A read-modify-write of the byte at HL: read in one M-cycle, written in the next (R73, R260, R262, R304 to
R311); the four flags are the result's. -/
def State.modifyAtHl (s : State) (f : Byte → Alu) : State :=
  let (t, s1) := s.readAtHl
  let r := f t
  (s1.putAluFlags r).busWrite s1.hl r.value

/-- A read-modify-write of the byte at HL that writes no flag (R313, R314). -/
def State.rewriteAtHl (s : State) (f : Byte → Byte) : State :=
  let (t, s1) := s.readAtHl
  s1.busWrite s1.hl (f t)

/-- An operation on a register that writes it and the four flags (R304 to R311). -/
def State.modifyReg8 (s : State) (r : Reg8) (f : Byte → Alu) : State :=
  let x := f (s.reg8 r)
  (s.setReg8 r x.value).putAluFlags x

end Sys2Proof.Machine
end

