-- ==== Sys2Proof/Machine/Alu16.lean ====
section
/-! DEFINITION. 16-bit arithmetic (spec/43_alu16.md). -/

namespace Sys2Proof.Machine

/-- ADD HL,rr: Z is unchanged, H and C are the carries out of bits 11 and 15 (R290). -/
def execAddHlRr (rr : Pair) (s : State) : Result :=
  let v := s.pair rr
  let s1 := s.setFlags s.flagZ false (carry11 s.hl v) (carry15 s.hl v)
  .next (s1.setHl (s.hl + v)).internal

/-- INC rr: no flag is written (R291). -/
def execIncRr (rr : Pair) (s : State) : Result := .next (s.setPair rr (s.pair rr + 1)).internal

/-- DEC rr: no flag is written (R292). -/
def execDecRr (rr : Pair) (s : State) : Result := .next (s.setPair rr (s.pair rr - 1)).internal

/-- ADD SP,e: Z and N are 0, H and C come from the low bytes (R293). -/
def execAddSpE (e : Byte) (s : State) : Result :=
  let s1 := s.setSp (s.cpu.sp + sext16 e)
  let s2 := s1.setFlags false false (offsetHalfCarry s.cpu.sp e) (offsetCarry s.cpu.sp e)
  .next s2.internal.internal

end Sys2Proof.Machine
end

