-- ==== Sys2Proof/Machine/Alu8.lean ====
section
/-! DEFINITION. 8-bit arithmetic and logic (spec/42_alu8.md). -/

namespace Sys2Proof.Machine

/-- ADD A,r (R251). -/
def execAddAR (r : Reg8) (s : State) : Result := .next (s.putAlu (aluAdd s.cpu.a (s.reg8 r) false))

/-- ADD A,(HL) (R251). -/
def execAddAHl (s : State) : Result :=
  let (v, s1) := s.readAtHl
  .next (s1.putAlu (aluAdd s1.cpu.a v false))

/-- ADD A,n (R251). -/
def execAddAN (n : Byte) (s : State) : Result := .next (s.putAlu (aluAdd s.cpu.a n false))

/-- ADC A,r (R252). -/
def execAdcAR (r : Reg8) (s : State) : Result := .next (s.putAlu (aluAdd s.cpu.a (s.reg8 r) s.flagC))

/-- ADC A,(HL) (R252). -/
def execAdcAHl (s : State) : Result :=
  let (v, s1) := s.readAtHl
  .next (s1.putAlu (aluAdd s1.cpu.a v s1.flagC))

/-- ADC A,n (R252). -/
def execAdcAN (n : Byte) (s : State) : Result := .next (s.putAlu (aluAdd s.cpu.a n s.flagC))

/-- SUB r (R253). -/
def execSubR (r : Reg8) (s : State) : Result := .next (s.putAlu (aluSub s.cpu.a (s.reg8 r) false))

/-- SUB (HL) (R253). -/
def execSubHl (s : State) : Result :=
  let (v, s1) := s.readAtHl
  .next (s1.putAlu (aluSub s1.cpu.a v false))

/-- SUB n (R253). -/
def execSubN (n : Byte) (s : State) : Result := .next (s.putAlu (aluSub s.cpu.a n false))

/-- SBC A,r (R254). -/
def execSbcAR (r : Reg8) (s : State) : Result := .next (s.putAlu (aluSub s.cpu.a (s.reg8 r) s.flagC))

/-- SBC A,(HL) (R254). -/
def execSbcAHl (s : State) : Result :=
  let (v, s1) := s.readAtHl
  .next (s1.putAlu (aluSub s1.cpu.a v s1.flagC))

/-- SBC A,n (R254). -/
def execSbcAN (n : Byte) (s : State) : Result := .next (s.putAlu (aluSub s.cpu.a n s.flagC))

/-- AND r (R255). -/
def execAndR (r : Reg8) (s : State) : Result := .next (s.putAlu (aluAnd s.cpu.a (s.reg8 r)))

/-- AND (HL) (R255). -/
def execAndHl (s : State) : Result :=
  let (v, s1) := s.readAtHl
  .next (s1.putAlu (aluAnd s1.cpu.a v))

/-- AND n (R255). -/
def execAndN (n : Byte) (s : State) : Result := .next (s.putAlu (aluAnd s.cpu.a n))

/-- XOR r (R256). -/
def execXorR (r : Reg8) (s : State) : Result := .next (s.putAlu (aluXor s.cpu.a (s.reg8 r)))

/-- XOR (HL) (R256). -/
def execXorHl (s : State) : Result :=
  let (v, s1) := s.readAtHl
  .next (s1.putAlu (aluXor s1.cpu.a v))

/-- XOR n (R256). -/
def execXorN (n : Byte) (s : State) : Result := .next (s.putAlu (aluXor s.cpu.a n))

/-- OR r (R257). -/
def execOrR (r : Reg8) (s : State) : Result := .next (s.putAlu (aluOr s.cpu.a (s.reg8 r)))

/-- OR (HL) (R257). -/
def execOrHl (s : State) : Result :=
  let (v, s1) := s.readAtHl
  .next (s1.putAlu (aluOr s1.cpu.a v))

/-- OR n (R257). -/
def execOrN (n : Byte) (s : State) : Result := .next (s.putAlu (aluOr s.cpu.a n))

/-- CP r (R258): the flags of SUB, A unchanged. -/
def execCpR (r : Reg8) (s : State) : Result := .next (s.putAluFlags (aluSub s.cpu.a (s.reg8 r) false))

/-- CP (HL) (R258). -/
def execCpHl (s : State) : Result :=
  let (v, s1) := s.readAtHl
  .next (s1.putAluFlags (aluSub s1.cpu.a v false))

/-- CP n (R258). -/
def execCpN (n : Byte) (s : State) : Result := .next (s.putAluFlags (aluSub s.cpu.a n false))

/-- INC r: C is unchanged (R259). -/
def execIncR (r : Reg8) (s : State) : Result := .next (s.modifyReg8 r (fun v => aluInc v s.flagC))

/-- INC (HL): C is unchanged (R260). -/
def execIncHl (s : State) : Result := .next (s.modifyAtHl (fun v => aluInc v s.flagC))

/-- DEC r: C is unchanged (R261). -/
def execDecR (r : Reg8) (s : State) : Result := .next (s.modifyReg8 r (fun v => aluDec v s.flagC))

/-- DEC (HL): C is unchanged (R262). -/
def execDecHl (s : State) : Result := .next (s.modifyAtHl (fun v => aluDec v s.flagC))

/-- DAA: N is unchanged (R263). -/
def execDaa (s : State) : Result := .next (s.putAlu (aluDaa s.cpu.a s.flagN s.flagH s.flagC))

/-- CPL: Z and C are unchanged (R264). -/
def execCpl (s : State) : Result := .next ((s.setReg8 .a (~~~s.cpu.a)).setFlags s.flagZ true true s.flagC)

/-- SCF: Z is unchanged (R265). -/
def execScf (s : State) : Result := .next (s.setFlags s.flagZ false false true)

/-- CCF: Z is unchanged (R266). -/
def execCcf (s : State) : Result := .next (s.setFlags s.flagZ false false (!s.flagC))

end Sys2Proof.Machine
end

