-- ==== Sys2Proof/Machine/Control.lean ====
section
/-! DEFINITION. Control transfer (spec/45_control.md): no flag is written. -/

namespace Sys2Proof.Machine

/-- JP nn (R330). -/
def execJpNn (nn : Word) (s : State) : Result := .next (s.setPc nn).internal

/-- JP cc,nn: one M-cycle more when taken (R331). -/
def execJpCcNn (cc : Cond) (nn : Word) (s : State) : Result :=
  .next (if s.holds cc then (s.setPc nn).internal else s)

/-- JP HL: no memory is read (R332). -/
def execJpHl (s : State) : Result := .next (s.setPc s.hl)

/-- JR e: relative to the address after e (R333). -/
def execJrE (e : Byte) (s : State) : Result := .next (s.setPc (s.cpu.pc + sext16 e)).internal

/-- JR cc,e (R334). -/
def execJrCcE (cc : Cond) (e : Byte) (s : State) : Result :=
  .next (if s.holds cc then (s.setPc (s.cpu.pc + sext16 e)).internal else s)

/-- CALL nn: the address after the CALL is pushed (R335). -/
def execCallNn (nn : Word) (s : State) : Result := .next ((s.internal.push16 s.cpu.pc).setPc nn)

/-- CALL cc,nn: nothing is pushed when not taken (R336). -/
def execCallCcNn (cc : Cond) (nn : Word) (s : State) : Result :=
  .next (if s.holds cc then (s.internal.push16 s.cpu.pc).setPc nn else s)

/-- RET (R337). -/
def execRet (s : State) : Result :=
  let (target, s1) := s.pop16
  .next (s1.setPc target).internal

/-- RET cc: an M-cycle for the test, then RET when taken (R338). -/
def execRetCc (cc : Cond) (s : State) : Result :=
  let s1 := s.internal
  if s.holds cc then
    let (target, s2) := s1.pop16
    .next (s2.setPc target).internal
  else .next s1

/-- RETI (R339). -/
def execReti (s : State) : Result := .next s.returnFromInterrupt

/-- RST t (R340). -/
def execRstT (t : Fin 8) (s : State) : Result :=
  .next ((s.internal.push16 s.cpu.pc).setPc (BitVec.ofNat 16 (8 * t.val)))

end Sys2Proof.Machine
end

