-- ==== Sys2Proof/Machine/Load16.lean ====
section
/-! DEFINITION. The 16-bit loads and the stack instructions (spec/41_load16.md). -/

namespace Sys2Proof.Machine

/-- LD rr,nn (R230). -/
def execLdRrNn (rr : Pair) (nn : Word) (s : State) : Result := .next (s.setPair rr nn)

/-- LD (nn),SP: low byte at nn, high byte at nn + 1 (R231). -/
def execLdNnSp (nn : Word) (s : State) : Result := .next (s.busWrite16 nn s.cpu.sp)

/-- LD SP,HL (R232). -/
def execLdSpHl (s : State) : Result := .next (s.setSp s.hl).internal

/-- LD HL,SP+e: Z and N are 0, H and C come from the low bytes (R233). -/
def execLdHlSpE (e : Byte) (s : State) : Result :=
  let s1 := s.setHl (s.cpu.sp + sext16 e)
  .next (s1.setFlags false false (offsetHalfCarry s.cpu.sp e) (offsetCarry s.cpu.sp e)).internal

/-- PUSH rr (R234). -/
def execPushRr (rr : StackPair) (s : State) : Result := .next (s.internal.push16 (s.stackPair rr))

/-- POP rr (R235). -/
def execPopRr (rr : StackPair) (s : State) : Result :=
  let (v, s1) := s.pop16
  .next (s1.setStackPair rr v)

/-- POP AF: bits 3:0 of the popped low byte are dropped (R236). -/
def execPopAf (s : State) : Result :=
  let (v, s1) := s.pop16
  .next (s1.setAf v)

end Sys2Proof.Machine
end

