-- ==== Sys2Proof/Machine/Load8.lean ====
section
/-! DEFINITION. The 8-bit loads (spec/40_load8.md): no flag is written, no fault is raised. -/

namespace Sys2Proof.Machine

/-- LD r,r' (R200). -/
def execLdRR (rd rs : Reg8) (s : State) : Result := .next (s.setReg8 rd (s.reg8 rs))

/-- LD r,n (R201). -/
def execLdRN (r : Reg8) (n : Byte) (s : State) : Result := .next (s.setReg8 r n)

/-- LD r,(HL): the address is HL before the write (R202). -/
def execLdRHl (r : Reg8) (s : State) : Result :=
  let (v, s1) := s.readAtHl
  .next (s1.setReg8 r v)

/-- LD (HL),r (R203). -/
def execLdHlR (r : Reg8) (s : State) : Result := .next (s.busWrite s.hl (s.reg8 r))

/-- LD (HL),n (R204). -/
def execLdHlN (n : Byte) (s : State) : Result := .next (s.busWrite s.hl n)

/-- LD A,(BC) (R205). -/
def execLdABc (s : State) : Result := .next (s.loadA s.bc)

/-- LD A,(DE) (R206). -/
def execLdADe (s : State) : Result := .next (s.loadA s.de)

/-- LD (BC),A (R207). -/
def execLdBcA (s : State) : Result := .next (s.storeA s.bc)

/-- LD (DE),A (R208). -/
def execLdDeA (s : State) : Result := .next (s.storeA s.de)

/-- LD A,(nn) (R209). -/
def execLdANn (nn : Word) (s : State) : Result := .next (s.loadA nn)

/-- LD (nn),A (R210). -/
def execLdNnA (nn : Word) (s : State) : Result := .next (s.storeA nn)

/-- LDH A,(C) (R211). -/
def execLdhAC (s : State) : Result := .next (s.loadA (highPage s.cpu.c))

/-- LDH (C),A (R212). -/
def execLdhCA (s : State) : Result := .next (s.storeA (highPage s.cpu.c))

/-- LDH A,(n) (R213). -/
def execLdhAN (n : Byte) (s : State) : Result := .next (s.loadA (highPage n))

/-- LDH (n),A (R214). -/
def execLdhNA (n : Byte) (s : State) : Result := .next (s.storeA (highPage n))

/-- LD A,(HL-): HL moves after the read and wraps (R215). -/
def execLdAHld (s : State) : Result := .next ((s.loadA s.hl).setHl (s.hl - 1))

/-- LD (HL-),A (R216). -/
def execLdHldA (s : State) : Result := .next ((s.storeA s.hl).setHl (s.hl - 1))

/-- LD A,(HL+) (R217). -/
def execLdAHli (s : State) : Result := .next ((s.loadA s.hl).setHl (s.hl + 1))

/-- LD (HL+),A (R218). -/
def execLdHliA (s : State) : Result := .next ((s.storeA s.hl).setHl (s.hl + 1))

end Sys2Proof.Machine
end

