-- ==== Sys2Proof/Machine/Rotate.lean ====
section
/-! DEFINITION. Rotates, shifts and bit operations (spec/44_rotate_shift_bit.md). -/

namespace Sys2Proof.Machine

/-- A one-byte rotate of A: Z is forced to 0 (R300 to R303). -/
def State.rotateA (s : State) (r : Alu) : State := (s.setReg8 .a r.value).setFlags false r.n r.h r.c

/-- RLCA (R300). -/
def execRlca (s : State) : Result := .next (s.rotateA (aluRlc s.cpu.a))

/-- RRCA (R301). -/
def execRrca (s : State) : Result := .next (s.rotateA (aluRrc s.cpu.a))

/-- RLA (R302). -/
def execRla (s : State) : Result := .next (s.rotateA (aluRl s.cpu.a s.flagC))

/-- RRA (R303). -/
def execRra (s : State) : Result := .next (s.rotateA (aluRr s.cpu.a s.flagC))

/-- RLC r (R304). -/
def execRlcR (r : Reg8) (s : State) : Result := .next (s.modifyReg8 r aluRlc)

/-- RLC (HL) (R304). -/
def execRlcHl (s : State) : Result := .next (s.modifyAtHl aluRlc)

/-- RRC r (R305). -/
def execRrcR (r : Reg8) (s : State) : Result := .next (s.modifyReg8 r aluRrc)

/-- RRC (HL) (R305). -/
def execRrcHl (s : State) : Result := .next (s.modifyAtHl aluRrc)

/-- RL r (R306). -/
def execRlR (r : Reg8) (s : State) : Result := .next (s.modifyReg8 r (fun t => aluRl t s.flagC))

/-- RL (HL) (R306). -/
def execRlHl (s : State) : Result := .next (s.modifyAtHl (fun t => aluRl t s.flagC))

/-- RR r (R307). -/
def execRrR (r : Reg8) (s : State) : Result := .next (s.modifyReg8 r (fun t => aluRr t s.flagC))

/-- RR (HL) (R307). -/
def execRrHl (s : State) : Result := .next (s.modifyAtHl (fun t => aluRr t s.flagC))

/-- SLA r (R308). -/
def execSlaR (r : Reg8) (s : State) : Result := .next (s.modifyReg8 r aluSla)

/-- SLA (HL) (R308). -/
def execSlaHl (s : State) : Result := .next (s.modifyAtHl aluSla)

/-- SRA r (R309). -/
def execSraR (r : Reg8) (s : State) : Result := .next (s.modifyReg8 r aluSra)

/-- SRA (HL) (R309). -/
def execSraHl (s : State) : Result := .next (s.modifyAtHl aluSra)

/-- SWAP r (R310). -/
def execSwapR (r : Reg8) (s : State) : Result := .next (s.modifyReg8 r aluSwap)

/-- SWAP (HL) (R310). -/
def execSwapHl (s : State) : Result := .next (s.modifyAtHl aluSwap)

/-- SRL r (R311). -/
def execSrlR (r : Reg8) (s : State) : Result := .next (s.modifyReg8 r aluSrl)

/-- SRL (HL) (R311). -/
def execSrlHl (s : State) : Result := .next (s.modifyAtHl aluSrl)

/-- BIT b,r (R312). -/
def execBitBR (b : Fin 8) (r : Reg8) (s : State) : Result := .next (s.testBit (s.reg8 r) b)

/-- BIT b,(HL): the operand is not written (R312). -/
def execBitBHl (b : Fin 8) (s : State) : Result :=
  let (v, s1) := s.readAtHl
  .next (s1.testBit v b)

/-- RES b,r (R313). -/
def execResBR (b : Fin 8) (r : Reg8) (s : State) : Result :=
  .next (s.setReg8 r (withBit (s.reg8 r) b.val false))

/-- RES b,(HL) (R313). -/
def execResBHl (b : Fin 8) (s : State) : Result := .next (s.rewriteAtHl (fun t => withBit t b.val false))

/-- SET b,r (R314). -/
def execSetBR (b : Fin 8) (r : Reg8) (s : State) : Result :=
  .next (s.setReg8 r (withBit (s.reg8 r) b.val true))

/-- SET b,(HL) (R314). -/
def execSetBHl (b : Fin 8) (s : State) : Result := .next (s.rewriteAtHl (fun t => withBit t b.val true))

end Sys2Proof.Machine
end

