-- ==== Sys2Proof/Machine/System.lean ====
section
/-! DEFINITION. System instructions, the illegal opcodes and the prefix (spec/46_system.md). -/

namespace Sys2Proof.Machine

/-- NOP (R360). -/
def execNop (s : State) : Result := .next s

/-- The condition of the halt bug (R361): under D0's wording nothing is pending, under the alternative
something is. -/
def bugCondition (cond : HaltBugCond) (pending : Bool) : Bool :=
  match cond with
  | .noPending => !pending
  | .pending => pending

/-- HALT: IF is read as it stands at this CPU step, IME is the flag itself (R361). -/
def execHalt (s : State) : Result :=
  let pending := s.pend != 0
  let bug := !s.cpu.ime && bugCondition s.launch.haltBugCond pending
  .next (s.setCpu { s.cpu with halted := true, haltBug := s.cpu.haltBug || bug })

/-- STOP: with the switch armed the speed bit toggles instead; the second byte is ignored (R362). -/
def execStop (_n : Byte) (s : State) : Result :=
  if s.key1.speedArmed then
    .next { s with key1 := { doubleSpeed := !s.key1.doubleSpeed, speedArmed := false } }
  else .next (s.setCpu { s.cpu with stopped := true })

/-- DI: immediate, and an armed enable is dropped (R363). -/
def execDi (s : State) : Result := .next (s.setCpu { s.cpu with ime := false, imePending := false })

/-- EI: the enable is armed; IME follows by the completion rule (R364). -/
def execEi (s : State) : Result := .next (s.setImePending true)

/-- The illegal opcode 0xD3 (R365). -/
def execIllegalD3 (s : State) : Result := .next (s.raiseIllegal 0xD3)

/-- The illegal opcode 0xDB (R365). -/
def execIllegalDB (s : State) : Result := .next (s.raiseIllegal 0xDB)

/-- The illegal opcode 0xDD (R365). -/
def execIllegalDD (s : State) : Result := .next (s.raiseIllegal 0xDD)

/-- The illegal opcode 0xE3 (R365). -/
def execIllegalE3 (s : State) : Result := .next (s.raiseIllegal 0xE3)

/-- The illegal opcode 0xE4 (R365). -/
def execIllegalE4 (s : State) : Result := .next (s.raiseIllegal 0xE4)

/-- The illegal opcode 0xEB (R365). -/
def execIllegalEB (s : State) : Result := .next (s.raiseIllegal 0xEB)

/-- The illegal opcode 0xEC (R365). -/
def execIllegalEC (s : State) : Result := .next (s.raiseIllegal 0xEC)

/-- The illegal opcode 0xED (R365). -/
def execIllegalED (s : State) : Result := .next (s.raiseIllegal 0xED)

/-- The illegal opcode 0xF4 (R365). -/
def execIllegalF4 (s : State) : Result := .next (s.raiseIllegal 0xF4)

/-- The illegal opcode 0xFC (R365). -/
def execIllegalFC (s : State) : Result := .next (s.raiseIllegal 0xFC)

/-- The illegal opcode 0xFD (R365). -/
def execIllegalFD (s : State) : Result := .next (s.raiseIllegal 0xFD)

/-- The rotate or shift of the extended table with index `y` on a register (R151, R157). -/
def execRotateReg (y : Nat) (r : Reg8) (s : State) : Result :=
  match y with
  | 0 => execRlcR r s
  | 1 => execRrcR r s
  | 2 => execRlR r s
  | 3 => execRrR r s
  | 4 => execSlaR r s
  | 5 => execSraR r s
  | 6 => execSwapR r s
  | _ => execSrlR r s

/-- The rotate or shift of the extended table with index `y` on the byte at HL (R151, R157). -/
def execRotateHl (y : Nat) (s : State) : Result :=
  match y with
  | 0 => execRlcHl s
  | 1 => execRrcHl s
  | 2 => execRlHl s
  | 3 => execRrHl s
  | 4 => execSlaHl s
  | 5 => execSraHl s
  | 6 => execSwapHl s
  | _ => execSrlHl s

/-- The extended instruction that `xop` selects (R157). -/
def execExtended (xop : Byte) (s : State) : Result :=
  let y := fieldY xop
  match fieldX xop, reg8Of (fieldZ xop) with
  | 0, some r => execRotateReg y r s
  | 0, none => execRotateHl y s
  | 1, some r => execBitBR (Fin.ofNat 8 y) r s
  | 1, none => execBitBHl (Fin.ofNat 8 y) s
  | 2, some r => execResBR (Fin.ofNat 8 y) r s
  | 2, none => execResBHl (Fin.ofNat 8 y) s
  | _, some r => execSetBR (Fin.ofNat 8 y) r s
  | _, none => execSetBHl (Fin.ofNat 8 y) s

/-- The prefix 0xCB alone: the extended opcode is fetched in the next M-cycle and its instruction executed
(R366; log entry 5). -/
def execPrefixCB (s : State) : Result :=
  let (xop, s1) := s.cycle.fetch8
  execExtended xop s1

end Sys2Proof.Machine
end

