-- ==== Sys2Proof/Machine/Step.lean ====
section
/-! DEFINITION. One step of the machine, and the placing of an instruction where the next step fetches it.

A step is one of three (R420): an idle M-cycle of a halted or stopped CPU, the five M-cycles of an interrupt
dispatch, or all M-cycles of one instruction, the other agents stepping in each M-cycle (R31, R440; log entry
4). -/

namespace Sys2Proof.Machine

/-- Run one instruction from the CPU step of its first M-cycle: fetch, decode, execute, apply the completion
rule, finish the last M-cycle (R154, R364, R440). -/
def State.runInstr (s : State) : Host.Outcome State Fault Refusal :=
  match decode s.fetchInstr.1 with
  | .error _ => .refused .undecoded
  | .ok (i, _) =>
    match exec i s.fetchInstr.2 with
    | .next t => .next (t.complete i s.cpu.imePending).endCycle
    | .fault r => .fault r
    | .refused r => .refused r

/-- One step (R420, R440): a faulted machine takes none (R400). -/
def step (s : State) : Host.Outcome State Fault Refusal :=
  if s.cpu.faulted then .fault (.illegalOpcode s.cpu.faultOp s.cpu.faultPc)
  else
    let s1 := s.beginCycle
    let waiting := s1.cpu.halted || s1.cpu.stopped
    if waiting && s1.pend == 0 then .next s1.endCycle
    else
      let s2 := s1.wake
      match s2.interrupt with
      | some w => .next (s2.dispatch w).endCycle
      | none => s2.runInstr

/-- The state with the instruction of a table word stored where the next step fetches its instruction, and
everything set that this fetch needs (log entry 6). -/
def State.withFetchWord (s : State) (nbits w : Nat) : State := s.placeInstr (tableBytes nbits w)

end Sys2Proof.Machine
end

