-- ==== Sys2Proof/Safety.lean ====
section
/-! DEFINITION. What counts as a sound machine state and a safe run, and the terms in which claims are
stated: what an instruction's next state keeps, what it stores, how bytes stand for an instruction. -/

namespace Sys2Proof.Machine

/-! ## Sound states -/

/-- The number of sub-ticks a mode lasts; for VBlank, one line of it (R468). -/
def PpuMode.length : PpuMode → Nat
  | .oamScan => 80
  | .transfer => 172
  | .hblank => 204
  | .vblank => 456

/-- The picture unit between two M-cycles: the mode is not over, every M-cycle is four sub-ticks (R468), LY
is a line of the frame, and outside VBlank a visible one. -/
structure Ppu.Sound (p : Ppu) : Prop where
  inMode : p.modeTicks < p.mode.length
  wholeCycles : p.modeTicks % 4 = 0
  line : p.ly.toNat ≤ 153
  visible : p.mode ≠ .vblank → p.ly.toNat < 144
  frame : p.framebuffer.wf = true

/-- The CPU: the low nibble of F is 0 (R23), at most one wait is on (R27), a faulted CPU does not wait
(R400). -/
structure Cpu.Sound (c : Cpu) : Prop where
  lowNibble : c.f &&& 0x0F = 0
  oneWait : ¬(c.halted = true ∧ c.stopped = true)
  faultNotWaiting : c.faulted = true → c.halted = false ∧ c.stopped = false

/-- The memories in their canonical form, none longer than the spec gives it (R42, R47, R48). -/
structure State.MemoriesSound (s : State) : Prop where
  vram : s.vram.wf 8192 = true
  wram : s.wram.wf 8192 = true
  oam : s.oam.wf 160 = true
  hram : s.hram.wf 127 = true
  io : s.io.wf 128 = true
  xram : s.xram.wf s.launch.xramLen = true
  rtc : s.ctrlB.rtc.wf 13 = true

/-- What holds of the machine in every M-cycle, inside a step too. -/
structure State.Sound (s : State) : Prop where
  launch : wellFormedLaunch s.launch = true
  cpu : s.cpu.Sound
  ppu : s.ppu.Sound
  memories : s.MemoriesSound
  /-- R44. -/
  dma : s.dma.counter ≤ 162
  /-- R127: bank 0 is never in the high window's registers. -/
  bankA : s.ctrlA.romBank5 ≠ 0
  bankB : s.ctrlB.romBank7 ≠ 0
  /-- R43: without an overlay the latch is set. -/
  overlay : s.launch.boot = none → s.bootDisabled = true

/-- The invariant of the machine between two steps: it is sound, and every request output has been taken into
IF (R441). -/
structure State.Inv (s : State) : Prop where
  sound : s.Sound
  vblankTaken : s.ppu.vblankReq = false
  statTaken : s.ppu.statReq = false
  timerTaken : s.timer.req = false

/-- A run is safe while the machine has not hit an illegal opcode (R29, R400): the one error state. -/
def State.safe (s : State) : Bool := !s.cpu.faulted

/-! ## Answers and frames -/

/-- The answer is a next state, and it satisfies `P`. -/
def Completes (o : Host.Outcome State Fault Refusal) (P : State → Prop) : Prop := ∃ t, o = .next t ∧ P t

/-- `k` M-cycles of the agents around the CPU: from the CPU step of one M-cycle to the CPU step of the `k`-th
after it, with no write of the CPU in between (R10, R440). -/
def State.cycles (s : State) : Nat → State
  | 0 => s
  | k + 1 => (s.cycles k).cycle

/-- Beside the CPU's registers, `t` is `s` after `k` M-cycles of the agents: the instruction itself changed no
memory, no I/O register and no other state. Every byte reads as those `k` M-cycles leave it, and the
RAMs that no agent writes are those of `s`. -/
structure OnlyCpu (k : Nat) (s t : State) : Prop where
  machine : t = (s.cycles k).setCpu t.cpu
  bytes : ∀ a, t.memRead a = (s.cycles k).memRead a
  ram : t.vram = s.vram ∧ t.wram = s.wram ∧ t.hram = s.hram ∧ t.xram = s.xram

/-- SP, PC, IME and every hidden flag and latch of the CPU are those of `s`: only A to L and F may differ. -/
def SameControl (s t : State) : Prop :=
  t.cpu =
    { s.cpu with
      a := t.cpu.a, f := t.cpu.f, b := t.cpu.b, c := t.cpu.c, d := t.cpu.d, e := t.cpu.e,
      h := t.cpu.h, l := t.cpu.l }

/-- Of the CPU only A and F may differ. -/
def OnlyAF (s t : State) : Prop := t.cpu = { s.cpu with a := t.cpu.a, f := t.cpu.f }

/-- Of the CPU only F may differ. -/
def OnlyF (s t : State) : Prop := t.cpu = { s.cpu with f := t.cpu.f }

/-- The four flags of F, and its low nibble 0 (R23). -/
structure FlagsAre (t : State) (z n h c : Bool) : Prop where
  z : t.flagZ = z
  n : t.flagN = n
  h : t.flagH = h
  c : t.flagC = c
  low : t.cpu.f &&& 0x0F = 0

/-! ## Stores -/

/-- The address is one of plain storage: a write there changes nothing but the byte (R74). The rest are the
cartridge controller registers and the I/O registers. -/
def plainStorage (a : Word) : Bool := decide (0x8000 ≤ a.toNat) && !(decide (0xFF00 ≤ a.toNat) && decide (a.toNat ≤ 0xFF7F))

/-- Two addresses name one location: one offset in one array (the mirror of work RAM, R86), or two offsets of
the external RAM window with one target (R124). -/
def State.sameLocation (s : State) (a b : Word) : Prop :=
  placeOf a = placeOf b ∨
    ∃ i j, placeOf a = .cartRam i ∧ placeOf b = .cartRam j ∧ s.cartRamTarget i = s.cartRamTarget j

/-- `t` is `s` after one M-cycle of the agents and a write of `v` to `addr` in that M-cycle, its CPU registers
apart. A write to plain storage leaves every byte of another location as that M-cycle found it; a write
elsewhere (a cartridge or I/O register) leaves every RAM. -/
structure Stored (s : State) (addr : Word) (v : Byte) (t : State) : Prop where
  machine : t = (s.cycle.memWrite addr v).setCpu t.cpu
  elsewhere :
    plainStorage addr = true → ∀ a, ¬s.cycle.sameLocation a addr → t.memRead a = s.cycle.memRead a
  registers :
    plainStorage addr = false →
      t.vram = s.cycle.vram ∧ t.wram = s.cycle.wram ∧ t.oam = s.cycle.oam ∧ t.hram = s.cycle.hram ∧
        t.xram = s.cycle.xram ∧ t.intEnable = s.cycle.intEnable

/-- `Push16(v)` (R13) in the two M-cycles after `s`, with the stack pointer at `sp` before it: the high byte to
`sp - 1`, then the low byte to `sp - 2`. CPU registers apart. -/
def Pushed (s : State) (sp v : Word) (t : State) : Prop :=
  ∃ u, Stored s (sp - 1) (v.extractLsb' 8 8) u ∧ Stored u (sp - 2) (v.extractLsb' 0 8) t

/-- The word that `Pop16()` (R13) reads in the two M-cycles after `s`: low byte at `sp`, high byte after it. -/
def State.popped (s : State) (sp : Word) : Word := (s.cycles 2).memRead (sp + 1) ++ (s.cycles 1).memRead sp

/-! ## Encodings -/

/-- The bytes at the head of any byte list decode to `i` and to nothing more. -/
def Encodes (bytes : List Byte) (i : Instr) : Prop := ∀ rest, decode (bytes ++ rest) = .ok (i, rest)

/-- A first byte from its number. -/
def op8 (n : Nat) : Byte := BitVec.ofNat 8 n

/-- The eleven illegal opcodes (R158). -/
def illegalBytes : List Byte := [0xD3, 0xDB, 0xDD, 0xE3, 0xE4, 0xEB, 0xEC, 0xED, 0xF4, 0xFC, 0xFD]

/-! ## Results of instructions -/

/-- Register `r` holds `v`, every other register, F and the CPU's control state are those of `s`, and `k`
M-cycles have passed. -/
structure RegLoaded (s : State) (r : Reg8) (v : Byte) (k : Nat) (t : State) : Prop where
  value : t.reg8 r = v
  others : ∀ r', r' ≠ r → t.reg8 r' = s.reg8 r'
  flags : t.cpu.f = s.cpu.f
  control : SameControl s t
  rest : OnlyCpu k s t

/-- Register `r` and the four flags are written; every other register and the control state are those of `s`. -/
structure RegFlagged (s : State) (r : Reg8) (z n h c : Bool) (k : Nat) (t : State) : Prop where
  flags : FlagsAre t z n h c
  others : ∀ r', r' ≠ r → t.reg8 r' = s.reg8 r'
  control : SameControl s t
  rest : OnlyCpu k s t

/-- A byte of memory is replaced by `v` in the second of two M-cycles after `s`, the four flags are written, and
the rest of the CPU is that of `s`. -/
structure ByteFlagged (s : State) (addr : Word) (v : Byte) (z n h c : Bool) (t : State) : Prop where
  store : Stored s.cycle addr v t
  flags : FlagsAre t z n h c
  cpu : OnlyF s t

/-- A is the sum of A, `v` and the carry `c`, with the flags of R251 and R252. -/
structure Added (s : State) (v : Byte) (c k : Nat) (t : State) : Prop where
  value : t.cpu.a.toNat = (s.cpu.a.toNat + v.toNat + c) % 256
  flags :
    FlagsAre t (decide (t.cpu.a.toNat = 0)) false (decide (s.cpu.a.toNat % 16 + v.toNat % 16 + c > 15))
      (decide (s.cpu.a.toNat + v.toNat + c > 255))
  cpu : OnlyAF s t
  rest : OnlyCpu k s t

/-- A is A less `v` less the borrow `c`, with the flags of R253 and R254. -/
structure Subtracted (s : State) (v : Byte) (c k : Nat) (t : State) : Prop where
  value : (t.cpu.a.toNat : Int) = ((s.cpu.a.toNat : Int) - v.toNat - c) % 256
  flags :
    FlagsAre t (decide (t.cpu.a.toNat = 0)) true (decide (s.cpu.a.toNat % 16 < v.toNat % 16 + c))
      (decide (s.cpu.a.toNat < v.toNat + c))
  cpu : OnlyAF s t
  rest : OnlyCpu k s t

/-- The flags of a comparison of A with `v`; A is kept (R258). -/
structure Compared (s : State) (v : Byte) (k : Nat) (t : State) : Prop where
  flags :
    FlagsAre t (decide (s.cpu.a = v)) true (decide (s.cpu.a.toNat % 16 < v.toNat % 16))
      (decide (s.cpu.a.toNat < v.toNat))
  cpu : OnlyF s t
  rest : OnlyCpu k s t

/-- Each bit of A is `f` of the bits of A and `v`; Z is computed, N and C are 0, H is `h` (R255 to R257). -/
structure Combined (s : State) (v : Byte) (f : Bool → Bool → Bool) (h : Bool) (k : Nat) (t : State) : Prop where
  value : ∀ i, i < 8 → t.cpu.a.getLsbD i = f (s.cpu.a.getLsbD i) (v.getLsbD i)
  flags : FlagsAre t (decide (t.cpu.a.toNat = 0)) false h false
  cpu : OnlyAF s t
  rest : OnlyCpu k s t

/-- Register `r` gets the bits `bit`, C the bit shifted out, Z by the result, N and H 0 (R304 to R311). -/
def ShiftedReg (s : State) (r : Reg8) (bit : Nat → Bool) (out : Bool) (t : State) : Prop :=
  (∀ i, i < 8 → (t.reg8 r).getLsbD i = bit i) ∧
    RegFlagged s r (decide ((t.reg8 r).toNat = 0)) false false out 0 t

/-- The same for the byte at HL. -/
def ShiftedHl (s : State) (bit : Nat → Bool) (out : Bool) (t : State) : Prop :=
  ∃ v : Byte, (∀ i, i < 8 → v.getLsbD i = bit i) ∧
    ByteFlagged s s.hl v (decide (v.toNat = 0)) false false out t

/-- PC is `pc`, nothing else of the CPU has changed, and `k` M-cycles have passed. -/
def Jumped (s : State) (pc : Word) (k : Nat) (t : State) : Prop :=
  t.cpu = { s.cpu with pc := pc } ∧ OnlyCpu k s t

/-- The PC of `s` has been pushed in the second and third M-cycle after `s`, and PC is `pc`. -/
def Called (s : State) (pc : Word) (t : State) : Prop :=
  Pushed s.cycle s.cpu.sp s.cpu.pc t ∧ t.cpu = { s.cpu with sp := s.cpu.sp - 2, pc := pc }

/-- An enabled source is pending (R411). -/
def State.Pending (s : State) : Prop := ∃ i, i < 5 ∧ s.intEnable.getLsbD i = true ∧ s.intFlag.getLsbD i = true

/-- Binary-coded decimal: the two digits of a number below 100 in the two nibbles. -/
def bcd (n : Nat) : Byte := BitVec.ofNat 8 (16 * (n / 10) + n % 10)

/-! ## Steps -/

/-- The CPU step of the next M-cycle fetches an instruction: the machine is not faulted, and it is not
waiting or something is pending, and no interrupt is taken (R420). -/
def State.fetches (s : State) : Bool :=
  !s.cpu.faulted
    && (!(s.cpu.halted || s.cpu.stopped) || s.beginCycle.pend != 0)
    && s.beginCycle.interrupt.isNone

/-- The machine in the CPU step of that fetch: the agents have stepped, a wait is over. -/
def State.atFetch (s : State) : State := s.beginCycle.wake

/-- Where the picture unit stands `n` M-cycles into a frame of 17556 (R468): line `n / 114`; in a visible
line 20 M-cycles of OAM-scan, 43 of pixel-transfer, 51 of HBlank. -/
def Ppu.AtPhase (p : Ppu) (n : Nat) : Prop :=
  p.ly.toNat = n / 114 ∧
    (if n / 114 < 144 then
      if n % 114 < 20 then p.mode = .oamScan ∧ p.modeTicks = 4 * (n % 114)
      else if n % 114 < 63 then p.mode = .transfer ∧ p.modeTicks = 4 * (n % 114 - 20)
      else p.mode = .hblank ∧ p.modeTicks = 4 * (n % 114 - 63)
    else p.mode = .vblank ∧ p.modeTicks = 4 * (n % 114))

end Sys2Proof.Machine
end

