-- ==== Sys2Proof/Certificates/Slice0/Obligations.lean ====
section
/-! DEFINITION. The statements for the provers.

Reading them: `exec i s` runs `i` from the CPU step of the M-cycle that fetched its last byte, PC past the
instruction. `Completes o P`: `o` is a next state, and it satisfies `P`. `OnlyCpu k s t`: outside the CPU's
registers `t` is `s` after `k` M-cycles of the other agents (one for each M-cycle of the instruction after its
fetches). `Stored s a v t`: `t` is `s` after one M-cycle of the agents and the write of `v` to `a`.
`Encodes bytes i`: the bytes decode to `i` whatever follows; every byte costs one M-cycle. -/

open Sys2Proof Sys2Proof.Machine

/-! ## Encoding -/

/-- Decoding the encoding of a well-formed instruction gives it back with every operand, and leaves the bytes
that follow; the row PREFIX_CB, the prefix byte alone, is read at the end of the bytes only (R154, log entry 5). -/
def Obligations.DecodeEncode : Prop :=
  ∀ i : Instr, i.wellFormed = true →
    (i ≠ .prefixCB → ∀ rest, decode (encode i ++ rest) = .ok (i, rest)) ∧
      (i = .prefixCB → decode (encode i) = .ok (i, []))

/-- Every byte sequence that decodes is the encoding of what it decodes to, and that is well formed: no two
instructions share bytes and none has two encodings (R154, R156, R157). -/
def Obligations.EncodeDecode : Prop :=
  ∀ bytes i rest, decode bytes = .ok (i, rest) → encode i ++ rest = bytes ∧ i.wellFormed = true

/-- The decoder is total on bytes, the length (1 to 3) is fixed by the first byte alone, and the byte after the
prefix is always an extended opcode, never a second prefix (R150, R154, R155). -/
def Obligations.DecoderTotal : Prop :=
  (∀ op : Byte, ∃ n, n ≤ 2 ∧ ∀ a b rest, ∃ i, decode (op :: a :: b :: rest) = .ok (i, (a :: b :: rest).drop n)) ∧
    (∀ (xop : Byte) rest, ∃ i, decode (0xCB :: xop :: rest) = .ok (i, rest) ∧ i ≠ .prefixCB ∧
      encode i = [0xCB, xop]) ∧
    Encodes [0xCB, 0xCB] (.setBR 1 .e)

/-- Words of the spec, one or more from each family, decode to the instruction their rule gives them. -/
def Obligations.SpecWordsDecode : Prop :=
  Encodes [0x41] (.ldRR .b .c) ∧ Encodes [0x3E, 0x9C] (.ldRN .a 0x9C) ∧ Encodes [0x36, 0xAB] (.ldHlN 0xAB) ∧
    Encodes [0xFA, 0x44, 0xFF] (.ldANn 0xFF44) ∧ Encodes [0x21, 0x34, 0x12] (.ldRrNn .hl 0x1234) ∧
    Encodes [0x08, 0x00, 0xC1] (.ldNnSp 0xC100) ∧ Encodes [0xF5] (.pushRr .af) ∧ Encodes [0xF1] .popAf ∧
    Encodes [0x86] .addAHl ∧ Encodes [0xFE, 0x40] (.cpN 0x40) ∧ Encodes [0x35] .decHl ∧ Encodes [0x27] .daa ∧
    Encodes [0x39] (.addHlRr .sp) ∧ Encodes [0xE8, 0xFE] (.addSpE 0xFE) ∧ Encodes [0x1F] .rra ∧
    Encodes [0xCB, 0x37] (.swapR .a) ∧ Encodes [0xCB, 0x7E] (.bitBHl 7) ∧ Encodes [0xCB, 0x9E] (.resBHl 3) ∧
    Encodes [0x20, 0xFD] (.jrCcE .nz 0xFD) ∧ Encodes [0xDA, 0x00, 0x02] (.jpCcNn .c 0x0200) ∧
    Encodes [0xEF] (.rstT 5) ∧ Encodes [0xD9] .reti ∧ Encodes [0x10, 0x00] (.stop 0) ∧ Encodes [0x76] .halt ∧
    Encodes [0xDD] .illegalDD

/-! ## 8-bit loads -/

/-- LD r,r', LD r,n and LD r,(HL) (R200, R201, R202); constructors ldRR, ldRN, ldRHl. -/
def Obligations.LoadRegister : Prop :=
  (∀ rd rs, Encodes [op8 (0x40 + 8 * rd.index + rs.index)] (.ldRR rd rs) ∧
      ∀ s, Completes (exec (.ldRR rd rs) s) (RegLoaded s rd (s.reg8 rs) 0)) ∧
    (∀ r n, Encodes [op8 (0x06 + 8 * r.index), n] (.ldRN r n) ∧
      ∀ s, Completes (exec (.ldRN r n) s) (RegLoaded s r n 0)) ∧
    (∀ r, Encodes [op8 (0x46 + 8 * r.index)] (.ldRHl r) ∧
      ∀ s, Completes (exec (.ldRHl r) s) (RegLoaded s r (s.cycle.memRead s.hl) 1))

/-- The loads of A from memory (R205, R206, R209, R211, R213, R215, R217): A is the byte the bus reads in the
next M-cycle; with (HL-) and (HL+) HL then moves by one, modulo 2^16. Constructors ldABc, ldADe, ldANn,
ldhAC, ldhAN, ldAHld, ldAHli. -/
def Obligations.LoadA : Prop :=
  (Encodes [0x0A] .ldABc ∧
      ∀ s, Completes (exec .ldABc s) (RegLoaded s .a (s.cycle.memRead (s.cpu.b ++ s.cpu.c)) 1)) ∧
    (Encodes [0x1A] .ldADe ∧
      ∀ s, Completes (exec .ldADe s) (RegLoaded s .a (s.cycle.memRead (s.cpu.d ++ s.cpu.e)) 1)) ∧
    (∀ lo hi : Byte, Encodes [0xFA, lo, hi] (.ldANn (hi ++ lo))) ∧
    (∀ nn s, Completes (exec (.ldANn nn) s) (RegLoaded s .a (s.cycle.memRead nn) 1)) ∧
    (Encodes [0xF2] .ldhAC ∧
      ∀ s, Completes (exec .ldhAC s) (RegLoaded s .a (s.cycle.memRead (0xFF#8 ++ s.cpu.c)) 1)) ∧
    (∀ n : Byte, Encodes [0xF0, n] (.ldhAN n) ∧
      ∀ s, Completes (exec (.ldhAN n) s) (RegLoaded s .a (s.cycle.memRead (0xFF#8 ++ n)) 1)) ∧
    (Encodes [0x3A] .ldAHld ∧
      ∀ s, Completes (exec .ldAHld s) fun t =>
        t.cpu.a = s.cycle.memRead s.hl ∧ t.hl = s.hl - 1 ∧
          t.cpu = { s.cpu with a := t.cpu.a, h := t.cpu.h, l := t.cpu.l } ∧ OnlyCpu 1 s t) ∧
    (Encodes [0x2A] .ldAHli ∧
      ∀ s, Completes (exec .ldAHli s) fun t =>
        t.cpu.a = s.cycle.memRead s.hl ∧ t.hl = s.hl + 1 ∧
          t.cpu = { s.cpu with a := t.cpu.a, h := t.cpu.h, l := t.cpu.l } ∧ OnlyCpu 1 s t)

/-- The 8-bit stores (R203, R204, R207, R208, R210, R212, R214, R216, R218): the byte goes to the address in the
next M-cycle, F and every register but HL of the (HL-) and (HL+) forms are kept, and a write to plain storage
changes that location alone. Constructors ldHlR, ldHlN, ldBcA, ldDeA, ldNnA, ldhCA, ldhNA, ldHldA,
ldHliA. -/
def Obligations.StoreByte : Prop :=
  (∀ r, Encodes [op8 (0x70 + r.index)] (.ldHlR r) ∧
      ∀ s, Completes (exec (.ldHlR r) s) fun t => Stored s s.hl (s.reg8 r) t ∧ t.cpu = s.cpu) ∧
    (∀ n, Encodes [0x36, n] (.ldHlN n) ∧
      ∀ s, Completes (exec (.ldHlN n) s) fun t => Stored s s.hl n t ∧ t.cpu = s.cpu) ∧
    (Encodes [0x02] .ldBcA ∧
      ∀ s, Completes (exec .ldBcA s) fun t => Stored s (s.cpu.b ++ s.cpu.c) s.cpu.a t ∧ t.cpu = s.cpu) ∧
    (Encodes [0x12] .ldDeA ∧
      ∀ s, Completes (exec .ldDeA s) fun t => Stored s (s.cpu.d ++ s.cpu.e) s.cpu.a t ∧ t.cpu = s.cpu) ∧
    (∀ lo hi : Byte, Encodes [0xEA, lo, hi] (.ldNnA (hi ++ lo))) ∧
    (∀ nn s, Completes (exec (.ldNnA nn) s) fun t => Stored s nn s.cpu.a t ∧ t.cpu = s.cpu) ∧
    (Encodes [0xE2] .ldhCA ∧
      ∀ s, Completes (exec .ldhCA s) fun t => Stored s (0xFF#8 ++ s.cpu.c) s.cpu.a t ∧ t.cpu = s.cpu) ∧
    (∀ n : Byte, Encodes [0xE0, n] (.ldhNA n) ∧
      ∀ s, Completes (exec (.ldhNA n) s) fun t => Stored s (0xFF#8 ++ n) s.cpu.a t ∧ t.cpu = s.cpu) ∧
    (Encodes [0x32] .ldHldA ∧
      ∀ s, Completes (exec .ldHldA s) fun t =>
        Stored s s.hl s.cpu.a t ∧ t.hl = s.hl - 1 ∧ t.cpu = { s.cpu with h := t.cpu.h, l := t.cpu.l }) ∧
    (Encodes [0x22] .ldHliA ∧
      ∀ s, Completes (exec .ldHliA s) fun t =>
        Stored s s.hl s.cpu.a t ∧ t.hl = s.hl + 1 ∧ t.cpu = { s.cpu with h := t.cpu.h, l := t.cpu.l })

/-! ## 16-bit loads and the stack -/

/-- LD rr,nn and LD SP,HL (R230, R232); constructors ldRrNn, ldSpHl. -/
def Obligations.LoadPair : Prop :=
  (∀ rr, (∀ lo hi : Byte, Encodes [op8 (0x01 + 16 * rr.index), lo, hi] (.ldRrNn rr (hi ++ lo))) ∧
      ∀ nn s, Completes (exec (.ldRrNn rr nn) s) fun t =>
        t.pair rr = nn ∧ (∀ rr', rr' ≠ rr → t.pair rr' = s.pair rr') ∧
          t.cpu =
            { s.cpu with
              b := t.cpu.b, c := t.cpu.c, d := t.cpu.d, e := t.cpu.e, h := t.cpu.h, l := t.cpu.l, sp := t.cpu.sp } ∧
          OnlyCpu 0 s t) ∧
    (Encodes [0xF9] .ldSpHl ∧
      ∀ s, Completes (exec .ldSpHl s) fun t =>
        t.cpu = { s.cpu with sp := s.cpu.h ++ s.cpu.l } ∧ OnlyCpu 1 s t)

/-- LD HL,SP+e and ADD SP,e (R233, R293): the sum with the signed offset modulo 2^16; Z and N are 0, H and C come
from the low bytes with e as an unsigned byte. Constructors ldHlSpE, addSpE. -/
def Obligations.StackPointerOffset : Prop :=
  (∀ e : Byte, Encodes [0xF8, e] (.ldHlSpE e) ∧
      ∀ s, Completes (exec (.ldHlSpE e) s) fun t =>
        (t.hl.toNat : Int) = ((s.cpu.sp.toNat : Int) + e.toInt) % 65536 ∧
          FlagsAre t false false (decide (s.cpu.sp.toNat % 16 + e.toNat % 16 > 15))
            (decide (s.cpu.sp.toNat % 256 + e.toNat > 255)) ∧
          t.cpu = { s.cpu with h := t.cpu.h, l := t.cpu.l, f := t.cpu.f } ∧ OnlyCpu 1 s t) ∧
    (∀ e : Byte, Encodes [0xE8, e] (.addSpE e) ∧
      ∀ s, Completes (exec (.addSpE e) s) fun t =>
        (t.cpu.sp.toNat : Int) = ((s.cpu.sp.toNat : Int) + e.toInt) % 65536 ∧
          FlagsAre t false false (decide (s.cpu.sp.toNat % 16 + e.toNat % 16 > 15))
            (decide (s.cpu.sp.toNat % 256 + e.toNat > 255)) ∧
          t.cpu = { s.cpu with sp := t.cpu.sp, f := t.cpu.f } ∧ OnlyCpu 2 s t)

/-- LD (nn),SP and PUSH rr (R231, R234): two bytes in two M-cycles, low byte first at nn, high byte first below
SP; PUSH AF stores F with its low nibble 0. Constructors ldNnSp, pushRr. -/
def Obligations.StoreWord : Prop :=
  (∀ lo hi : Byte, Encodes [0x08, lo, hi] (.ldNnSp (hi ++ lo))) ∧
    (∀ nn s, Completes (exec (.ldNnSp nn) s) fun t =>
      (∃ u, Stored s nn (s.cpu.sp.setWidth 8) u ∧ Stored u (nn + 1) ((s.cpu.sp >>> 8).setWidth 8) t) ∧
        t.cpu = s.cpu) ∧
    (∀ rr, Encodes [op8 (0xC5 + 16 * rr.index)] (.pushRr rr) ∧
      ∀ s, Completes (exec (.pushRr rr) s) fun t =>
        Pushed s.cycle s.cpu.sp (s.stackPair rr) t ∧ t.cpu = { s.cpu with sp := s.cpu.sp - 2 }) ∧
    ∀ s : State, s.Sound → s.stackPair .af &&& 0x000F = 0

/-- POP rr and POP AF (R235, R236): the word at SP, low byte first; POP AF drops bits 3:0 of the low byte; a pop
from below 0xFF00 during a DMA transfer yields 0xFFFF. Constructors popRr (of AF it is POP AF, which has the
constructor popAf), popAf. -/
def Obligations.PopWord : Prop :=
  (∀ rr, rr ≠ .af → Encodes [op8 (0xC1 + 16 * rr.index)] (.popRr rr)) ∧
    (∀ rr s, Completes (exec (.popRr rr) s) fun t =>
      t.stackPair rr = (if rr = .af then s.popped s.cpu.sp &&& 0xFFF0 else s.popped s.cpu.sp) ∧
        (∀ rr', rr' ≠ rr → t.stackPair rr' = s.stackPair rr') ∧
        t.cpu =
          { s.cpu with
            a := t.cpu.a, f := t.cpu.f, b := t.cpu.b, c := t.cpu.c, d := t.cpu.d, e := t.cpu.e, h := t.cpu.h,
            l := t.cpu.l, sp := s.cpu.sp + 2 } ∧
        OnlyCpu 2 s t) ∧
    (Encodes [0xF1] .popAf ∧
      ∀ s, Completes (exec .popAf s) fun t =>
        t.cpu.a = (s.cycles 2).memRead (s.cpu.sp + 1) ∧ t.cpu.f = (s.cycles 1).memRead s.cpu.sp &&& 0xF0 ∧
          t.cpu = { s.cpu with a := t.cpu.a, f := t.cpu.f, sp := s.cpu.sp + 2 } ∧ OnlyCpu 2 s t) ∧
    ∀ s : State, 2 < s.dma.counter → s.cpu.sp.toNat < 0xFEFF → s.popped s.cpu.sp = 0xFFFF

/-- What is pushed is popped: with the stack in work RAM and no DMA transfer, PUSH rr then POP of the same pair
(POP AF for AF, whose low nibble is 0) restores the pair and SP, and CALL then RET comes back to the
instruction after the CALL. -/
def Obligations.StackRoundTrip : Prop :=
  ∀ s : State, s.Sound → s.dma.counter = 0 → 0xC002 ≤ s.cpu.sp.toNat → s.cpu.sp.toNat ≤ 0xE000 →
    (∀ rr, ∃ t u, exec (.pushRr rr) s = .next t ∧
      exec (if rr = .af then .popAf else .popRr rr) t = .next u ∧
      u.cpu = s.cpu ∧ u.stackPair rr = s.stackPair rr) ∧
    (∀ nn, ∃ t u, exec (.callNn nn) s = .next t ∧ t.cpu.pc = nn ∧ exec .ret t = .next u ∧ u.cpu = s.cpu)

/-! ## 8-bit arithmetic and logic -/

/-- ADD and ADC (R251, R252), in their three operand forms; constructors addAR, addAHl, addAN, adcAR,
adcAHl, adcAN. -/
def Obligations.AddWithCarry : Prop :=
  (∀ r, Encodes [op8 (0x80 + r.index)] (.addAR r) ∧
      ∀ s, Completes (exec (.addAR r) s) (Added s (s.reg8 r) 0 0)) ∧
    (Encodes [0x86] .addAHl ∧ ∀ s, Completes (exec .addAHl s) (Added s (s.cycle.memRead s.hl) 0 1)) ∧
    (∀ n, Encodes [0xC6, n] (.addAN n) ∧ ∀ s, Completes (exec (.addAN n) s) (Added s n 0 0)) ∧
    (∀ r, Encodes [op8 (0x88 + r.index)] (.adcAR r) ∧
      ∀ s, Completes (exec (.adcAR r) s) (Added s (s.reg8 r) s.flagC.toNat 0)) ∧
    (Encodes [0x8E] .adcAHl ∧
      ∀ s, Completes (exec .adcAHl s) (Added s (s.cycle.memRead s.hl) s.flagC.toNat 1)) ∧
    (∀ n, Encodes [0xCE, n] (.adcAN n) ∧ ∀ s, Completes (exec (.adcAN n) s) (Added s n s.flagC.toNat 0))

/-- SUB, SBC and CP (R253, R254, R258), in their three operand forms; constructors subR, subHl, subN, sbcAR,
sbcAHl, sbcAN, cpR, cpHl, cpN. -/
def Obligations.SubtractAndCompare : Prop :=
  (∀ r, Encodes [op8 (0x90 + r.index)] (.subR r) ∧
      ∀ s, Completes (exec (.subR r) s) (Subtracted s (s.reg8 r) 0 0)) ∧
    (Encodes [0x96] .subHl ∧ ∀ s, Completes (exec .subHl s) (Subtracted s (s.cycle.memRead s.hl) 0 1)) ∧
    (∀ n, Encodes [0xD6, n] (.subN n) ∧ ∀ s, Completes (exec (.subN n) s) (Subtracted s n 0 0)) ∧
    (∀ r, Encodes [op8 (0x98 + r.index)] (.sbcAR r) ∧
      ∀ s, Completes (exec (.sbcAR r) s) (Subtracted s (s.reg8 r) s.flagC.toNat 0)) ∧
    (Encodes [0x9E] .sbcAHl ∧
      ∀ s, Completes (exec .sbcAHl s) (Subtracted s (s.cycle.memRead s.hl) s.flagC.toNat 1)) ∧
    (∀ n, Encodes [0xDE, n] (.sbcAN n) ∧
      ∀ s, Completes (exec (.sbcAN n) s) (Subtracted s n s.flagC.toNat 0)) ∧
    (∀ r, Encodes [op8 (0xB8 + r.index)] (.cpR r) ∧
      ∀ s, Completes (exec (.cpR r) s) (Compared s (s.reg8 r) 0)) ∧
    (Encodes [0xBE] .cpHl ∧ ∀ s, Completes (exec .cpHl s) (Compared s (s.cycle.memRead s.hl) 1)) ∧
    (∀ n, Encodes [0xFE, n] (.cpN n) ∧ ∀ s, Completes (exec (.cpN n) s) (Compared s n 0))

/-- AND, XOR and OR (R255, R256, R257), in their three operand forms; constructors andR, andHl, andN, xorR,
xorHl, xorN, orR, orHl, orN. -/
def Obligations.Logic : Prop :=
  (∀ r, Encodes [op8 (0xA0 + r.index)] (.andR r) ∧
      ∀ s, Completes (exec (.andR r) s) (Combined s (s.reg8 r) and true 0)) ∧
    (Encodes [0xA6] .andHl ∧ ∀ s, Completes (exec .andHl s) (Combined s (s.cycle.memRead s.hl) and true 1)) ∧
    (∀ n, Encodes [0xE6, n] (.andN n) ∧ ∀ s, Completes (exec (.andN n) s) (Combined s n and true 0)) ∧
    (∀ r, Encodes [op8 (0xA8 + r.index)] (.xorR r) ∧
      ∀ s, Completes (exec (.xorR r) s) (Combined s (s.reg8 r) xor false 0)) ∧
    (Encodes [0xAE] .xorHl ∧ ∀ s, Completes (exec .xorHl s) (Combined s (s.cycle.memRead s.hl) xor false 1)) ∧
    (∀ n, Encodes [0xEE, n] (.xorN n) ∧ ∀ s, Completes (exec (.xorN n) s) (Combined s n xor false 0)) ∧
    (∀ r, Encodes [op8 (0xB0 + r.index)] (.orR r) ∧
      ∀ s, Completes (exec (.orR r) s) (Combined s (s.reg8 r) or false 0)) ∧
    (Encodes [0xB6] .orHl ∧ ∀ s, Completes (exec .orHl s) (Combined s (s.cycle.memRead s.hl) or false 1)) ∧
    (∀ n, Encodes [0xF6, n] (.orN n) ∧ ∀ s, Completes (exec (.orN n) s) (Combined s n or false 0))

/-- INC and DEC of a register and of the byte at HL (R259 to R262): C is unchanged; of (HL) the read and the
write are separate M-cycles. Constructors incR, incHl, decR, decHl. -/
def Obligations.IncrementDecrement : Prop :=
  (∀ r, Encodes [op8 (0x04 + 8 * r.index)] (.incR r) ∧
      ∀ s, Completes (exec (.incR r) s) fun t =>
        (t.reg8 r).toNat = ((s.reg8 r).toNat + 1) % 256 ∧
          RegFlagged s r (decide ((t.reg8 r).toNat = 0)) false (decide ((s.reg8 r).toNat % 16 = 15)) s.flagC 0 t) ∧
    (Encodes [0x34] .incHl ∧
      ∀ s, Completes (exec .incHl s) fun t =>
        ∃ v : Byte, v.toNat = ((s.cycle.memRead s.hl).toNat + 1) % 256 ∧
          ByteFlagged s s.hl v (decide (v.toNat = 0)) false
            (decide ((s.cycle.memRead s.hl).toNat % 16 = 15)) s.flagC t) ∧
    (∀ r, Encodes [op8 (0x05 + 8 * r.index)] (.decR r) ∧
      ∀ s, Completes (exec (.decR r) s) fun t =>
        (t.reg8 r).toNat = ((s.reg8 r).toNat + 255) % 256 ∧
          RegFlagged s r (decide ((t.reg8 r).toNat = 0)) true (decide ((s.reg8 r).toNat % 16 = 0)) s.flagC 0 t) ∧
    (Encodes [0x35] .decHl ∧
      ∀ s, Completes (exec .decHl s) fun t =>
        ∃ v : Byte, v.toNat = ((s.cycle.memRead s.hl).toNat + 255) % 256 ∧
          ByteFlagged s s.hl v (decide (v.toNat = 0)) true
            (decide ((s.cycle.memRead s.hl).toNat % 16 = 0)) s.flagC t)

/-- DAA (R263): the adjustment is 0x06 for the low digit and 0x60 for the high one; constructor daa. -/
def Obligations.DecimalAdjust : Prop :=
  Encodes [0x27] .daa ∧
    ∀ s : State,
      let a := s.cpu.a.toNat
      let low := if s.flagH = true ∨ (s.flagN = false ∧ a % 16 > 9) then 0x06 else 0
      let high := if s.flagC = true ∨ (s.flagN = false ∧ a > 0x99) then 0x60 else 0
      Completes (exec .daa s) fun t =>
        t.cpu.a.toNat = (if s.flagN then a + 256 - (low + high) else a + (low + high)) % 256 ∧
          FlagsAre t (decide (t.cpu.a.toNat = 0)) s.flagN false (s.flagC || (!s.flagN && decide (a > 0x99))) ∧
          OnlyAF s t ∧ OnlyCpu 0 s t

/-- What DAA is for: after ADD of two binary-coded decimal numbers it gives the decimal sum with its carry, after
SUB the decimal difference with its borrow. -/
def Obligations.DecimalArithmetic : Prop :=
  ∀ (s : State) (x y : Nat), x < 100 → y < 100 → s.cpu.a = bcd x →
    (∃ t u, exec (.addAN (bcd y)) s = .next t ∧ exec .daa t = .next u ∧
      u.cpu.a = bcd ((x + y) % 100) ∧ u.flagC = decide (x + y ≥ 100)) ∧
    (∃ t u, exec (.subN (bcd y)) s = .next t ∧ exec .daa t = .next u ∧
      u.cpu.a = bcd ((x + 100 - y) % 100) ∧ u.flagC = decide (x < y))

/-- CPL, SCF and CCF (R264, R265, R266); constructors cpl, scf, ccf. -/
def Obligations.FlagSingletons : Prop :=
  (Encodes [0x2F] .cpl ∧
      ∀ s, Completes (exec .cpl s) fun t =>
        (∀ i, i < 8 → t.cpu.a.getLsbD i = !s.cpu.a.getLsbD i) ∧ FlagsAre t s.flagZ true true s.flagC ∧
          OnlyAF s t ∧ OnlyCpu 0 s t) ∧
    (Encodes [0x37] .scf ∧
      ∀ s, Completes (exec .scf s) fun t =>
        FlagsAre t s.flagZ false false true ∧ OnlyF s t ∧ OnlyCpu 0 s t) ∧
    (Encodes [0x3F] .ccf ∧
      ∀ s, Completes (exec .ccf s) fun t =>
        FlagsAre t s.flagZ false false (!s.flagC) ∧ OnlyF s t ∧ OnlyCpu 0 s t)

/-! ## 16-bit arithmetic -/

/-- ADD HL,rr, INC rr and DEC rr (R290, R291, R292): ADD leaves Z and takes H and C from bits 11 and 15, INC and
DEC write no flag. Constructors addHlRr, incRr, decRr. -/
def Obligations.PairArithmetic : Prop :=
  (∀ rr, Encodes [op8 (0x09 + 16 * rr.index)] (.addHlRr rr) ∧
      ∀ s, Completes (exec (.addHlRr rr) s) fun t =>
        t.hl.toNat = (s.hl.toNat + (s.pair rr).toNat) % 65536 ∧
          FlagsAre t s.flagZ false (decide (s.hl.toNat % 4096 + (s.pair rr).toNat % 4096 > 4095))
            (decide (s.hl.toNat + (s.pair rr).toNat > 65535)) ∧
          t.cpu = { s.cpu with h := t.cpu.h, l := t.cpu.l, f := t.cpu.f } ∧ OnlyCpu 1 s t) ∧
    (∀ rr, Encodes [op8 (0x03 + 16 * rr.index)] (.incRr rr) ∧
      ∀ s, Completes (exec (.incRr rr) s) fun t =>
        (t.pair rr).toNat = ((s.pair rr).toNat + 1) % 65536 ∧ (∀ rr', rr' ≠ rr → t.pair rr' = s.pair rr') ∧
          t.cpu =
            { s.cpu with
              b := t.cpu.b, c := t.cpu.c, d := t.cpu.d, e := t.cpu.e, h := t.cpu.h, l := t.cpu.l, sp := t.cpu.sp } ∧
          OnlyCpu 1 s t) ∧
    (∀ rr, Encodes [op8 (0x0B + 16 * rr.index)] (.decRr rr) ∧
      ∀ s, Completes (exec (.decRr rr) s) fun t =>
        (t.pair rr).toNat = ((s.pair rr).toNat + 65535) % 65536 ∧
          (∀ rr', rr' ≠ rr → t.pair rr' = s.pair rr') ∧
          t.cpu =
            { s.cpu with
              b := t.cpu.b, c := t.cpu.c, d := t.cpu.d, e := t.cpu.e, h := t.cpu.h, l := t.cpu.l, sp := t.cpu.sp } ∧
          OnlyCpu 1 s t)

/-! ## Rotates, shifts and bits -/

/-- The one-byte rotates of A (R300 to R303): Z is forced to 0. Constructors rlca, rrca, rla, rra. -/
def Obligations.RotateA : Prop :=
  let rotated (s : State) (bit : Nat → Bool) (out : Bool) (t : State) : Prop :=
    (∀ i, i < 8 → t.cpu.a.getLsbD i = bit i) ∧ FlagsAre t false false false out ∧ OnlyAF s t ∧ OnlyCpu 0 s t
  (Encodes [0x07] .rlca ∧
      ∀ s, Completes (exec .rlca s) (rotated s (fun i => s.cpu.a.getLsbD ((i + 7) % 8)) (s.cpu.a.getLsbD 7))) ∧
    (Encodes [0x0F] .rrca ∧
      ∀ s, Completes (exec .rrca s) (rotated s (fun i => s.cpu.a.getLsbD ((i + 1) % 8)) (s.cpu.a.getLsbD 0))) ∧
    (Encodes [0x17] .rla ∧
      ∀ s, Completes (exec .rla s)
        (rotated s (fun i => if i = 0 then s.flagC else s.cpu.a.getLsbD (i - 1)) (s.cpu.a.getLsbD 7))) ∧
    (Encodes [0x1F] .rra ∧
      ∀ s, Completes (exec .rra s)
        (rotated s (fun i => if i = 7 then s.flagC else s.cpu.a.getLsbD (i + 1)) (s.cpu.a.getLsbD 0)))

/-- RLC, RRC, RL and RR of a register and of the byte at HL (R304 to R307): Z is computed. Constructors rlcR,
rlcHl, rrcR, rrcHl, rlR, rlHl, rrR, rrHl. -/
def Obligations.Rotates : Prop :=
  (∀ r, Encodes [0xCB, op8 (0x00 + r.index)] (.rlcR r) ∧ ∀ s, let x := s.reg8 r
      Completes (exec (.rlcR r) s) (ShiftedReg s r (fun i => x.getLsbD ((i + 7) % 8)) (x.getLsbD 7))) ∧
    (Encodes [0xCB, 0x06] .rlcHl ∧ ∀ s, let x := s.cycle.memRead s.hl
      Completes (exec .rlcHl s) (ShiftedHl s (fun i => x.getLsbD ((i + 7) % 8)) (x.getLsbD 7))) ∧
    (∀ r, Encodes [0xCB, op8 (0x08 + r.index)] (.rrcR r) ∧ ∀ s, let x := s.reg8 r
      Completes (exec (.rrcR r) s) (ShiftedReg s r (fun i => x.getLsbD ((i + 1) % 8)) (x.getLsbD 0))) ∧
    (Encodes [0xCB, 0x0E] .rrcHl ∧ ∀ s, let x := s.cycle.memRead s.hl
      Completes (exec .rrcHl s) (ShiftedHl s (fun i => x.getLsbD ((i + 1) % 8)) (x.getLsbD 0))) ∧
    (∀ r, Encodes [0xCB, op8 (0x10 + r.index)] (.rlR r) ∧ ∀ s, let x := s.reg8 r
      Completes (exec (.rlR r) s)
        (ShiftedReg s r (fun i => if i = 0 then s.flagC else x.getLsbD (i - 1)) (x.getLsbD 7))) ∧
    (Encodes [0xCB, 0x16] .rlHl ∧ ∀ s, let x := s.cycle.memRead s.hl
      Completes (exec .rlHl s)
        (ShiftedHl s (fun i => if i = 0 then s.flagC else x.getLsbD (i - 1)) (x.getLsbD 7))) ∧
    (∀ r, Encodes [0xCB, op8 (0x18 + r.index)] (.rrR r) ∧ ∀ s, let x := s.reg8 r
      Completes (exec (.rrR r) s)
        (ShiftedReg s r (fun i => if i = 7 then s.flagC else x.getLsbD (i + 1)) (x.getLsbD 0))) ∧
    (Encodes [0xCB, 0x1E] .rrHl ∧ ∀ s, let x := s.cycle.memRead s.hl
      Completes (exec .rrHl s)
        (ShiftedHl s (fun i => if i = 7 then s.flagC else x.getLsbD (i + 1)) (x.getLsbD 0)))

/-- SLA, SRA, SWAP and SRL of a register and of the byte at HL (R308 to R311). Constructors slaR, slaHl, sraR,
sraHl, swapR, swapHl, srlR, srlHl. -/
def Obligations.Shifts : Prop :=
  (∀ r, Encodes [0xCB, op8 (0x20 + r.index)] (.slaR r) ∧ ∀ s, let x := s.reg8 r
      Completes (exec (.slaR r) s)
        (ShiftedReg s r (fun i => if i = 0 then false else x.getLsbD (i - 1)) (x.getLsbD 7))) ∧
    (Encodes [0xCB, 0x26] .slaHl ∧ ∀ s, let x := s.cycle.memRead s.hl
      Completes (exec .slaHl s)
        (ShiftedHl s (fun i => if i = 0 then false else x.getLsbD (i - 1)) (x.getLsbD 7))) ∧
    (∀ r, Encodes [0xCB, op8 (0x28 + r.index)] (.sraR r) ∧ ∀ s, let x := s.reg8 r
      Completes (exec (.sraR r) s)
        (ShiftedReg s r (fun i => if i = 7 then x.getLsbD 7 else x.getLsbD (i + 1)) (x.getLsbD 0))) ∧
    (Encodes [0xCB, 0x2E] .sraHl ∧ ∀ s, let x := s.cycle.memRead s.hl
      Completes (exec .sraHl s)
        (ShiftedHl s (fun i => if i = 7 then x.getLsbD 7 else x.getLsbD (i + 1)) (x.getLsbD 0))) ∧
    (∀ r, Encodes [0xCB, op8 (0x30 + r.index)] (.swapR r) ∧ ∀ s, let x := s.reg8 r
      Completes (exec (.swapR r) s) (ShiftedReg s r (fun i => x.getLsbD ((i + 4) % 8)) false)) ∧
    (Encodes [0xCB, 0x36] .swapHl ∧ ∀ s, let x := s.cycle.memRead s.hl
      Completes (exec .swapHl s) (ShiftedHl s (fun i => x.getLsbD ((i + 4) % 8)) false)) ∧
    (∀ r, Encodes [0xCB, op8 (0x38 + r.index)] (.srlR r) ∧ ∀ s, let x := s.reg8 r
      Completes (exec (.srlR r) s)
        (ShiftedReg s r (fun i => if i = 7 then false else x.getLsbD (i + 1)) (x.getLsbD 0))) ∧
    (Encodes [0xCB, 0x3E] .srlHl ∧ ∀ s, let x := s.cycle.memRead s.hl
      Completes (exec .srlHl s)
        (ShiftedHl s (fun i => if i = 7 then false else x.getLsbD (i + 1)) (x.getLsbD 0)))

/-- BIT (R312): Z is the complement of the tested bit, N is 0, H is 1, C stays, the operand is not written; RES and
SET (R313, R314): one bit of the operand is written and no flag. Constructors bitBR, bitBHl, resBR,
resBHl, setBR, setBHl. -/
def Obligations.BitOperations : Prop :=
  (∀ (b : Fin 8) r, Encodes [0xCB, op8 (0x40 + 8 * b.val + r.index)] (.bitBR b r) ∧
      ∀ s, Completes (exec (.bitBR b r) s) fun t =>
        FlagsAre t (!(s.reg8 r).getLsbD b.val) false true s.flagC ∧ OnlyF s t ∧ OnlyCpu 0 s t) ∧
    (∀ b : Fin 8, Encodes [0xCB, op8 (0x46 + 8 * b.val)] (.bitBHl b) ∧
      ∀ s, Completes (exec (.bitBHl b) s) fun t =>
        FlagsAre t (!(s.cycle.memRead s.hl).getLsbD b.val) false true s.flagC ∧ OnlyF s t ∧ OnlyCpu 1 s t) ∧
    (∀ (b : Fin 8) r, Encodes [0xCB, op8 (0x80 + 8 * b.val + r.index)] (.resBR b r) ∧
      ∀ s, Completes (exec (.resBR b r) s) fun t =>
        (∀ i, i < 8 → (t.reg8 r).getLsbD i = (decide (i ≠ b.val) && (s.reg8 r).getLsbD i)) ∧
          RegLoaded s r (t.reg8 r) 0 t) ∧
    (∀ b : Fin 8, Encodes [0xCB, op8 (0x86 + 8 * b.val)] (.resBHl b) ∧
      ∀ s, Completes (exec (.resBHl b) s) fun t =>
        (∃ v : Byte, (∀ i, i < 8 → v.getLsbD i = (decide (i ≠ b.val) && (s.cycle.memRead s.hl).getLsbD i)) ∧
          Stored s.cycle s.hl v t) ∧ t.cpu = s.cpu) ∧
    (∀ (b : Fin 8) r, Encodes [0xCB, op8 (0xC0 + 8 * b.val + r.index)] (.setBR b r) ∧
      ∀ s, Completes (exec (.setBR b r) s) fun t =>
        (∀ i, i < 8 → (t.reg8 r).getLsbD i = (decide (i = b.val) || (s.reg8 r).getLsbD i)) ∧
          RegLoaded s r (t.reg8 r) 0 t) ∧
    (∀ b : Fin 8, Encodes [0xCB, op8 (0xC6 + 8 * b.val)] (.setBHl b) ∧
      ∀ s, Completes (exec (.setBHl b) s) fun t =>
        (∃ v : Byte, (∀ i, i < 8 → v.getLsbD i = (decide (i = b.val) || (s.cycle.memRead s.hl).getLsbD i)) ∧
          Stored s.cycle s.hl v t) ∧ t.cpu = s.cpu)

/-! ## Control transfer -/

/-- The jumps (R330 to R334), taken and not taken, and the four conditions they test; constructors jpNn, jpCcNn,
jpHl, jrE, jrCcE. -/
def Obligations.Jumps : Prop :=
  (∀ s : State, s.holds .nz = !s.cpu.f.getLsbD 7 ∧ s.holds .z = s.cpu.f.getLsbD 7 ∧
      s.holds .nc = !s.cpu.f.getLsbD 4 ∧ s.holds .c = s.cpu.f.getLsbD 4) ∧
    (∀ lo hi : Byte, Encodes [0xC3, lo, hi] (.jpNn (hi ++ lo))) ∧
    (∀ nn s, Completes (exec (.jpNn nn) s) (Jumped s nn 1)) ∧
    (∀ cc, (∀ lo hi : Byte, Encodes [op8 (0xC2 + 8 * cc.index), lo, hi] (.jpCcNn cc (hi ++ lo))) ∧
      ∀ nn s, Completes (exec (.jpCcNn cc nn) s) fun t =>
        (s.holds cc = true → Jumped s nn 1 t) ∧ (s.holds cc = false → Jumped s s.cpu.pc 0 t)) ∧
    (Encodes [0xE9] .jpHl ∧ ∀ s, Completes (exec .jpHl s) (Jumped s (s.cpu.h ++ s.cpu.l) 0)) ∧
    (∀ e : Byte, Encodes [0x18, e] (.jrE e) ∧
      ∀ s, Completes (exec (.jrE e) s) fun t =>
        (t.cpu.pc.toNat : Int) = ((s.cpu.pc.toNat : Int) + e.toInt) % 65536 ∧ Jumped s t.cpu.pc 1 t) ∧
    (∀ cc (e : Byte), Encodes [op8 (0x20 + 8 * cc.index), e] (.jrCcE cc e) ∧
      ∀ s, Completes (exec (.jrCcE cc e) s) fun t =>
        (s.holds cc = true →
          (t.cpu.pc.toNat : Int) = ((s.cpu.pc.toNat : Int) + e.toInt) % 65536 ∧ Jumped s t.cpu.pc 1 t) ∧
        (s.holds cc = false → Jumped s s.cpu.pc 0 t))

/-- CALL nn, CALL cc,nn and RST t (R335, R336, R340): the pushed PC is that of the next instruction; not taken,
nothing is pushed. Constructors callNn, callCcNn, rstT. -/
def Obligations.Calls : Prop :=
  (∀ lo hi : Byte, Encodes [0xCD, lo, hi] (.callNn (hi ++ lo))) ∧
    (∀ nn s, Completes (exec (.callNn nn) s) (Called s nn)) ∧
    (∀ cc, (∀ lo hi : Byte, Encodes [op8 (0xC4 + 8 * cc.index), lo, hi] (.callCcNn cc (hi ++ lo))) ∧
      ∀ nn s, Completes (exec (.callCcNn cc nn) s) fun t =>
        (s.holds cc = true → Called s nn t) ∧ (s.holds cc = false → Jumped s s.cpu.pc 0 t)) ∧
    (∀ y : Fin 8, Encodes [op8 (0xC7 + 8 * y.val)] (.rstT y) ∧
      ∀ s, Completes (exec (.rstT y) s) (Called s (BitVec.ofNat 16 (8 * y.val))))

/-- RET, RET cc and RETI (R337, R338, R339): PC is the word at SP, 0xFFFF during a DMA transfer with the stack
below 0xFF00; RETI sets IME at once and drops an armed enable. Constructors ret, retCc, reti. -/
def Obligations.Returns : Prop :=
  (Encodes [0xC9] .ret ∧
      ∀ s, Completes (exec .ret s) fun t =>
        t.cpu = { s.cpu with pc := s.popped s.cpu.sp, sp := s.cpu.sp + 2 } ∧ OnlyCpu 3 s t) ∧
    (∀ cc, Encodes [op8 (0xC0 + 8 * cc.index)] (.retCc cc) ∧
      ∀ s, Completes (exec (.retCc cc) s) fun t =>
        (s.holds cc = true →
          t.cpu = { s.cpu with pc := s.cycle.popped s.cpu.sp, sp := s.cpu.sp + 2 } ∧ OnlyCpu 4 s t) ∧
        (s.holds cc = false → Jumped s s.cpu.pc 1 t)) ∧
    (Encodes [0xD9] .reti ∧
      ∀ s, Completes (exec .reti s) fun t =>
        t.cpu =
            { s.cpu with pc := s.popped s.cpu.sp, sp := s.cpu.sp + 2, ime := true, imePending := false } ∧
          OnlyCpu 3 s t) ∧
    ∀ s t : State, 2 < s.dma.counter → s.cpu.sp.toNat < 0xFEFF → exec .ret s = .next t → t.cpu.pc = 0xFFFF

/-! ## System instructions -/

/-- NOP and DI (R360, R363); constructors nop, di. -/
def Obligations.NopAndDi : Prop :=
  (Encodes [0x00] .nop ∧ ∀ s, Completes (exec .nop s) (Jumped s s.cpu.pc 0)) ∧
    (Encodes [0xF3] .di ∧
      ∀ s, Completes (exec .di s) fun t =>
        t.cpu = { s.cpu with ime := false, imePending := false } ∧ OnlyCpu 0 s t)

/-- HALT (R361): the CPU waits; with IME = 0 the halt bug is set when nothing is pending (under the other value of
HALT_BUG_COND, when something is). Constructor halt. -/
def Obligations.Halt : Prop :=
  Encodes [0x76] .halt ∧
    ∀ s, Completes (exec .halt s) fun t =>
      t.cpu = { s.cpu with halted := true, haltBug := t.cpu.haltBug } ∧ OnlyCpu 0 s t ∧
        (t.cpu.haltBug = true ↔
          s.cpu.haltBug = true ∨
            s.cpu.ime = false ∧
              (s.launch.haltBugCond = .noPending ∧ ¬s.Pending ∨ s.launch.haltBugCond = .pending ∧ s.Pending))

/-- STOP (R362): the CPU stops; with the switch armed the speed bit toggles instead, the arming is used up, and no
byte but KEY1 reads differently. The second byte is ignored. Constructor stop. -/
def Obligations.Stop : Prop :=
  (∀ n, Encodes [0x10, n] (.stop n)) ∧
    ∀ n s, Completes (exec (.stop n) s) fun t =>
      (s.key1.speedArmed = false → t.cpu = { s.cpu with stopped := true } ∧ OnlyCpu 0 s t) ∧
        (s.key1.speedArmed = true →
          t = { s with key1 := { doubleSpeed := !s.key1.doubleSpeed, speedArmed := false } } ∧
            t.memRead 0xFF4D = (if s.key1.doubleSpeed then 0x7E else 0xFE) ∧
            ∀ a, a ≠ 0xFF4D → t.memRead a = s.memRead a)

/-- EI and the completion rule (R364): EI arms the enable and leaves IME; the step that runs an instruction gives
IME the enable that was armed when it started, unless it is DI, and drops the arming, unless it is EI.
Constructor ei. -/
def Obligations.EnableInterrupts : Prop :=
  (Encodes [0xFB] .ei ∧
      ∀ s, Completes (exec .ei s) fun t => t.cpu = { s.cpu with imePending := true } ∧ OnlyCpu 0 s t) ∧
    ∀ s i rest t, s.fetches = true → decode s.atFetch.fetchInstr.1 = .ok (i, rest) →
      exec i s.atFetch.fetchInstr.2 = .next t → t.cpu.faulted = false →
      ∃ u, step s = .next u ∧ u.cpu = { t.cpu with ime := u.cpu.ime, imePending := u.cpu.imePending } ∧
        u.cpu.ime = (t.cpu.ime || (s.cpu.imePending && decide (i ≠ .di))) ∧
        u.cpu.imePending = (t.cpu.imePending && decide (i = .ei))

/-- The eleven illegal opcodes (R158): each byte decodes to its instruction, which sets the fault latch with the
opcode and the address it was fetched from, and does nothing else. Constructors illegalD3 to illegalFD. -/
def Obligations.IllegalOpcodes : Prop :=
  ∀ p ∈ ([(0xD3, .illegalD3), (0xDB, .illegalDB), (0xDD, .illegalDD), (0xE3, .illegalE3), (0xE4, .illegalE4),
      (0xEB, .illegalEB), (0xEC, .illegalEC), (0xED, .illegalED), (0xF4, .illegalF4), (0xFC, .illegalFC),
      (0xFD, .illegalFD)] : List (Byte × Instr)),
    Encodes [p.1] p.2 ∧
      ∀ s, Completes (exec p.2 s) fun t =>
        t.cpu = { s.cpu with faulted := true, faultOp := p.1, faultPc := s.cpu.opcodeAddr } ∧ OnlyCpu 0 s t

/-- Fetching an illegal opcode (R365): the step records the opcode and the address of its byte (PC - 1, or PC itself
after a fetch under the halt bug), and the machine takes no step after it. That the M-cycle of the fetch still ends with
`DriverOr` (`endCycle`) is the model's reading of R400 and R440, log entry 9. -/
def Obligations.IllegalOpcodeStops : Prop :=
  ∀ s : State, s.fetches = true → s.atFetch.memRead s.cpu.pc ∈ illegalBytes →
    ∃ t, step s = .next t ∧ t.cpu.faulted = true ∧ t.cpu.faultOp = s.atFetch.memRead s.cpu.pc ∧
      t.cpu.faultPc = s.cpu.pc ∧ t.cpu.pc = (if s.cpu.haltBug then s.cpu.pc else s.cpu.pc + 1) ∧
      t.cpu =
        { s.cpu with
          halted := false, stopped := false, haltBug := false, pc := t.cpu.pc, faulted := true,
          faultOp := t.cpu.faultOp, faultPc := s.cpu.pc, opcodeAddr := s.cpu.pc } ∧
      t = s.beginCycle.endCycle.setCpu t.cpu ∧
      step t = .fault (.illegalOpcode (s.atFetch.memRead s.cpu.pc) s.cpu.pc)

/-- The prefix alone (R366, log entry 5): it runs the extended instruction its next byte selects, and that always
completes. Constructor prefixCB. -/
def Obligations.PrefixRunsExtended : Prop :=
  ∀ s : State, ∃ i t, Encodes [0xCB, s.cycle.memRead s.cpu.pc] i ∧ exec .prefixCB s = .next t ∧
    exec i
      (s.cycle.setCpu
        { s.cpu with pc := if s.cpu.haltBug then s.cpu.pc else s.cpu.pc + 1, haltBug := false }) = .next t

/-! ## Fetching, sampling, interrupts -/

/-- A step that fetches runs the instruction that the fetched bytes decode to, then applies the completion rule of
R364 and finishes the last M-cycle with `DriverOr` (R440). -/
def Obligations.StepRunsDecoded : Prop :=
  ∀ s i rest, s.fetches = true → decode s.atFetch.fetchInstr.1 = .ok (i, rest) →
    step s =
      (match exec i s.atFetch.fetchInstr.2 with
      | .next t => .next (t.complete i s.cpu.imePending).endCycle
      | .fault r => .fault r
      | .refused r => .refused r)

/-- The fetch (R13, R24, R28, R152): the opcode in the M-cycle that `s` is in, each further byte in an M-cycle of
its own at the next address, PC past the last one; under the halt bug the opcode's byte is read twice and PC ends
one lower. What is fetched always decodes, with no byte left. -/
def Obligations.FetchReadsBytes : Prop :=
  ∀ s : State,
    let n := operandCount (s.memRead s.cpu.pc)
    let first : Word := if s.cpu.haltBug then s.cpu.pc else s.cpu.pc + 1
    s.fetchInstr.1 =
        s.memRead s.cpu.pc :: (List.range n).map (fun k => (s.cycles (k + 1)).memRead (first + BitVec.ofNat 16 k)) ∧
      s.fetchInstr.2.cpu =
        { s.cpu with pc := first + BitVec.ofNat 16 n, haltBug := false, opcodeAddr := s.cpu.pc } ∧
      OnlyCpu n s s.fetchInstr.2 ∧ ∃ i, decode s.fetchInstr.1 = .ok (i, [])

/-- The sampling point (R420, R421): a waiting CPU with nothing enabled pending idles one M-cycle with its registers
kept; otherwise the wait ends, and with IME = 1 and something pending the interrupt of the lowest pending bit is
dispatched (R412, R422), else an instruction is fetched. -/
def Obligations.SamplingPoint : Prop :=
  ∀ s : State, s.cpu.faulted = false →
    let waiting : Prop := s.cpu.halted = true ∨ s.cpu.stopped = true
    let s1 := s.beginCycle
    (waiting ∧ ¬s1.Pending → ∃ t, step s = .next t ∧ t = s1.endCycle ∧ t.cpu = s.cpu) ∧
      (s.cpu.ime = true ∧ s1.Pending →
        ∃ w : Irq, step s = .next (s.atFetch.dispatch w).endCycle ∧ s.intEnable.getLsbD w.bit = true ∧
          s.intFlag.getLsbD w.bit = true ∧
          ∀ j, j < w.bit → ¬(s.intEnable.getLsbD j = true ∧ s.intFlag.getLsbD j = true)) ∧
      (¬(waiting ∧ ¬s1.Pending) ∧ ¬(s.cpu.ime = true ∧ s1.Pending) →
        s.fetches = true ∧ s.atFetch = s1.setCpu { s.cpu with halted := false, stopped := false })

/-- Taking an interrupt (R423, R424): two internal M-cycles, the two pushes of PC, then the check of the winner's
bit of IE and IF as the pushes left them: set, IME and the bit are cleared and PC is the vector 0x0040 + 8 * bit;
clear, the dispatch is cancelled, PC is 0x0000 and IME and IF are kept; then one more internal M-cycle. The winner is
the source of the lowest bit set in both IE and IF, with IME = 1. -/
def Obligations.Dispatch : Prop :=
  (∀ (s : State) (w : Irq),
    s.interrupt = some w ↔
      s.cpu.ime = true ∧ s.intEnable.getLsbD w.bit = true ∧ s.intFlag.getLsbD w.bit = true ∧
        ∀ j, j < w.bit → ¬(s.intEnable.getLsbD j = true ∧ s.intFlag.getLsbD j = true)) ∧
  ∀ (s : State) (w : Irq), ∃ u, Pushed s.cycle s.cpu.sp s.cpu.pc u ∧
    (u.intEnable.getLsbD w.bit = true ∧ u.intFlag.getLsbD w.bit = true →
      s.dispatch w =
        (({ u with intFlag := u.intFlag &&& ~~~(1#5 <<< w.bit) }).setCpu
          { s.cpu with
            imePending := false, sp := s.cpu.sp - 2, ime := false,
            pc := BitVec.ofNat 16 (0x40 + 8 * w.bit) }).cycle) ∧
    (¬(u.intEnable.getLsbD w.bit = true ∧ u.intFlag.getLsbD w.bit = true) →
      s.dispatch w =
        (u.setCpu { s.cpu with imePending := false, sp := s.cpu.sp - 2, pc := 0x0000 }).cycle)

/-- With the stack in work RAM or high RAM a dispatch is never cancelled (R515): IME is 0 and PC is the vector. With
SP at 0x0000 it is cancelled exactly when the high byte of PC, which becomes IE, has the winner's bit 0
(R424). -/
def Obligations.DispatchCancellation : Prop :=
  ∀ (s : State) (w : Irq), s.intEnable.getLsbD w.bit = true → s.intFlag.getLsbD w.bit = true →
    ((0xC002 ≤ s.cpu.sp.toNat ∧ s.cpu.sp.toNat ≤ 0xE000 ∨ 0xFF82 ≤ s.cpu.sp.toNat ∧ s.cpu.sp.toNat ≤ 0xFFFF) →
      (s.dispatch w).cpu =
        { s.cpu with
          imePending := false, sp := s.cpu.sp - 2, ime := false, pc := BitVec.ofNat 16 (0x40 + 8 * w.bit) }) ∧
    (s.cpu.sp = 0 →
      (s.dispatch w).intEnable = (s.cpu.pc >>> 8).setWidth 8 ∧ (s.dispatch w).cpu.sp = 0xFFFE ∧
        ((s.cpu.pc >>> 8).getLsbD w.bit = false →
          (s.dispatch w).cpu.pc = 0x0000 ∧ (s.dispatch w).cpu.ime = s.cpu.ime) ∧
        ((s.cpu.pc >>> 8).getLsbD w.bit = true →
          (s.dispatch w).cpu.pc = BitVec.ofNat 16 (0x40 + 8 * w.bit) ∧ (s.dispatch w).cpu.ime = false))

/-! ## The driver and the timer -/

/-- The other agents leave the CPU, IE, KEY1, the controllers, the stored I/O bytes and every RAM but OAM (R104,
R113), and OAM too while the DMA controller is idle; `DriverOr` sets the bit of IF of each request output,
clears the outputs, clears no bit of IF and leaves all the rest of the machine (R441). -/
def Obligations.AgentsAndDriver : Prop :=
  (∀ s : State,
      s.cycle.cpu = s.cpu ∧ s.cycle.intEnable = s.intEnable ∧ s.cycle.key1 = s.key1 ∧ s.cycle.ctrlA = s.ctrlA ∧
        s.cycle.ctrlB = s.ctrlB ∧ s.cycle.io = s.io ∧ s.cycle.vram = s.vram ∧ s.cycle.wram = s.wram ∧
        s.cycle.hram = s.hram ∧ s.cycle.xram = s.xram ∧ (s.dma.counter = 0 → s.cycle.oam = s.oam)) ∧
    ∀ s : State,
      s.endCycle.intFlag.getLsbD 0 = (s.intFlag.getLsbD 0 || s.ppu.vblankReq) ∧
        s.endCycle.intFlag.getLsbD 1 = (s.intFlag.getLsbD 1 || s.ppu.statReq) ∧
        s.endCycle.intFlag.getLsbD 2 = (s.intFlag.getLsbD 2 || s.timer.req) ∧
        s.endCycle.intFlag.getLsbD 3 = s.intFlag.getLsbD 3 ∧
        s.endCycle.intFlag.getLsbD 4 = s.intFlag.getLsbD 4 ∧
        s.endCycle =
          { s with
            intFlag := s.endCycle.intFlag
            ppu := { s.ppu with vblankReq := false, statReq := false }
            timer := { s.timer with req := false } }

/-- The timer's step and the writes of its registers (R460 to R465): the delayed reload comes first; the counter moves
by 4; TIMA ticks when the bit TAC selects falls while the timer is enabled; its overflow requests the interrupt and
arms the reload. A write of DIV replaces the counter's high byte under the same edge rule; the other writes change
their register alone. DIV reads the counter's high byte. -/
def Obligations.TimerTick : Prop :=
  (∀ t : Timer,
    let sel := [9, 3, 5, 7].getD (t.tac.toNat % 4) 0
    let ticks (new : Word) : Bool :=
      t.tac.getLsbD 2 && (decide (t.counter.toNat / 2 ^ sel % 2 = 1) && decide (new.toNat / 2 ^ sel % 2 = 0))
    let after (x : Timer) (tima : Byte) (pending : Bool) (new : Word) : Prop :=
      x.counter = new ∧ x.tma = t.tma ∧ x.tac = t.tac ∧
        x.tima.toNat = (if ticks new then (tima.toNat + 1) % 256 else tima.toNat) ∧
        x.req = (t.req || (ticks new && decide (tima = 0xFF))) ∧
        x.reloadPending = (pending || (ticks new && decide (tima = 0xFF)))
    after t.tick (if t.reloadPending then t.tma else t.tima) false (t.counter + 4) ∧
      ∀ v : Byte, after (t.writeDiv v) t.tima t.reloadPending (v ++ t.counter.setWidth 8)) ∧
    ∀ (s : State) (v : Byte),
      s.beginCycle.timer = s.timer.tick ∧ s.ioWrite 0x04 v = { s with timer := s.timer.writeDiv v } ∧
        s.ioWrite 0x05 v = { s with timer := { s.timer with tima := v } } ∧
        s.ioWrite 0x06 v = { s with timer := { s.timer with tma := v } } ∧
        s.ioWrite 0x07 v = { s with timer := { s.timer with tac := v.extractLsb' 0 3 } } ∧
        (s.ioRead 0x04).toNat = s.timer.counter.toNat / 256

/-- The rate of the timer (R461): while it is enabled and does not overflow, TIMA counts one for each 2^(bit + 1)
steps of the counter, that is every 256, 4, 16 or 64 M-cycles. -/
def Obligations.TimerRate : Prop :=
  ∀ (s : State) (k : Nat), s.timer.enable = true → s.timer.reloadPending = false →
    let period := [256, 4, 16, 64].getD (s.timer.tac.toNat % 4) 0
    let n := (s.timer.counter.toNat % (4 * period) + 4 * k) / (4 * period)
    s.timer.tima.toNat + n ≤ 255 →
      (s.cycles k).timer.tima.toNat = s.timer.tima.toNat + n ∧
        (s.cycles k).timer.counter.toNat = (s.timer.counter.toNat + 4 * k) % 65536 ∧
        (s.cycles k).timer.reloadPending = false

/-! ## The bus -/

/-- The routing of a CPU read (R80), case by case. -/
def Obligations.ReadRouting : Prop :=
  ∀ (s : State) (a : Word),
    let n := a.toNat
    (s.dma.counter > 0 ∧ n < 0xFF00 → s.memRead a = 0xFF) ∧
      (s.dma.counter = 0 →
        (∀ b, s.launch.boot = some b → n ≤ 0xFF → s.bootDisabled = false → s.memRead a = b.read n) ∧
        (n ≤ 0x7FFF → (s.launch.boot = none ∨ n > 0xFF ∨ s.bootDisabled = true) →
          s.memRead a =
            s.launch.rom.read ((if n < 0x4000 then n else s.hiBank * 0x4000 + (n - 0x4000)) % s.launch.romLen)) ∧
        (0x8000 ≤ n ∧ n ≤ 0x9FFF →
          s.memRead a = if s.ppu.mode = .transfer then 0xFF else s.vram.read (n - 0x8000)) ∧
        (0xA000 ≤ n ∧ n ≤ 0xBFFF → s.memRead a = s.cartRamRead (n - 0xA000)) ∧
        (0xC000 ≤ n ∧ n ≤ 0xDFFF → s.memRead a = s.wram.read (n - 0xC000)) ∧
        (0xE000 ≤ n ∧ n ≤ 0xFDFF → s.memRead a = s.wram.read (n - 0xE000)) ∧
        (0xFE00 ≤ n ∧ n ≤ 0xFE9F → s.memRead a = s.oam.read (n - 0xFE00)) ∧
        (0xFEA0 ≤ n ∧ n ≤ 0xFEFF → s.memRead a = 0xFF)) ∧
      (0xFF00 ≤ n ∧ n ≤ 0xFF7F → s.memRead a = s.ioRead (n - 0xFF00)) ∧
      (0xFF80 ≤ n ∧ n ≤ 0xFFFE → s.memRead a = s.hram.read (n - 0xFF80)) ∧
      (n = 0xFFFF → s.memRead a = s.intEnable)

/-- The routing of a CPU write (R81), case by case: a DMA transfer does not alter it. -/
def Obligations.WriteRouting : Prop :=
  ∀ (s : State) (a : Word) (v : Byte),
    let n := a.toNat
    (n ≤ 0x7FFF → s.memWrite a v = s.cartWrite n v) ∧
      (0x8000 ≤ n ∧ n ≤ 0x9FFF →
        s.memWrite a v = if s.ppu.mode = .transfer then s else { s with vram := s.vram.write (n - 0x8000) v }) ∧
      (0xA000 ≤ n ∧ n ≤ 0xBFFF → s.memWrite a v = s.cartRamWrite (n - 0xA000) v) ∧
      (0xC000 ≤ n ∧ n ≤ 0xDFFF → s.memWrite a v = { s with wram := s.wram.write (n - 0xC000) v }) ∧
      (0xE000 ≤ n ∧ n ≤ 0xFDFF → s.memWrite a v = { s with wram := s.wram.write (n - 0xE000) v }) ∧
      (0xFE00 ≤ n ∧ n ≤ 0xFE9F → s.memWrite a v = { s with oam := s.oam.write (n - 0xFE00) v }) ∧
      (0xFEA0 ≤ n ∧ n ≤ 0xFEFF → s.memWrite a v = s) ∧
      (0xFF00 ≤ n ∧ n ≤ 0xFF7F → s.memWrite a v = s.ioWrite (n - 0xFF00) v) ∧
      (0xFF80 ≤ n ∧ n ≤ 0xFFFE → s.memWrite a v = { s with hram := s.hram.write (n - 0xFF80) v }) ∧
      (n = 0xFFFF → s.memWrite a v = { s with intEnable := v })

/-- A read after a write of plain storage gives the value written, where the read is not blocked and the address
names a stored byte: video RAM outside pixel-transfer, work RAM and its mirror (R86: written under either address,
read under the other), OAM, high RAM and IE. -/
def Obligations.ReadAfterWrite : Prop :=
  ∀ (s : State) (a : Word) (v : Byte), s.Sound → (s.dma.counter = 0 ∨ 0xFF00 ≤ a.toNat) →
    ((0x8000 ≤ a.toNat ∧ a.toNat ≤ 0x9FFF ∧ s.ppu.mode ≠ .transfer) ∨
        (0xC000 ≤ a.toNat ∧ a.toNat ≤ 0xFE9F) ∨ 0xFF80 ≤ a.toNat →
      (s.memWrite a v).memRead a = v) ∧
    (0xC000 ≤ a.toNat ∧ a.toNat ≤ 0xDDFF → (s.memWrite a v).memRead (a + 0x2000) = v) ∧
    (0xE000 ≤ a.toNat ∧ a.toNat ≤ 0xFDFF → (s.memWrite a v).memRead (a - 0x2000) = v)

/-- What each I/O register reads after a write of it (R90, R91, R93, R96, R97, R98), and what P1 shows (R478): the
unused bits read 1, LY reads 0, KEY1 keeps its speed bit, 0xFF26 sets its unused bits, the rest read back. -/
def Obligations.IoRegisters : Prop :=
  ∀ (s : State) (v : Byte), s.Sound →
    let back (off : Nat) : Byte := (s.ioWrite off v).ioRead off
    (∀ i, i < 4 → (s.ioRead 0x00).getLsbD i =
        !((!s.joySelect.getLsbD 0 && s.buttons.getLsbD i) || (!s.joySelect.getLsbD 1 && s.buttons.getLsbD (i + 4)))) ∧
      (back 0x00).getLsbD 4 = v.getLsbD 4 ∧ (back 0x00).getLsbD 5 = v.getLsbD 5 ∧
      (back 0x00).getLsbD 6 = true ∧ (back 0x00).getLsbD 7 = true ∧
      (∀ off ∈ [0x01, 0x02, 0x04, 0x05, 0x06, 0x40, 0x42, 0x43, 0x45, 0x46, 0x47, 0x48, 0x49, 0x4A, 0x4B, 0x50],
        back off = v) ∧
      back 0x07 = v ||| 0xF8 ∧ back 0x0F = v ||| 0xE0 ∧ back 0x44 = 0 ∧
      back 0x41 = (v &&& 0x78) ||| 0x80 ||| (s.ioRead 0x41 &&& 0x07) ∧
      back 0x4D = (v &&& 0x01) ||| 0x7E ||| (s.ioRead 0x4D &&& 0x80) ∧
      (∀ off, 0x10 ≤ off → off ≤ 0x3F → back off = if off = 0x26 then v ||| 0x70 else v) ∧
      (∀ off, off = 0x03 ∨ (0x08 ≤ off ∧ off ≤ 0x0E) ∨ off = 0x4C ∨ off = 0x4E ∨ off = 0x4F ∨
          (0x51 ≤ off ∧ off ≤ 0x7F) →
        back off = (v &&& ~~~(s.launch.ioClear.read off)) ||| s.launch.ioOr.read off) ∧
      (s.ioWrite 0x50 v).bootDisabled = true

/-- OAM-DMA (R100 to R103): after the trigger write of page p, the k-th M-cycle leaves 162 - k steps, so reads below
0xFF00 are blocked for 161 M-cycles; after 162, with no write of the CPU in between, OAM holds the 160 bytes the page
showed the controller at the trigger. The pages above 0xFD are left out: they name OAM itself and the I/O page,
which change during the transfer. -/
def Obligations.DmaTransfer : Prop :=
  ∀ (s : State) (p : Byte), s.Sound →
    let s0 := s.memWrite 0xFF46 p
    s0.dma = { counter := 162, source := p } ∧
      (∀ k, k ≤ 162 → (s0.cycles k).dma.counter = 162 - k) ∧
      (∀ k a, 1 ≤ k → k ≤ 161 → a.toNat < 0xFF00 → (s0.cycles k).memRead a = 0xFF) ∧
      (p.toNat ≤ 0xFD → ∀ i, i < 160 →
        (s0.cycles 162).oam.read i = s.dmaSourceRead (BitVec.ofNat 16 (256 * p.toNat + i)))

/-! ## The cartridge and the overlay -/

/-- Bank switching (R83, R122 to R127): a write below 0x8000 goes to the controller the cartridge has and changes
nothing else, what the controller's registers hold after it, the bank of the high window, and that a sound machine
never shows bank 0 there. -/
def Obligations.CartridgeBanks : Prop :=
  (∀ (c : CtrlA) (a : Nat) (v : Byte),
      (a < 0x2000 → c.write a v = { c with ramEnable := decide (v.toNat % 16 = 10) }) ∧
        (0x2000 ≤ a ∧ a < 0x4000 →
          (c.write a v).romBank5.toNat = (if v.toNat % 32 = 0 then 1 else v.toNat % 32) ∧
            c.write a v = { c with romBank5 := (c.write a v).romBank5 }) ∧
        (0x4000 ≤ a ∧ a < 0x6000 →
          (c.write a v).bank2.toNat = v.toNat % 4 ∧ c.write a v = { c with bank2 := (c.write a v).bank2 }) ∧
        (0x6000 ≤ a → c.write a v = { c with mode := v.getLsbD 0 })) ∧
    (∀ (c : CtrlB) (a : Nat) (v : Byte),
      (a < 0x2000 → c.write a v = { c with ramEnable := decide (v.toNat % 16 = 10) }) ∧
        (0x2000 ≤ a ∧ a < 0x4000 →
          (c.write a v).romBank7.toNat = (if v.toNat % 128 = 0 then 1 else v.toNat % 128) ∧
            c.write a v = { c with romBank7 := (c.write a v).romBank7 }) ∧
        (0x4000 ≤ a ∧ a < 0x6000 → c.write a v = { c with ramRtcSelect := v }) ∧
        (0x6000 ≤ a → c.write a v = { c with rtcLatch := v })) ∧
    (∀ (s : State) (a : Word) (v : Byte), a.toNat < 0x8000 →
      (s.launch.mbcKind = .romOnly → s.memWrite a v = s) ∧
        (s.launch.mbcKind = .ctrlA → s.memWrite a v = { s with ctrlA := s.ctrlA.write a.toNat v }) ∧
        (s.launch.mbcKind = .ctrlB → s.memWrite a v = { s with ctrlB := s.ctrlB.write a.toNat v })) ∧
    ∀ s : State, s.Sound →
      s.hiBank ≠ 0 ∧
        (s.launch.mbcKind = .romOnly → s.hiBank = 1) ∧
        (s.launch.mbcKind = .ctrlA →
          s.hiBank = (if s.ctrlA.mode then 0 else 32 * s.ctrlA.bank2.toNat) + s.ctrlA.romBank5.toNat ∧
            s.hiBank % 32 ≠ 0) ∧
        (s.launch.mbcKind = .ctrlB → s.hiBank = s.ctrlB.romBank7.toNat)

/-- The external RAM window (R85, R124, R126): a protected, absent or unselected target reads 0xFF and drops writes;
an enabled byte of external RAM reads back what was written, at the index modulo XRAM_LEN. -/
def Obligations.ExternalRam : Prop :=
  ∀ (s : State) (off : Nat) (v : Byte), s.Sound →
    (s.launch.mbcKind = .ctrlA ∧ s.ctrlA.ramEnable = false ∨ s.launch.mbcKind = .ctrlB ∧ s.ctrlB.ramEnable = false ∨
        s.launch.mbcKind ≠ .ctrlB ∧ s.launch.xramLen = 0 ∨
        s.launch.mbcKind = .ctrlB ∧ s.ctrlB.ramRtcSelect.toNat ≤ 7 ∧ s.launch.xramLen = 0 →
      s.cartRamRead off = 0xFF ∧ s.cartRamWrite off v = s) ∧
    (∀ bank, s.launch.xramLen ≠ 0 →
      (s.launch.mbcKind = .romOnly ∧ bank = 0 ∨
        s.launch.mbcKind = .ctrlA ∧ s.ctrlA.ramEnable = true ∧
          bank = (if s.ctrlA.mode then s.ctrlA.bank2.toNat else 0) ∨
        s.launch.mbcKind = .ctrlB ∧ s.ctrlB.ramEnable = true ∧ s.ctrlB.ramRtcSelect.toNat ≤ 7 ∧
          bank = s.ctrlB.ramRtcSelect.toNat) →
      s.cartRamRead off = s.xram.read ((bank * 0x2000 + off) % s.launch.xramLen) ∧
        (s.cartRamWrite off v).cartRamRead off = v) ∧
    (s.launch.mbcKind = .ctrlB → s.ctrlB.ramEnable = true → 8 ≤ s.ctrlB.ramRtcSelect.toNat →
      (s.ctrlB.ramRtcSelect.toNat ≤ 12 → (s.cartRamWrite off v).cartRamRead off = v) ∧
      (12 < s.ctrlB.ramRtcSelect.toNat → s.cartRamRead off = 0xFF ∧ s.cartRamWrite off v = s))

/-! ## The picture unit -/

/-- The mode state machine (R468): from the first sub-tick of a frame, with no write of the CPU in between, the
picture unit stands after k M-cycles where R468 says it stands, k modulo 17556, for every k; `frame_ready` is 1
exactly at the ends of frames (R475). -/
def Obligations.PpuPhase : Prop :=
  ∀ s : State, s.ppu.AtPhase 0 →
    ∀ k, (s.cycles k).ppu.AtPhase (k % 17556) ∧
      (0 < k → ((s.cycles k).ppu.frameReady = true ↔ k % 17556 = 0))

/-- The picture unit's requests (R466, R467). For one sub-tick: STAT on entry to HBlank, VBlank and OAM-scan and on a
new LY equal to LYC, each under its own enable bit; VBlank on entry to VBlank, when LY becomes 144; nothing else sets
an output, and a sub-tick clears none. A write of LY, LYC or STAT raises nothing by itself, and STAT's coincidence bit
is LY = LYC. -/
def Obligations.PpuRequests : Prop :=
  (∀ (vram oam : Memory) (sh : Shades) (p : Ppu),
    let q := p.subTick vram oam sh
    let enters (m : PpuMode) : Bool := decide (p.mode ≠ m) && decide (q.mode = m)
    let newLine : Bool := (decide (p.mode = .hblank) || decide (p.mode = .vblank)) && decide (q.modeTicks = 0)
    q.vblankReq = (p.vblankReq || enters .vblank) ∧ (enters .vblank = true → q.ly = 144) ∧
      q.statReq =
        (p.statReq || (enters .hblank && p.statEnable.getLsbD 0) || (enters .vblank && p.statEnable.getLsbD 1) ||
          (enters .oamScan && p.statEnable.getLsbD 2) ||
          (newLine && decide (q.ly = p.lyc) && p.statEnable.getLsbD 3)) ∧
      q.statEnable = p.statEnable ∧ q.lyc = p.lyc) ∧
    (∀ (s : State) (v : Byte), ∀ off ∈ [0x41, 0x44, 0x45],
      (s.ioWrite off v).ppu.statReq = s.ppu.statReq ∧ (s.ioWrite off v).ppu.vblankReq = s.ppu.vblankReq) ∧
    ∀ s : State, (s.ioRead 0x41).getLsbD 2 = decide (s.ppu.ly = s.ppu.lyc)

/-- The pixels under the sprites (R471, R472): two bits of a tile row, the leftmost pixel in bit 7 and the second byte
the high bit; a tile by unsigned index from 0x8000 or by signed index from 0x9000; the background's map entry at the
scrolled place, the window's at the window's own column and line, each map by its select bit; where the window
covers the background. -/
def Obligations.BackgroundPixels : Prop :=
  ∀ (vram : Memory) (p : Ppu),
    let pixelOf (base row col : Nat) (c : BitVec 2) : Prop :=
      c.getLsbD 0 = (vram.read (base + 2 * row)).getLsbD (7 - col) ∧
        c.getLsbD 1 = (vram.read (base + 2 * row + 1)).getLsbD (7 - col)
    let tileAt (t : Byte) : Nat :=
      if p.lcdc.getLsbD 4 = false ∧ t.toNat < 128 then 0x1000 + 16 * t.toNat else 16 * t.toNat
    let mapEntry (select : Bool) (row col : Nat) : Byte :=
      vram.read ((if select then 0x1C00 else 0x1800) + 32 * (row / 8) + col / 8)
    (∀ t px py, px < 8 → py < 8 → pixelOf (tileAt t) py px (p.tilePixel vram t px py)) ∧
      (p.lcdc.getLsbD 0 = false → ∀ x y, p.bgColour vram x y = 0) ∧
      (p.lcdc.getLsbD 0 = true →
        ∀ x y,
          let col := (x + p.scx.toNat) % 256
          let row := (y + p.scy.toNat) % 256
          pixelOf (tileAt (mapEntry (p.lcdc.getLsbD 3) row col)) (row % 8) (col % 8) (p.bgColour vram x y)) ∧
      (∀ x, p.wx.toNat ≤ x + 7 →
        let col := x + 7 - p.wx.toNat
        let row := p.windowLine.toNat
        pixelOf (tileAt (mapEntry (p.lcdc.getLsbD 6) row col)) (row % 8) (col % 8) (p.windowColour vram x)) ∧
      ∀ x y,
        p.backColour vram x y =
          if p.lcdc.getLsbD 5 = true ∧ p.lcdc.getLsbD 0 = true ∧ p.wy.toNat ≤ y ∧ p.wx.toNat ≤ 166 ∧ p.wx.toNat ≤ x + 7
          then p.windowColour vram x
          else p.bgColour vram x y

/-- Rendering (R470, R472, R474): the sub-tick that enters pixel-transfer on line LY < 144 writes the 160 words of
that row, each the compositor's pixel, and no other word; the window-line counter moves exactly on a line where
the window is drawn. A sub-tick that enters no pixel-transfer writes no word and keeps the counter, but for the end of
the frame, VBlank line 153 to line 0, which sets it to 0 and sets frame_ready (R39, R468, R475). -/
def Obligations.RenderLine : Prop :=
  ∀ (vram oam : Memory) (sh : Shades) (p : Ppu),
    let q := p.subTick vram oam sh
    let y := p.ly.toNat
    let now : Prop := p.mode = .oamScan ∧ p.modeTicks = 79 ∧ y < 144
    let frameEnd : Prop := p.mode = .vblank ∧ p.modeTicks = 455 ∧ y = 153
    (now →
      q.mode = .transfer ∧
        (∀ x, x < 160 → q.framebuffer.read (160 * y + x) = p.pixel vram sh (p.selectedSprites oam y) y x) ∧
        (∀ i, i < 160 * y ∨ 160 * (y + 1) ≤ i → q.framebuffer.read i = p.framebuffer.read i) ∧
        (q.windowLine = p.windowLine + 1 ↔
          p.lcdc.getLsbD 5 = true ∧ p.lcdc.getLsbD 0 = true ∧ p.wy.toNat ≤ y ∧ p.wx.toNat ≤ 166) ∧
        (q.windowLine = p.windowLine ∨ q.windowLine = p.windowLine + 1)) ∧
    (¬now → q.framebuffer = p.framebuffer) ∧
    (frameEnd → q.windowLine = 0 ∧ q.ly = 0 ∧ q.mode = .oamScan ∧ q.frameReady = true) ∧
    (y ≤ 153 → ¬frameEnd → (¬now → q.windowLine = p.windowLine) ∧ q.frameReady = p.frameReady)

/-- Sprites and compositing (R473, R474). Selection: with LCDC[1] = 1 the first ten OAM entries, in index order, that
overlap the line; with LCDC[1] = 0 none. A sprite's pixel: its column and row, flipped by its attributes, of its
tile by unsigned index, the low bit of the index dropped for tall sprites; 0 outside its eight columns. The one
shown has a pixel there that is not 0, no other selected sprite with such a pixel has a smaller X, and none of a
lower OAM index has the same X; its colour shows unless its priority bit is set over a background pixel that is not
0. A colour is the shade the palette gives it. -/
def Obligations.Compositing : Prop :=
  ∀ (vram oam : Memory) (sh : Shades) (p : Ppu) (x y : Nat),
    let sel := p.selectedSprites oam y
    let back := p.backColour vram x y
    let height := if p.lcdc.getLsbD 2 then 16 else 8
    let overlaps (i : Nat) : Bool := decide ((spriteAt oam i).y ≤ y + 16) && decide (y + 16 < (spriteAt oam i).y + height)
    let colour (palette : Byte) (c : BitVec 2) : Argb :=
      [sh.shade0, sh.shade1, sh.shade2, sh.shade3].getD (palette.toNat / 4 ^ c.toNat % 4) 0
    (∀ i, spriteAt oam i =
        { y := (oam.read (4 * i)).toNat, x := (oam.read (4 * i + 1)).toNat, tile := oam.read (4 * i + 2),
          attr := oam.read (4 * i + 3) }) ∧
      (p.lcdc.getLsbD 1 = false → sel = []) ∧
      (p.lcdc.getLsbD 1 = true →
        ∃ chosen : List Nat, sel = chosen.map (spriteAt oam) ∧ chosen.length ≤ 10 ∧ chosen.Pairwise (· < ·) ∧
          ∀ i, i ∈ chosen ↔ i < 40 ∧ overlaps i = true ∧ ((List.range i).filter overlaps).length < 10) ∧
      (∀ sp : Sprite,
        (¬(sp.x ≤ x + 8 ∧ x < sp.x) → p.spritePixel vram sp x y = 0) ∧
          (sp.x ≤ x + 8 ∧ x < sp.x → sp.y ≤ y + 16 ∧ y + 16 < sp.y + height →
            let row := if sp.attr.getLsbD 6 then sp.y + height - 1 - (y + 16) else y + 16 - sp.y
            let bit := if sp.attr.getLsbD 5 then x + 8 - sp.x else sp.x - 1 - x
            let base := 16 * (if p.lcdc.getLsbD 2 then sp.tile.toNat / 2 * 2 else sp.tile.toNat) + 2 * row
            (p.spritePixel vram sp x y).getLsbD 0 = (vram.read base).getLsbD bit ∧
              (p.spritePixel vram sp x y).getLsbD 1 = (vram.read (base + 1)).getLsbD bit)) ∧
      (∀ sp, p.shownSprite vram sel x y = some sp →
        sp ∈ sel ∧ p.spritePixel vram sp x y ≠ 0 ∧
          (∀ o ∈ sel, p.spritePixel vram o x y ≠ 0 → sp.x ≤ o.x) ∧
          (∃ before after, sel = before ++ sp :: after ∧
            ∀ o ∈ before, p.spritePixel vram o x y ≠ 0 → o.x ≠ sp.x) ∧
          p.pixel vram sh sel y x =
            (if sp.attr.getLsbD 7 = true ∧ back ≠ 0 then colour p.bgp back
            else colour (if sp.attr.getLsbD 4 then p.obp1 else p.obp0) (p.spritePixel vram sp x y))) ∧
      (p.shownSprite vram sel x y = none →
        (∀ o ∈ sel, p.spritePixel vram o x y = 0) ∧ p.pixel vram sh sel y x = colour p.bgp back)

/-! ## Reset and the whole machine -/

/-- The state after reset (R500, R501), for every launch and every launch value of the registers and memories: PC and
the overlay latch by BOOT; no interrupt can be taken; the machine is not waiting and not faulted; the timer, the
picture unit, the DMA controller and the controllers stand as R50 says. -/
def Obligations.ResetState : Prop :=
  ∀ (l : Launch) (p : PowerOn),
    let s := State.resetWith l p
    (l.boot = none →
        s.cpu.pc = 0x0100 ∧ s.bootDisabled = true ∧ s.memRead 0x0100 = l.rom.read (0x0100 % l.romLen)) ∧
      (∀ b, l.boot = some b →
        s.cpu.pc = 0x0000 ∧ s.bootDisabled = false ∧ s.memRead 0x0000 = b.read 0 ∧ s.ppu.lcdc = 0 ∧ s.io = []) ∧
      s.cpu.ime = false ∧ s.cpu.imePending = false ∧ s.cpu.halted = false ∧ s.cpu.stopped = false ∧
      s.cpu.haltBug = false ∧ s.cpu.faulted = false ∧ s.cpu.f &&& 0x0F = 0 ∧
      s.intEnable = 0 ∧ s.intFlag = 0 ∧ s.ppu.vblankReq = false ∧ s.ppu.statReq = false ∧
      s.timer = { counter := 0, tima := 0, tma := 0, tac := 0, reloadPending := false, req := false } ∧
      s.ppu.mode = .oamScan ∧ s.ppu.modeTicks = 0 ∧ s.ppu.ly = 0 ∧ s.ppu.windowLine = 0 ∧
      s.dma = { counter := 0, source := 0 } ∧ s.joySelect = 0b11 ∧
      s.key1 = { doubleSpeed := false, speedArmed := false } ∧
      s.ctrlA = { romBank5 := 1, bank2 := 0, mode := false, ramEnable := false } ∧
      s.ctrlB.romBank7 = 1 ∧ s.ctrlB.ramRtcSelect = 0 ∧ s.ctrlB.ramEnable = false ∧ s.ctrlB.rtc = []

/-- The state after reset is that construction at the launch and the launch values of log entry 1, which are the model's
choice, and it meets the invariant. -/
def Obligations.ResetInvariant : Prop :=
  State.reset = State.resetWith Launch.default PowerOn.default ∧ State.reset.Inv

/-- Every step keeps the invariant: the low nibble of F, at most one wait, the picture unit's phase and line, the
length of a DMA transfer, bank 0 out of the high window, every memory in its canonical form and size, and no
request output left. -/
def Obligations.StepKeepsInvariant : Prop := ∀ s t, s.Inv → step s = .next t → t.Inv

/-- No step changes a launch parameter (R7: the ROM among them, R518), and no step maps the boot overlay again
(R82). -/
def Obligations.LaunchNeverChanges : Prop :=
  ∀ s t, step s = .next t → t.launch = s.launch ∧ (s.bootDisabled = true → t.bootDisabled = true)

/-- The machine faults on an illegal opcode and on nothing else (R400, R401): a step answers a fault exactly when the
latch is set, it is never refused, and a step that sets the latch has fetched one of the eleven bytes. -/
def Obligations.FaultOnlyByIllegalOpcode : Prop :=
  ∀ s : State,
    (s.cpu.faulted = true → step s = .fault (.illegalOpcode s.cpu.faultOp s.cpu.faultPc)) ∧
      (s.cpu.faulted = false →
        ∃ t, step s = .next t ∧
          (t.cpu.faulted = true →
            s.fetches = true ∧ s.atFetch.memRead s.cpu.pc ∈ illegalBytes ∧
              t.cpu.faultOp = s.atFetch.memRead s.cpu.pc ∧ t.cpu.faultPc = s.cpu.pc))

/-- IME goes from 0 to 1 only at the end of an instruction that an armed EI preceded, or by RETI (R25, R26, R364);
it is armed only by EI. -/
def Obligations.ImeSetOnlyByEiOrReti : Prop :=
  ∀ s t, step s = .next t →
    (s.cpu.ime = false → t.cpu.ime = true →
      s.cpu.imePending = true ∨ decode s.atFetch.fetchInstr.1 = .ok (.reti, [])) ∧
    (t.cpu.imePending = true →
      s.cpu.imePending = true ∨ decode s.atFetch.fetchInstr.1 = .ok (.ei, []))
end

