-- ==== Sys2Proof/Laws/Memory.lean ====
section
/-! SUPPORT. Reading after writing, the canonical form, and its uniqueness, for the byte arrays and the
framebuffer. -/

namespace Sys2Proof

/-! ## Byte arrays -/

/-- A write leaves every other index, of any list. -/
theorem Memory.read_write_ne (m : Memory) {i j : Nat} (v : Byte) (h : j ≠ i) : (m.write i v).read j = m.read j := by
  induction m with
  | nil => by_cases hv : v = 0#8 <;> simp [Memory.write, Memory.read, hv, h.symm]
  | cons c rest ih =>
    obtain ⟨k, w⟩ := c
    by_cases hk : k < i
    · simp [Memory.write, Memory.read, hk, ih]
    · by_cases he : k = i
      · subst he
        by_cases hv : v = 0#8 <;> simp [Memory.write, Memory.read, hv, h.symm]
      · by_cases hv : v = 0#8 <;> simp [Memory.write, Memory.read, hk, he, hv, h.symm]

theorem Memory.wfFrom_mono {size lo lo' : Nat} {m : Memory} (h : lo' ≤ lo) (hw : m.wfFrom size lo = true) :
    m.wfFrom size lo' = true := by
  cases m with
  | nil => rfl
  | cons c rest => simp_all [Memory.wfFrom]; omega

/-- An index below the canonical form's start is not listed. -/
theorem Memory.read_of_lt {size lo i : Nat} {m : Memory} (hw : m.wfFrom size lo = true) (h : i < lo) :
    m.read i = 0 := by
  induction m generalizing lo with
  | nil => rfl
  | cons c rest ih =>
    obtain ⟨k, w⟩ := c
    simp only [Memory.wfFrom, Bool.and_eq_true, decide_eq_true_eq] at hw
    have : k ≠ i := by omega
    simp only [Memory.read, this, if_false]
    exact ih hw.2 (by omega)

theorem Memory.read_of_size_le {size lo i : Nat} {m : Memory} (hw : m.wfFrom size lo = true) (h : size ≤ i) :
    m.read i = 0 := by
  induction m generalizing lo with
  | nil => rfl
  | cons c rest ih =>
    obtain ⟨k, w⟩ := c
    simp only [Memory.wfFrom, Bool.and_eq_true, decide_eq_true_eq] at hw
    have : k ≠ i := by omega
    simp only [Memory.read, this, if_false]
    exact ih hw.2

theorem Memory.read_write_same_from {size lo : Nat} {m : Memory} (i : Nat) (v : Byte)
    (hw : m.wfFrom size lo = true) : (m.write i v).read i = v := by
  induction m generalizing lo with
  | nil => by_cases hv : v = 0#8 <;> simp [Memory.write, Memory.read, hv]
  | cons c rest ih =>
    obtain ⟨k, w⟩ := c
    simp only [Memory.wfFrom, Bool.and_eq_true, decide_eq_true_eq] at hw
    obtain ⟨⟨⟨h1, h2⟩, h3⟩, h4⟩ := hw
    by_cases hk : k < i
    · simp [Memory.write, Memory.read, hk, Nat.ne_of_lt hk, ih h4]
    · by_cases hv : v = 0#8
      · by_cases he : k = i
        · subst he
          simp [Memory.write, hv, Memory.read_of_lt h4 (Nat.lt_succ_self k)]
        · simp [Memory.write, Memory.read, hv, hk, he, Memory.read_of_lt h4 (show i < k + 1 by omega)]
      · simp [Memory.write, Memory.read, hk, hv]

/-- A read after a write to the same index gives the value written, on the canonical form. -/
theorem Memory.read_write_same {size : Nat} {m : Memory} (i : Nat) (v : Byte) (hw : m.wf size = true) :
    (m.write i v).read i = v := Memory.read_write_same_from i v hw

theorem Memory.wfFrom_write {size lo : Nat} {m : Memory} {i : Nat} (v : Byte) (hw : m.wfFrom size lo = true)
    (hl : lo ≤ i) (hi : i < size) : (m.write i v).wfFrom size lo = true := by
  induction m generalizing lo with
  | nil => by_cases hv : v = 0#8 <;> simp [Memory.write, Memory.wfFrom, hv, hl, hi]
  | cons c rest ih =>
    obtain ⟨k, w⟩ := c
    simp only [Memory.wfFrom, Bool.and_eq_true, decide_eq_true_eq] at hw
    obtain ⟨⟨⟨h1, h2⟩, h3⟩, h4⟩ := hw
    by_cases hk : k < i
    · have := ih h4 hk
      simp [Memory.write, Memory.wfFrom, hk, this, h1, h2]
      simpa using h3
    · by_cases hv : v = 0#8
      · by_cases he : k = i
        · subst he
          simpa [Memory.write, hv] using Memory.wfFrom_mono (show lo ≤ k + 1 by omega) h4
        · simp [Memory.write, Memory.wfFrom, hv, hk, he, h1, h2, h4]
          simpa using h3
      · by_cases he : k = i
        · subst he
          simp [Memory.write, Memory.wfFrom, hv, h1, h2, h4]
        · have : i < k := by omega
          simp [Memory.write, Memory.wfFrom, hv, hk, he, hl, hi, h2, h4]
          exact ⟨this, by simpa using h3⟩

/-- A write keeps the canonical form. -/
theorem Memory.wf_write {size : Nat} {m : Memory} {i : Nat} (v : Byte) (hw : m.wf size = true) (hi : i < size) :
    (m.write i v).wf size = true := Memory.wfFrom_write v hw (Nat.zero_le i) hi

/-- Two canonical arrays that read the same are the same list. -/
theorem Memory.ext_of_read {size lo : Nat} {m n : Memory} (hm : m.wfFrom size lo = true)
    (hn : n.wfFrom size lo = true) (h : ∀ i, m.read i = n.read i) : m = n := by
  induction m generalizing n lo with
  | nil =>
    cases n with
    | nil => rfl
    | cons c rest =>
      obtain ⟨k, w⟩ := c
      simp only [Memory.wfFrom, Bool.and_eq_true, decide_eq_true_eq] at hn
      have := h k
      simp [Memory.read] at this
      simp [← this] at hn
  | cons c rest ih =>
    obtain ⟨k, w⟩ := c
    simp only [Memory.wfFrom, Bool.and_eq_true, decide_eq_true_eq] at hm
    cases n with
    | nil =>
      have := h k
      simp [Memory.read] at this
      simp [this] at hm
    | cons d rest' =>
      obtain ⟨k', w'⟩ := d
      simp only [Memory.wfFrom, Bool.and_eq_true, decide_eq_true_eq] at hn
      have hk : k = k' := by
        rcases Nat.lt_trichotomy k k' with hlt | he | hgt
        · have := h k
          have hne : ¬k' = k := by omega
          simp [Memory.read, hne, Memory.read_of_lt hn.2 (show k < k' + 1 by omega)] at this
          simp [this] at hm
        · exact he
        · have := h k'
          have hne : ¬k = k' := by omega
          simp [Memory.read, hne, Memory.read_of_lt hm.2 (show k' < k + 1 by omega)] at this
          simp [← this] at hn
      subst hk
      have hw : w = w' := by simpa [Memory.read] using h k
      subst hw
      rw [ih hm.2 hn.2 ?_]
      intro i
      by_cases hi : k = i
      · subst hi
        rw [Memory.read_of_lt hm.2 (Nat.lt_succ_self k), Memory.read_of_lt hn.2 (Nat.lt_succ_self k)]
      · simpa [Memory.read, hi] using h i

/-! ## The framebuffer -/

theorem Frame.wfFrom_mono {size lo lo' : Nat} {m : Frame} (h : lo' ≤ lo) (hw : m.wfFrom size lo = true) :
    m.wfFrom size lo' = true := by
  cases m with
  | nil => rfl
  | cons c rest => simp_all [Frame.wfFrom]; omega

theorem Frame.read_append (m n : Frame) (i : Nat) :
    Frame.read (m ++ n) i = if i ∈ m.map Prod.fst then Frame.read m i else Frame.read n i := by
  induction m with
  | nil => rfl
  | cons c rest ih =>
    obtain ⟨k, w⟩ := c
    by_cases h : k = i
    · simp [Frame.read, h]
    · simp [Frame.read, h, ih, Ne.symm h]

theorem Frame.read_filter_of (p : Nat → Bool) {m : Frame} {i : Nat} (h : p i = true) :
    Frame.read (m.filter fun c => p c.1) i = Frame.read m i := by
  induction m with
  | nil => rfl
  | cons c rest ih =>
    obtain ⟨k, w⟩ := c
    by_cases hk : k = i
    · subst hk; simp [Frame.read, h]
    · by_cases hp : p k = true <;> simp [Frame.read, hp, hk, ih]

theorem Frame.read_of_not_mem {m : Frame} {i : Nat} (h : i ∉ m.map Prod.fst) : Frame.read m i = 0 := by
  induction m with
  | nil => rfl
  | cons c rest ih =>
    obtain ⟨k, w⟩ := c
    simp at h
    have : ¬k = i := fun e => h.1 e.symm
    simp only [Frame.read, this, if_false]
    exact ih (by simpa using h.2)

theorem Frame.mem_keys_entries {at_ : Nat} {row : List Argb} {i : Nat}
    (h : i ∈ (Frame.entries at_ row).map Prod.fst) : at_ ≤ i ∧ i < at_ + row.length := by
  induction row generalizing at_ with
  | nil => simp [Frame.entries] at h
  | cons v rest ih =>
    by_cases hv : v = 0#32
    · simp only [Frame.entries, hv] at h
      have := ih h
      simp; omega
    · simp [Frame.entries, hv] at h
      rcases h with h | h
      · simp; omega
      · have := ih (by simpa using h)
        simp; omega

theorem Frame.read_entries (at_ : Nat) (row : List Argb) (j : Nat) (h : j < row.length) :
    Frame.read (Frame.entries at_ row) (at_ + j) = row[j] := by
  induction row generalizing at_ j with
  | nil => simp at h
  | cons v rest ih =>
    cases j with
    | zero =>
      by_cases hv : v = 0#32
      · simp only [Frame.entries, hv, Nat.add_zero, List.getElem_cons_zero]
        apply Frame.read_of_not_mem
        intro hm
        have := Frame.mem_keys_entries hm
        omega
      · simp [Frame.entries, hv, Frame.read]
    | succ j =>
      have hj : j < rest.length := by simpa using h
      have := ih (at_ + 1) j hj
      have he : at_ + 1 + j = at_ + (j + 1) := by omega
      rw [he] at this
      by_cases hv : v = 0#32
      · simpa [Frame.entries, hv] using this
      · have hne : ¬at_ = at_ + (j + 1) := by omega
        simpa [Frame.entries, hv, Frame.read, hne] using this

theorem Frame.not_mem_filter (p : Nat → Bool) {m : Frame} {i : Nat} (h : p i = false) :
    i ∉ (m.filter fun c => p c.1).map Prod.fst := by
  intro hm
  simp only [List.mem_map, List.mem_filter] at hm
  obtain ⟨c, ⟨-, hp⟩, rfl⟩ := hm
  simp [h] at hp

/-- The words of the row that is written. -/
theorem Frame.read_writeRow_row (m : Frame) (at_ : Nat) (row : List Argb) (j : Nat) (h : j < row.length) :
    (m.writeRow at_ row).read (at_ + j) = row[j] := by
  unfold Frame.writeRow
  rw [Frame.read_append, Frame.read_append]
  have h1 : at_ + j ∉ (m.filter fun c => decide (c.1 < at_)).map Prod.fst :=
    Frame.not_mem_filter (fun k => decide (k < at_)) (by simp)
  by_cases hm : at_ + j ∈ (Frame.entries at_ row).map Prod.fst
  · simp only [List.map_append, List.mem_append, hm, or_true, if_true, h1, if_false]
    exact Frame.read_entries at_ row j h
  · have hz := Frame.read_of_not_mem hm
    rw [Frame.read_entries at_ row j h] at hz
    simp only [List.map_append, List.mem_append, hm, h1, or_self, if_false, hz]
    exact Frame.read_of_not_mem (Frame.not_mem_filter (fun k => decide (at_ + row.length ≤ k)) (by simp; omega))

/-- The words before and after the row are left. -/
theorem Frame.read_writeRow_other (m : Frame) (at_ : Nat) (row : List Argb) (i : Nat)
    (h : i < at_ ∨ at_ + row.length ≤ i) : (m.writeRow at_ row).read i = m.read i := by
  unfold Frame.writeRow
  rw [Frame.read_append, Frame.read_append]
  have he : i ∉ (Frame.entries at_ row).map Prod.fst := by
    intro hm
    have := Frame.mem_keys_entries hm
    omega
  rcases h with h | h
  · have hb := Frame.not_mem_filter (m := m) (fun k => decide (at_ + row.length ≤ k)) (i := i) (by simp; omega)
    have hr := Frame.read_filter_of (m := m) (fun k => decide (k < at_)) (i := i) (by simpa using h)
    by_cases hm : i ∈ (m.filter fun c => decide (c.1 < at_)).map Prod.fst
    · simp only [List.map_append, List.mem_append, hm, true_or, if_true]
      exact hr
    · rw [if_neg (by simp only [List.map_append, List.mem_append]; tauto)]
      rw [Frame.read_of_not_mem hb, ← hr, Frame.read_of_not_mem hm]
  · have ha := Frame.not_mem_filter (m := m) (fun k => decide (k < at_)) (i := i) (by simp; omega)
    rw [if_neg (by simp only [List.map_append, List.mem_append]; tauto)]
    exact Frame.read_filter_of (fun k => decide (at_ + row.length ≤ k)) (by simpa using h)

theorem Frame.wfFrom_append {size lo mid : Nat} {m n : Frame} (hm : m.wfFrom mid lo = true)
    (hn : n.wfFrom size mid = true) (h : lo ≤ mid) (h' : mid ≤ size) : (m ++ n).wfFrom size lo = true := by
  induction m generalizing lo with
  | nil => exact Frame.wfFrom_mono h hn
  | cons c rest ih =>
    obtain ⟨k, w⟩ := c
    simp only [Frame.wfFrom, Bool.and_eq_true, decide_eq_true_eq, List.cons_append] at hm ⊢
    obtain ⟨⟨⟨h1, h2⟩, h3⟩, h4⟩ := hm
    exact ⟨⟨⟨h1, by omega⟩, h3⟩, ih h4 (by omega)⟩

theorem Frame.wfFrom_entries (at_ : Nat) (row : List Argb) :
    (Frame.entries at_ row).wfFrom (at_ + row.length) at_ = true := by
  induction row generalizing at_ with
  | nil => rfl
  | cons v rest ih =>
    have := ih (at_ + 1)
    have he : at_ + 1 + rest.length = at_ + (rest.length + 1) := by omega
    rw [he] at this
    by_cases hv : v = 0#32
    · simpa [Frame.entries, hv] using Frame.wfFrom_mono (show at_ ≤ at_ + 1 by omega) this
    · simp [Frame.entries, hv, Frame.wfFrom, this]

theorem Frame.wfFrom_below {size lo at_ : Nat} {m : Frame} (hw : m.wfFrom size lo = true) :
    Frame.wfFrom at_ lo (m.filter fun c => decide (c.1 < at_)) = true := by
  induction m generalizing lo with
  | nil => rfl
  | cons c rest ih =>
    obtain ⟨k, w⟩ := c
    simp only [Frame.wfFrom, Bool.and_eq_true, decide_eq_true_eq] at hw
    obtain ⟨⟨⟨h1, h2⟩, h3⟩, h4⟩ := hw
    by_cases hk : k < at_
    · simp [hk, Frame.wfFrom, h1, ih h4]
      simpa using h3
    · simpa [hk] using Frame.wfFrom_mono (show lo ≤ k + 1 by omega) (ih h4)

theorem Frame.wfFrom_above {size lo from_ : Nat} {m : Frame} (hw : m.wfFrom size lo = true) :
    Frame.wfFrom size (max lo from_) (m.filter fun c => decide (from_ ≤ c.1)) = true := by
  induction m generalizing lo with
  | nil => rfl
  | cons c rest ih =>
    obtain ⟨k, w⟩ := c
    simp only [Frame.wfFrom, Bool.and_eq_true, decide_eq_true_eq] at hw
    obtain ⟨⟨⟨h1, h2⟩, h3⟩, h4⟩ := hw
    have hr := ih h4
    by_cases hk : from_ ≤ k
    · have he : max (k + 1) from_ = k + 1 := by omega
      rw [he] at hr
      simp [hk, Frame.wfFrom, h1, h2, hr]
      simpa using h3
    · simpa [hk] using Frame.wfFrom_mono (show max lo from_ ≤ max (k + 1) from_ by omega) hr

/-- Writing a row that ends inside the framebuffer keeps the canonical form. -/
theorem Frame.wf_writeRow {m : Frame} {at_ : Nat} (row : List Argb) (hw : m.wf = true)
    (h : at_ + row.length ≤ 160 * 144) : (m.writeRow at_ row).wf = true := by
  have hb : Frame.wfFrom at_ 0 (m.filter fun c => decide (c.1 < at_)) = true := Frame.wfFrom_below hw
  have he := Frame.wfFrom_entries at_ row
  have ha := Frame.wfFrom_above (from_ := at_ + row.length) hw
  rw [Nat.zero_max] at ha
  have h1 := Frame.wfFrom_append hb he (Nat.zero_le _) (Nat.le_add_right _ _)
  exact Frame.wfFrom_append h1 ha (Nat.zero_le _) h

end Sys2Proof
end

