-- ==== Sys2Proof/Laws/State.lean ====
section
/-! SUPPORT. The small lemmas of the state updates, so that no proof unfolds one.

Every update of CPU registers is a `setCpu`: that is the normal form of the simp set. `setCpu` leaves every
other field, a second `setCpu` wins, and `setReg8`, `setPair`, `setStackPair` are stated by what they read back. -/

namespace Sys2Proof.Machine.State

variable (s : State) (c d : Cpu)

/-! ## `setCpu` -/

@[simp] theorem setCpu_cpu : (s.setCpu c).cpu = c := rfl
@[simp] theorem setCpu_setCpu : (s.setCpu c).setCpu d = s.setCpu d := rfl
@[simp] theorem setCpu_self : s.setCpu s.cpu = s := rfl
@[simp] theorem setCpu_launch : (s.setCpu c).launch = s.launch := rfl
@[simp] theorem setCpu_intEnable : (s.setCpu c).intEnable = s.intEnable := rfl
@[simp] theorem setCpu_intFlag : (s.setCpu c).intFlag = s.intFlag := rfl
@[simp] theorem setCpu_key1 : (s.setCpu c).key1 = s.key1 := rfl
@[simp] theorem setCpu_timer : (s.setCpu c).timer = s.timer := rfl
@[simp] theorem setCpu_ppu : (s.setCpu c).ppu = s.ppu := rfl
@[simp] theorem setCpu_dma : (s.setCpu c).dma = s.dma := rfl
@[simp] theorem setCpu_bootDisabled : (s.setCpu c).bootDisabled = s.bootDisabled := rfl
@[simp] theorem setCpu_joySelect : (s.setCpu c).joySelect = s.joySelect := rfl
@[simp] theorem setCpu_buttons : (s.setCpu c).buttons = s.buttons := rfl
@[simp] theorem setCpu_buttonQueue : (s.setCpu c).buttonQueue = s.buttonQueue := rfl
@[simp] theorem setCpu_ctrlA : (s.setCpu c).ctrlA = s.ctrlA := rfl
@[simp] theorem setCpu_ctrlB : (s.setCpu c).ctrlB = s.ctrlB := rfl
@[simp] theorem setCpu_io : (s.setCpu c).io = s.io := rfl
@[simp] theorem setCpu_vram : (s.setCpu c).vram = s.vram := rfl
@[simp] theorem setCpu_wram : (s.setCpu c).wram = s.wram := rfl
@[simp] theorem setCpu_oam : (s.setCpu c).oam = s.oam := rfl
@[simp] theorem setCpu_hram : (s.setCpu c).hram = s.hram := rfl
@[simp] theorem setCpu_xram : (s.setCpu c).xram = s.xram := rfl

/-- Two states with the same CPU and the same rest are one. -/
theorem eq_setCpu_of {s t : State} (h : t.setCpu s.cpu = s) : t = s.setCpu t.cpu := by rw [← h]; rfl

/-! ## The updates of one register -/

@[simp] theorem setF_eq (v : Byte): s.setF v = s.setCpu { s.cpu with f := v &&& 0xF0 } := rfl
@[simp] theorem setSp_eq (v : Word): s.setSp v = s.setCpu { s.cpu with sp := v } := rfl
@[simp] theorem setPc_eq (v : Word): s.setPc v = s.setCpu { s.cpu with pc := v } := rfl
@[simp] theorem setIme_eq (v : Bool): s.setIme v = s.setCpu { s.cpu with ime := v } := rfl
@[simp] theorem setImePending_eq (v : Bool): s.setImePending v = s.setCpu { s.cpu with imePending := v } := rfl
@[simp] theorem setBc_eq (v : Word): s.setBc v = s.setCpu { s.cpu with b := hiByte v, c := loByte v } := rfl
@[simp] theorem setDe_eq (v : Word): s.setDe v = s.setCpu { s.cpu with d := hiByte v, e := loByte v } := rfl
@[simp] theorem setHl_eq (v : Word): s.setHl v = s.setCpu { s.cpu with h := hiByte v, l := loByte v } := rfl
@[simp] theorem setAf_eq (v : Word): s.setAf v = s.setCpu { s.cpu with a := hiByte v, f := loByte v &&& 0xF0 } := rfl
@[simp] theorem wake_eq : s.wake = s.setCpu { s.cpu with halted := false, stopped := false } := rfl
@[simp] theorem setFlags_eq (z n h c : Bool) :
    s.setFlags z n h c = s.setCpu { s.cpu with f := flagByte z n h c &&& 0xF0 } := rfl
@[simp] theorem raiseIllegal_eq (op : Byte) :
    s.raiseIllegal op = s.setCpu { s.cpu with faulted := true, faultOp := op, faultPc := s.cpu.opcodeAddr } := rfl

/-! ## A register by its index -/

theorem setReg8_eq (r : Reg8) (v : Byte) : s.setReg8 r v = s.setCpu (s.setReg8 r v).cpu := by cases r <;> rfl
theorem setPair_eq (p : Pair) (v : Word) : s.setPair p v = s.setCpu (s.setPair p v).cpu := by cases p <;> rfl
theorem setStackPair_eq (p : StackPair) (v : Word) : s.setStackPair p v = s.setCpu (s.setStackPair p v).cpu := by
  cases p <;> rfl

@[simp] theorem reg8_setReg8 (r : Reg8) (v : Byte) : (s.setReg8 r v).reg8 r = v := by cases r <;> rfl

theorem reg8_setReg8_of_ne {r r' : Reg8} (v : Byte) (h : r' ≠ r) : (s.setReg8 r v).reg8 r' = s.reg8 r' := by
  cases r <;> cases r' <;> first | rfl | exact absurd rfl h

@[simp] theorem pair_setPair (p : Pair) (v : Word) : (s.setPair p v).pair p = v := by
  cases p <;> simp [setPair, pair, bc, de, hl]

theorem pair_setPair_of_ne {p p' : Pair} (v : Word) (h : p' ≠ p) : (s.setPair p v).pair p' = s.pair p' := by
  cases p <;> cases p' <;> first | rfl | exact absurd rfl h

theorem setReg8_sp (r : Reg8) (v : Byte) : (s.setReg8 r v).cpu.sp = s.cpu.sp := by cases r <;> rfl
theorem setReg8_f (r : Reg8) (v : Byte) : (s.setReg8 r v).cpu.f = s.cpu.f := by cases r <;> rfl
theorem setPair_f (p : Pair) (v : Word) : (s.setPair p v).cpu.f = s.cpu.f := by cases p <;> rfl

end Sys2Proof.Machine.State
end

