-- ==== Sys2Proof/Laws/Bus.lean ====
section
/-! SUPPORT. What a read and a write of the bus can do: neither looks at the CPU's registers; a write of a
location of plain storage changes that location alone. -/

namespace Sys2Proof.Machine.State

variable (s : State) (c : Cpu)

/-! ## The bus does not look at the CPU -/

@[simp] theorem cartRead_setCpu (a : Nat) : (s.setCpu c).cartRead a = s.cartRead a := rfl
@[simp] theorem cartRamTarget_setCpu (o : Nat) : (s.setCpu c).cartRamTarget o = s.cartRamTarget o := rfl
@[simp] theorem cartRamRead_setCpu (o : Nat) : (s.setCpu c).cartRamRead o = s.cartRamRead o := rfl
@[simp] theorem ioRead_setCpu (o : Nat) : (s.setCpu c).ioRead o = s.ioRead o := rfl
@[simp] theorem romRead_setCpu (a : Nat) : (s.setCpu c).romRead a = s.romRead a := rfl
@[simp] theorem routeRead_setCpu (b : Bool) (a : Word) : (s.setCpu c).routeRead b a = s.routeRead b a := rfl
@[simp] theorem vramBlocked_setCpu : (s.setCpu c).vramBlocked = s.vramBlocked := rfl
@[simp] theorem dmaBlocks_setCpu (a : Word) : (s.setCpu c).dmaBlocks a = s.dmaBlocks a := rfl
@[simp] theorem memRead_setCpu (a : Word) : (s.setCpu c).memRead a = s.memRead a := rfl
@[simp] theorem dmaSourceRead_setCpu (a : Word) : (s.setCpu c).dmaSourceRead a = s.dmaSourceRead a := rfl

theorem cartWrite_setCpu (a : Nat) (v : Byte) : (s.setCpu c).cartWrite a v = (s.cartWrite a v).setCpu c := by
  unfold cartWrite
  rw [setCpu_launch]
  cases s.launch.mbcKind <;> rfl

theorem cartRamWrite_setCpu (o : Nat) (v : Byte) :
    (s.setCpu c).cartRamWrite o v = (s.cartRamWrite o v).setCpu c := by
  unfold cartRamWrite
  rw [cartRamTarget_setCpu]
  cases s.cartRamTarget o <;> rfl

theorem ioWrite_setCpu (o : Nat) (v : Byte) : (s.setCpu c).ioWrite o v = (s.ioWrite o v).setCpu c := by
  unfold ioWrite
  cases ioRegAt o <;> rfl

@[simp] theorem memWrite_setCpu (a : Word) (v : Byte) : (s.setCpu c).memWrite a v = (s.memWrite a v).setCpu c := by
  unfold memWrite
  cases placeOf a <;> simp only [cartWrite_setCpu, cartRamWrite_setCpu, ioWrite_setCpu]
  case vram => rw [vramBlocked_setCpu]; split <;> rfl
  all_goals rfl

/-! ## What no write changes -/

@[simp] theorem cartWrite_cpu (a : Nat) (v : Byte) : (s.cartWrite a v).cpu = s.cpu := by
  unfold cartWrite; split <;> rfl
@[simp] theorem cartRamWrite_cpu (o : Nat) (v : Byte) : (s.cartRamWrite o v).cpu = s.cpu := by
  unfold cartRamWrite; split <;> rfl
@[simp] theorem ioWrite_cpu (o : Nat) (v : Byte) : (s.ioWrite o v).cpu = s.cpu := by
  unfold ioWrite; split <;> rfl
@[simp] theorem memWrite_cpu (a : Word) (v : Byte) : (s.memWrite a v).cpu = s.cpu := by
  unfold memWrite; split <;> try simp
  split <;> rfl

@[simp] theorem cartWrite_launch (a : Nat) (v : Byte) : (s.cartWrite a v).launch = s.launch := by
  unfold cartWrite; split <;> rfl
@[simp] theorem cartRamWrite_launch (o : Nat) (v : Byte) : (s.cartRamWrite o v).launch = s.launch := by
  unfold cartRamWrite; split <;> rfl
@[simp] theorem ioWrite_launch (o : Nat) (v : Byte) : (s.ioWrite o v).launch = s.launch := by
  unfold ioWrite; split <;> rfl
@[simp] theorem memWrite_launch (a : Word) (v : Byte) : (s.memWrite a v).launch = s.launch := by
  unfold memWrite; split <;> try simp
  split <;> rfl

/-- The latch of the boot overlay is never cleared by a write (R82). -/
theorem memWrite_bootDisabled (a : Word) (v : Byte) (h : s.bootDisabled = true) :
    (s.memWrite a v).bootDisabled = true := by
  unfold memWrite
  split <;> try exact h
  · unfold cartWrite; split <;> exact h
  · split <;> exact h
  · unfold cartRamWrite; split <;> exact h
  · unfold ioWrite; split <;> first | exact h | rfl

/-! ## A write, place by place (R81) -/

variable {s}

theorem memWrite_cart {a : Word} {i : Nat} (v : Byte) (h : placeOf a = .cart i) : s.memWrite a v = s.cartWrite i v := by
  simp only [memWrite, h]
theorem memWrite_cartRam {a : Word} {i : Nat} (v : Byte) (h : placeOf a = .cartRam i) :
    s.memWrite a v = s.cartRamWrite i v := by simp only [memWrite, h]
theorem memWrite_io {a : Word} {i : Nat} (v : Byte) (h : placeOf a = .io i) : s.memWrite a v = s.ioWrite i v := by
  simp only [memWrite, h]
theorem memWrite_hole {a : Word} (v : Byte) (h : placeOf a = .hole) : s.memWrite a v = s := by
  simp only [memWrite, h]
theorem memWrite_vram {a : Word} {i : Nat} (v : Byte) (h : placeOf a = .vram i) :
    s.memWrite a v = if s.vramBlocked then s else { s with vram := s.vram.write i v } := by simp only [memWrite, h]
theorem memWrite_wram {a : Word} {i : Nat} (v : Byte) (h : placeOf a = .wram i) :
    s.memWrite a v = { s with wram := s.wram.write i v } := by simp only [memWrite, h]
theorem memWrite_oam {a : Word} {i : Nat} (v : Byte) (h : placeOf a = .oam i) :
    s.memWrite a v = { s with oam := s.oam.write i v } := by simp only [memWrite, h]
theorem memWrite_hram {a : Word} {i : Nat} (v : Byte) (h : placeOf a = .hram i) :
    s.memWrite a v = { s with hram := s.hram.write i v } := by simp only [memWrite, h]
theorem memWrite_intEnable {a : Word} (v : Byte) (h : placeOf a = .intEnable) :
    s.memWrite a v = { s with intEnable := v } := by simp only [memWrite, h]

/-! ## A write of plain storage changes one location -/

/-- The places of plain storage. -/
theorem placeOf_of_plain {a : Word} (h : plainStorage a = true) :
    (∀ i, placeOf a ≠ .cart i) ∧ ∀ o, placeOf a ≠ .io o := by
  simp only [plainStorage, Bool.and_eq_true, decide_eq_true_eq, Bool.not_eq_true', Bool.and_eq_false_iff,
    decide_eq_false_iff_not] at h
  constructor <;> intro i hp <;> unfold placeOf at hp <;> simp only at hp <;>
    split at hp <;> try omega
  all_goals (repeat' split at hp) <;> first | omega | cases hp

theorem placeOf_of_not_plain {a : Word} (h : plainStorage a = false) :
    (∃ i, placeOf a = .cart i) ∨ ∃ o, placeOf a = .io o := by
  simp only [plainStorage, Bool.and_eq_false_iff, decide_eq_false_iff_not, Bool.not_eq_false', Bool.and_eq_true,
    decide_eq_true_eq] at h
  unfold placeOf
  simp only
  by_cases h1 : a.toNat ≤ 0x7FFF
  · left; simp [h1]
  · right
    have : 0xFF00 ≤ a.toNat ∧ a.toNat ≤ 0xFF7F := by omega
    simp only [h1, if_false, show ¬a.toNat ≤ 0x9FFF by omega, show ¬a.toNat ≤ 0xBFFF by omega,
      show ¬a.toNat ≤ 0xDFFF by omega, show ¬a.toNat ≤ 0xFDFF by omega, show ¬a.toNat ≤ 0xFE9F by omega,
      show ¬a.toNat ≤ 0xFEFF by omega, this.2, if_true]
    exact ⟨_, rfl⟩

theorem memRead_memWrite_of_other {a b : Word} (v : Byte) (hp : plainStorage a = true)
    (h : ¬s.sameLocation b a) : (s.memWrite a v).memRead b = s.memRead b := by
  obtain ⟨hc, hio⟩ := placeOf_of_plain hp
  rw [sameLocation, not_or] at h
  obtain ⟨hne, hram⟩ := h
  cases ha : placeOf a with
  | cart i => exact absurd ha (hc i)
  | io o => exact absurd ha (hio o)
  | hole => rw [memWrite_hole v ha]
  | vram i =>
    rw [memWrite_vram v ha]
    by_cases hb : s.vramBlocked = true
    · simp [hb]
    · simp only [hb, Bool.false_eq_true, if_false]
      unfold memRead routeRead
      cases hpb : placeOf b with
      | vram j =>
        have : j ≠ i := by rintro rfl; exact hne (by rw [ha, hpb])
        simp only [Memory.read_write_ne _ _ this]; rfl
      | _ => rfl
  | wram i =>
    rw [memWrite_wram v ha]
    unfold memRead routeRead
    cases hpb : placeOf b with
    | wram j =>
      have : j ≠ i := by rintro rfl; exact hne (by rw [ha, hpb])
      simp only [Memory.read_write_ne _ _ this]; rfl
    | _ => rfl
  | oam i =>
    rw [memWrite_oam v ha]
    unfold memRead routeRead
    cases hpb : placeOf b with
    | oam j =>
      have : j ≠ i := by rintro rfl; exact hne (by rw [ha, hpb])
      simp only [Memory.read_write_ne _ _ this]; rfl
    | _ => rfl
  | hram i =>
    rw [memWrite_hram v ha]
    unfold memRead routeRead
    cases hpb : placeOf b with
    | hram j =>
      have : j ≠ i := by rintro rfl; exact hne (by rw [ha, hpb])
      simp only [Memory.read_write_ne _ _ this]; rfl
    | _ => rfl
  | intEnable =>
    rw [memWrite_intEnable v ha]
    unfold memRead routeRead
    cases hpb : placeOf b with
    | intEnable => exact absurd (by rw [ha, hpb]) hne
    | _ => rfl
  | cartRam i =>
    have key : ∀ j, placeOf b = .cartRam j → s.cartRamTarget j ≠ s.cartRamTarget i :=
      fun j hj he => hram ⟨j, i, hj, ha, he⟩
    rw [memWrite_cartRam v ha]
    unfold cartRamWrite
    cases ht : s.cartRamTarget i with
    | nothing => rfl
    | xram n =>
      unfold memRead routeRead
      cases hpb : placeOf b with
      | cartRam j =>
        have hj := key j hpb
        rw [ht] at hj
        unfold cartRamRead
        have e : State.cartRamTarget { s with xram := s.xram.write n v } j = s.cartRamTarget j := rfl
        simp only [e]
        cases hj' : s.cartRamTarget j with
        | xram m =>
          have : m ≠ n := by rintro rfl; exact hj hj'
          simp only [Memory.read_write_ne _ _ this]; rfl
        | _ => rfl
      | _ => rfl
    | rtc n =>
      unfold memRead routeRead
      cases hpb : placeOf b with
      | cartRam j =>
        have hj := key j hpb
        rw [ht] at hj
        unfold cartRamRead
        have e : State.cartRamTarget { s with ctrlB := { s.ctrlB with rtc := s.ctrlB.rtc.write n v } } j
            = s.cartRamTarget j := rfl
        simp only [e]
        cases hj' : s.cartRamTarget j with
        | rtc m =>
          have : m ≠ n := by rintro rfl; exact hj hj'
          simp only [Memory.read_write_ne _ _ this]; rfl
        | _ => rfl
      | _ => rfl

/-- A write of a cartridge or I/O register leaves every RAM. -/
theorem memWrite_register_rams {a : Word} (v : Byte) (hp : plainStorage a = false) :
    (s.memWrite a v).vram = s.vram ∧ (s.memWrite a v).wram = s.wram ∧ (s.memWrite a v).oam = s.oam ∧
      (s.memWrite a v).hram = s.hram ∧ (s.memWrite a v).xram = s.xram ∧
      (s.memWrite a v).intEnable = s.intEnable := by
  unfold memWrite
  rcases placeOf_of_not_plain hp with ⟨i, h⟩ | ⟨o, h⟩ <;> rw [h] <;> simp only
  · unfold cartWrite; split <;> simp
  · unfold ioWrite; split <;> simp [ioStore]

end Sys2Proof.Machine.State
end

