-- ==== Sys2Proof/Laws/Cycle.lean ====
section
/-! SUPPORT. What one M-cycle of the agents can do: it does not look at the CPU's registers and changes none; it
changes the button mask, the picture unit, the DMA controller with OAM, the timer and IF, and nothing else. -/

namespace Sys2Proof.Machine.State

variable (s : State) (c : Cpu)

/-! ## The agents do not look at the CPU -/

@[simp] theorem hostInput_setCpu : (s.setCpu c).hostInput = s.hostInput.setCpu c := by
  unfold hostInput; rw [setCpu_buttonQueue]; cases s.buttonQueue <;> rfl

@[simp] theorem ppuTick_setCpu : (s.setCpu c).ppuTick = s.ppuTick.setCpu c := rfl

@[simp] theorem dmaTick_setCpu : (s.setCpu c).dmaTick = s.dmaTick.setCpu c := by
  unfold dmaTick; rw [setCpu_dma]; split <;> rfl

@[simp] theorem timerTick_setCpu : (s.setCpu c).timerTick = s.timerTick.setCpu c := rfl

@[simp] theorem beginCycle_setCpu : (s.setCpu c).beginCycle = s.beginCycle.setCpu c := by simp [beginCycle]

@[simp] theorem endCycle_setCpu : (s.setCpu c).endCycle = s.endCycle.setCpu c := rfl

@[simp] theorem cycle_setCpu : (s.setCpu c).cycle = s.cycle.setCpu c := by simp [cycle]

@[simp] theorem cycles_setCpu (k : Nat) : (s.setCpu c).cycles k = (s.cycles k).setCpu c := by
  induction k with
  | zero => rfl
  | succ k ih => simp [cycles, ih]

/-! ## What the agents leave -/

theorem hostInput_cpu : s.hostInput.cpu = s.cpu := by unfold hostInput; split <;> rfl
theorem dmaTick_cpu : s.dmaTick.cpu = s.cpu := by unfold dmaTick; split <;> rfl
@[simp] theorem beginCycle_cpu : s.beginCycle.cpu = s.cpu := by
  simp only [beginCycle, timerTick, dmaTick_cpu, ppuTick, hostInput_cpu]
@[simp] theorem endCycle_cpu : s.endCycle.cpu = s.cpu := rfl
@[simp] theorem cycle_cpu : s.cycle.cpu = s.cpu := by simp [cycle]
@[simp] theorem cycles_cpu (k : Nat) : (s.cycles k).cpu = s.cpu := by
  induction k with
  | zero => rfl
  | succ k ih => simp [cycles, ih]

theorem hostInput_launch : s.hostInput.launch = s.launch := by unfold hostInput; split <;> rfl
theorem dmaTick_launch : s.dmaTick.launch = s.launch := by unfold dmaTick; split <;> rfl
@[simp] theorem beginCycle_launch : s.beginCycle.launch = s.launch := by
  simp only [beginCycle, timerTick, dmaTick_launch, ppuTick, hostInput_launch]
@[simp] theorem endCycle_launch : s.endCycle.launch = s.launch := rfl
@[simp] theorem cycle_launch : s.cycle.launch = s.launch := by simp [cycle]
@[simp] theorem cycles_launch (k : Nat) : (s.cycles k).launch = s.launch := by
  induction k with
  | zero => rfl
  | succ k ih => simp [cycles, ih]

theorem hostInput_intEnable : s.hostInput.intEnable = s.intEnable := by unfold hostInput; split <;> rfl
theorem dmaTick_intEnable : s.dmaTick.intEnable = s.intEnable := by unfold dmaTick; split <;> rfl
@[simp] theorem beginCycle_intEnable : s.beginCycle.intEnable = s.intEnable := by
  simp only [beginCycle, timerTick, dmaTick_intEnable, ppuTick, hostInput_intEnable]
@[simp] theorem endCycle_intEnable : s.endCycle.intEnable = s.intEnable := rfl
@[simp] theorem cycle_intEnable : s.cycle.intEnable = s.intEnable := by simp [cycle]
@[simp] theorem cycles_intEnable (k : Nat) : (s.cycles k).intEnable = s.intEnable := by
  induction k with
  | zero => rfl
  | succ k ih => simp [cycles, ih]

theorem hostInput_key1 : s.hostInput.key1 = s.key1 := by unfold hostInput; split <;> rfl
theorem dmaTick_key1 : s.dmaTick.key1 = s.key1 := by unfold dmaTick; split <;> rfl
@[simp] theorem beginCycle_key1 : s.beginCycle.key1 = s.key1 := by
  simp only [beginCycle, timerTick, dmaTick_key1, ppuTick, hostInput_key1]
@[simp] theorem endCycle_key1 : s.endCycle.key1 = s.key1 := rfl
@[simp] theorem cycle_key1 : s.cycle.key1 = s.key1 := by simp [cycle]
@[simp] theorem cycles_key1 (k : Nat) : (s.cycles k).key1 = s.key1 := by
  induction k with
  | zero => rfl
  | succ k ih => simp [cycles, ih]

theorem hostInput_bootDisabled : s.hostInput.bootDisabled = s.bootDisabled := by unfold hostInput; split <;> rfl
theorem dmaTick_bootDisabled : s.dmaTick.bootDisabled = s.bootDisabled := by unfold dmaTick; split <;> rfl
@[simp] theorem beginCycle_bootDisabled : s.beginCycle.bootDisabled = s.bootDisabled := by
  simp only [beginCycle, timerTick, dmaTick_bootDisabled, ppuTick, hostInput_bootDisabled]
@[simp] theorem endCycle_bootDisabled : s.endCycle.bootDisabled = s.bootDisabled := rfl
@[simp] theorem cycle_bootDisabled : s.cycle.bootDisabled = s.bootDisabled := by simp [cycle]
@[simp] theorem cycles_bootDisabled (k : Nat) : (s.cycles k).bootDisabled = s.bootDisabled := by
  induction k with
  | zero => rfl
  | succ k ih => simp [cycles, ih]

theorem hostInput_joySelect : s.hostInput.joySelect = s.joySelect := by unfold hostInput; split <;> rfl
theorem dmaTick_joySelect : s.dmaTick.joySelect = s.joySelect := by unfold dmaTick; split <;> rfl
@[simp] theorem beginCycle_joySelect : s.beginCycle.joySelect = s.joySelect := by
  simp only [beginCycle, timerTick, dmaTick_joySelect, ppuTick, hostInput_joySelect]
@[simp] theorem endCycle_joySelect : s.endCycle.joySelect = s.joySelect := rfl
@[simp] theorem cycle_joySelect : s.cycle.joySelect = s.joySelect := by simp [cycle]
@[simp] theorem cycles_joySelect (k : Nat) : (s.cycles k).joySelect = s.joySelect := by
  induction k with
  | zero => rfl
  | succ k ih => simp [cycles, ih]

theorem hostInput_ctrlA : s.hostInput.ctrlA = s.ctrlA := by unfold hostInput; split <;> rfl
theorem dmaTick_ctrlA : s.dmaTick.ctrlA = s.ctrlA := by unfold dmaTick; split <;> rfl
@[simp] theorem beginCycle_ctrlA : s.beginCycle.ctrlA = s.ctrlA := by
  simp only [beginCycle, timerTick, dmaTick_ctrlA, ppuTick, hostInput_ctrlA]
@[simp] theorem endCycle_ctrlA : s.endCycle.ctrlA = s.ctrlA := rfl
@[simp] theorem cycle_ctrlA : s.cycle.ctrlA = s.ctrlA := by simp [cycle]
@[simp] theorem cycles_ctrlA (k : Nat) : (s.cycles k).ctrlA = s.ctrlA := by
  induction k with
  | zero => rfl
  | succ k ih => simp [cycles, ih]

theorem hostInput_ctrlB : s.hostInput.ctrlB = s.ctrlB := by unfold hostInput; split <;> rfl
theorem dmaTick_ctrlB : s.dmaTick.ctrlB = s.ctrlB := by unfold dmaTick; split <;> rfl
@[simp] theorem beginCycle_ctrlB : s.beginCycle.ctrlB = s.ctrlB := by
  simp only [beginCycle, timerTick, dmaTick_ctrlB, ppuTick, hostInput_ctrlB]
@[simp] theorem endCycle_ctrlB : s.endCycle.ctrlB = s.ctrlB := rfl
@[simp] theorem cycle_ctrlB : s.cycle.ctrlB = s.ctrlB := by simp [cycle]
@[simp] theorem cycles_ctrlB (k : Nat) : (s.cycles k).ctrlB = s.ctrlB := by
  induction k with
  | zero => rfl
  | succ k ih => simp [cycles, ih]

theorem hostInput_io : s.hostInput.io = s.io := by unfold hostInput; split <;> rfl
theorem dmaTick_io : s.dmaTick.io = s.io := by unfold dmaTick; split <;> rfl
@[simp] theorem beginCycle_io : s.beginCycle.io = s.io := by
  simp only [beginCycle, timerTick, dmaTick_io, ppuTick, hostInput_io]
@[simp] theorem endCycle_io : s.endCycle.io = s.io := rfl
@[simp] theorem cycle_io : s.cycle.io = s.io := by simp [cycle]
@[simp] theorem cycles_io (k : Nat) : (s.cycles k).io = s.io := by
  induction k with
  | zero => rfl
  | succ k ih => simp [cycles, ih]

theorem hostInput_vram : s.hostInput.vram = s.vram := by unfold hostInput; split <;> rfl
theorem dmaTick_vram : s.dmaTick.vram = s.vram := by unfold dmaTick; split <;> rfl
@[simp] theorem beginCycle_vram : s.beginCycle.vram = s.vram := by
  simp only [beginCycle, timerTick, dmaTick_vram, ppuTick, hostInput_vram]
@[simp] theorem endCycle_vram : s.endCycle.vram = s.vram := rfl
@[simp] theorem cycle_vram : s.cycle.vram = s.vram := by simp [cycle]
@[simp] theorem cycles_vram (k : Nat) : (s.cycles k).vram = s.vram := by
  induction k with
  | zero => rfl
  | succ k ih => simp [cycles, ih]

theorem hostInput_wram : s.hostInput.wram = s.wram := by unfold hostInput; split <;> rfl
theorem dmaTick_wram : s.dmaTick.wram = s.wram := by unfold dmaTick; split <;> rfl
@[simp] theorem beginCycle_wram : s.beginCycle.wram = s.wram := by
  simp only [beginCycle, timerTick, dmaTick_wram, ppuTick, hostInput_wram]
@[simp] theorem endCycle_wram : s.endCycle.wram = s.wram := rfl
@[simp] theorem cycle_wram : s.cycle.wram = s.wram := by simp [cycle]
@[simp] theorem cycles_wram (k : Nat) : (s.cycles k).wram = s.wram := by
  induction k with
  | zero => rfl
  | succ k ih => simp [cycles, ih]

theorem hostInput_hram : s.hostInput.hram = s.hram := by unfold hostInput; split <;> rfl
theorem dmaTick_hram : s.dmaTick.hram = s.hram := by unfold dmaTick; split <;> rfl
@[simp] theorem beginCycle_hram : s.beginCycle.hram = s.hram := by
  simp only [beginCycle, timerTick, dmaTick_hram, ppuTick, hostInput_hram]
@[simp] theorem endCycle_hram : s.endCycle.hram = s.hram := rfl
@[simp] theorem cycle_hram : s.cycle.hram = s.hram := by simp [cycle]
@[simp] theorem cycles_hram (k : Nat) : (s.cycles k).hram = s.hram := by
  induction k with
  | zero => rfl
  | succ k ih => simp [cycles, ih]

theorem hostInput_xram : s.hostInput.xram = s.xram := by unfold hostInput; split <;> rfl
theorem dmaTick_xram : s.dmaTick.xram = s.xram := by unfold dmaTick; split <;> rfl
@[simp] theorem beginCycle_xram : s.beginCycle.xram = s.xram := by
  simp only [beginCycle, timerTick, dmaTick_xram, ppuTick, hostInput_xram]
@[simp] theorem endCycle_xram : s.endCycle.xram = s.xram := rfl
@[simp] theorem cycle_xram : s.cycle.xram = s.xram := by simp [cycle]
@[simp] theorem cycles_xram (k : Nat) : (s.cycles k).xram = s.xram := by
  induction k with
  | zero => rfl
  | succ k ih => simp [cycles, ih]

theorem cycles_succ (k : Nat) : s.cycles (k + 1) = (s.cycles k).cycle := rfl
theorem cycles_one : s.cycles 1 = s.cycle := rfl

theorem cycles_add (j k : Nat) : s.cycles (j + k) = (s.cycles j).cycles k := by
  induction k with
  | zero => rfl
  | succ k ih => rw [← Nat.add_assoc, cycles_succ, cycles_succ, ih]

theorem cycles_cycle (k : Nat) : s.cycle.cycles k = s.cycles (k + 1) := by
  rw [Nat.add_comm, cycles_add]; rfl

/-! ## Each agent's part of the cycle -/

theorem hostInput_ppu : s.hostInput.ppu = s.ppu := by unfold hostInput; split <;> rfl
theorem hostInput_dma : s.hostInput.dma = s.dma := by unfold hostInput; split <;> rfl
theorem hostInput_oam : s.hostInput.oam = s.oam := by unfold hostInput; split <;> rfl
theorem hostInput_timer : s.hostInput.timer = s.timer := by unfold hostInput; split <;> rfl
theorem hostInput_intFlag : s.hostInput.intFlag = s.intFlag := by unfold hostInput; split <;> rfl
theorem dmaTick_ppu : s.dmaTick.ppu = s.ppu := by unfold dmaTick; split <;> rfl
theorem dmaTick_timer : s.dmaTick.timer = s.timer := by unfold dmaTick; split <;> rfl
theorem dmaTick_intFlag : s.dmaTick.intFlag = s.intFlag := by unfold dmaTick; split <;> rfl

/-- The picture unit's part: it sees the memories as the last M-cycle left them. -/
theorem beginCycle_ppu : s.beginCycle.ppu = s.ppu.tick s.vram s.oam s.launch.shades := by
  simp [beginCycle, timerTick, dmaTick_ppu, ppuTick, hostInput_ppu, hostInput_vram, hostInput_oam, hostInput_launch]

/-- The timer's part. -/
theorem beginCycle_timer : s.beginCycle.timer = s.timer.tick := by
  simp [beginCycle, timerTick, dmaTick_timer, ppuTick, hostInput_timer]

/-- No agent writes IF before the CPU step. -/
theorem beginCycle_intFlag : s.beginCycle.intFlag = s.intFlag := by
  simp [beginCycle, timerTick, dmaTick_intFlag, ppuTick, hostInput_intFlag]

/-- The DMA controller's counter. -/
theorem beginCycle_dma : s.beginCycle.dma = { s.dma with counter := s.dma.counter - 1 } := by
  simp only [beginCycle, timerTick]
  unfold dmaTick
  simp only [ppuTick, hostInput_dma]
  split
  · rfl
  · have : s.dma.counter - 1 = s.dma.counter := by omega
    rw [this]

theorem endCycle_dma : s.endCycle.dma = s.dma := rfl
theorem endCycle_oam : s.endCycle.oam = s.oam := rfl

/-- An idle DMA controller leaves OAM. -/
theorem beginCycle_oam_of_idle (h : s.dma.counter = 0) : s.beginCycle.oam = s.oam := by
  simp only [beginCycle, timerTick]
  unfold dmaTick
  simp [ppuTick, hostInput_dma, hostInput_oam, h]

/-! ## Frames -/

theorem pend_setCpu : (s.setCpu c).pend = s.pend := rfl

variable {s}

/-- A state that differs from `k` M-cycles of the agents in the CPU's registers only. -/
theorem onlyCpu_setCpu (k : Nat) (c : Cpu) : OnlyCpu k s ((s.cycles k).setCpu c) := by
  refine ⟨?_, fun a => ?_, ?_⟩ <;> simp

theorem onlyCpu_zero (c : Cpu) : OnlyCpu 0 s (s.setCpu c) := onlyCpu_setCpu 0 c
theorem onlyCpu_one (c : Cpu) : OnlyCpu 1 s (s.cycle.setCpu c) := onlyCpu_setCpu 1 c

/-- A write of one byte in the next M-cycle, whatever becomes of the CPU's registers. -/
theorem stored_memWrite (addr : Word) (v : Byte) (c : Cpu) : Stored s addr v ((s.cycle.memWrite addr v).setCpu c) := by
  refine ⟨rfl, fun hp a ha => ?_, fun hp => ?_⟩
  · rw [memRead_setCpu]; exact memRead_memWrite_of_other v hp ha
  · simpa using memWrite_register_rams (s := s.cycle) v hp

/-! ## Shared operations of the bus -/

theorem busRead_fst (a : Word) : (s.busRead a).1 = s.cycle.memRead a := rfl
theorem busRead_snd (a : Word) : (s.busRead a).2 = s.cycle := rfl
theorem readAtHl_fst : s.readAtHl.1 = s.cycle.memRead s.hl := rfl
theorem readAtHl_snd : s.readAtHl.2 = s.cycle := rfl

/-- `Pop16()` (R13): two reads, SP moves up by two. -/
theorem pop16_eq :
    s.pop16 = (s.popped s.cpu.sp, (s.cycles 2).setCpu { s.cpu with sp := s.cpu.sp + 1 + 1 }) := by
  simp [pop16, busRead, popped, cycles, joinBytes]

/-- `Push16(v)` (R13): two writes, SP moves down by two. -/
theorem push16_eq (v : Word) :
    s.push16 v =
      ((s.cycle.memWrite (s.cpu.sp - 1) (hiByte v)).cycle.memWrite (s.cpu.sp - 1 - 1) (loByte v)).setCpu
        { s.cpu with sp := s.cpu.sp - 1 - 1 } := by
  simp [push16, busWrite]

theorem pushed_push16 (v : Word) (c : Cpu) : Pushed s s.cpu.sp v ((s.push16 v).setCpu c) := by
  refine ⟨s.cycle.memWrite (s.cpu.sp - 1) (hiByte v), ?_, ?_⟩
  · exact setCpu_self (s.cycle.memWrite (s.cpu.sp - 1) (hiByte v)) ▸ stored_memWrite _ _ _
  · rw [push16_eq, setCpu_setCpu, show s.cpu.sp - 1 - 1 = s.cpu.sp - 2 by bv_omega]
    exact stored_memWrite _ _ _

/-- `Fetch8()` (R13, R24, R28). -/
theorem fetch8_eq :
    s.fetch8 =
      (s.memRead s.cpu.pc,
        s.setCpu { s.cpu with pc := if s.cpu.haltBug then s.cpu.pc else s.cpu.pc + 1, haltBug := false }) := by
  unfold fetch8
  cases h : s.cpu.haltBug <;> simp
  rw [← h]

end Sys2Proof.Machine.State
end

