-- ==== Sys2Proof/Laws/Decode.lean ====
section
/-! SUPPORT. The decoder by the length of an instruction: one lemma for each format of R150. -/

namespace Sys2Proof.Machine

/-- Format OP. -/
theorem encodes_op {op : Byte} {i : Instr} (hp : op ≠ prefixByte) (h : operandCount op = 0)
    (hi : decodeFirst op 0 0 = i) : Encodes [op] i := by
  intro rest
  simp only [decode, List.cons_append, List.nil_append, hp, if_false, h, hi]

/-- Formats OP_N and OP_E. -/
theorem encodes_op_n {op n : Byte} {i : Instr} (hp : op ≠ prefixByte) (h : operandCount op = 1)
    (hi : decodeFirst op n 0 = i) : Encodes [op, n] i := by
  intro rest
  simp only [decode, List.cons_append, List.nil_append, hp, if_false, h, hi]

/-- Format OP_NN: the low byte comes first. -/
theorem encodes_op_nn {op lo hi : Byte} {i : Instr} (hp : op ≠ prefixByte) (h : operandCount op = 2)
    (hd : decodeFirst op 0 (hi ++ lo) = i) : Encodes [op, lo, hi] i := by
  intro rest
  simp only [decode, List.cons_append, List.nil_append, hp, if_false, h]
  exact congrArg (fun j => Except.ok (j, rest)) hd

/-- Format CB. -/
theorem encodes_cb {xop : Byte} {i : Instr} (h : decodeExtended xop = i) : Encodes [0xCB, xop] i := by
  intro rest
  simp only [decode, List.cons_append, List.nil_append, prefixByte, if_true, h]

end Sys2Proof.Machine
end

