-- ==== Sys2Proof/Laws/Frames.lean ====
section
/-! SUPPORT. The shared operations in the terms of Safety.lean: what a written register, the flags, a stored byte
and a pushed word leave. -/

namespace Sys2Proof.Machine.State

variable {s u : State}

/-- Writing a register `k` M-cycles on. -/
theorem regLoaded_setReg8 (r : Reg8) (v : Byte) (k : Nat) (hu : u = s.cycles k) :
    RegLoaded s r v k (u.setReg8 r v) := by
  subst hu
  refine ⟨by simp, fun r' h => ?_, ?_, ?_, ?_⟩
  · rw [reg8_setReg8_of_ne _ _ h]; cases r' <;> simp [reg8]
  · rw [setReg8_f]; simp
  · unfold SameControl; cases r <;> simp [setReg8]
  · rw [setReg8_eq]; exact onlyCpu_setCpu _ _

/-- The four flags as they are written. -/
theorem flagsAre_setCpu (c : Cpu) (z n h cy : Bool) (hf : c.f = flagByte z n h cy &&& 0xF0) :
    FlagsAre (s.setCpu c) z n h cy := by
  rw [flagByte_masked] at hf
  refine ⟨?_, ?_, ?_, ?_, ?_⟩
  · rw [flagZ, setCpu_cpu, hf, flagByte_z]
  · rw [flagN, setCpu_cpu, hf, flagByte_n]
  · rw [flagH, setCpu_cpu, hf, flagByte_h]
  · rw [flagC, setCpu_cpu, hf, flagByte_c]
  · rw [setCpu_cpu, hf, flagByte_low]

/-- A register and the flags written with no bus access. -/
theorem regFlagged_modifyReg8 (r : Reg8) (f : Byte → Alu) :
    RegFlagged s r (f (s.reg8 r)).z (f (s.reg8 r)).n (f (s.reg8 r)).h (f (s.reg8 r)).c 0 (s.modifyReg8 r f) := by
  simp only [modifyReg8, putAluFlags, setFlags_eq]
  refine ⟨flagsAre_setCpu _ _ _ _ _ rfl, fun r' h => ?_, ?_, ?_⟩
  · have := reg8_setReg8_of_ne s (f (s.reg8 r)).value h
    rw [← this]; cases r' <;> rfl
  · unfold SameControl; cases r <;> rfl
  · rw [setReg8_eq, setCpu_setCpu]; exact onlyCpu_zero _

theorem reg8_modifyReg8 (r : Reg8) (f : Byte → Alu) : (s.modifyReg8 r f).reg8 r = (f (s.reg8 r)).value := by
  have := reg8_setReg8 s r (f (s.reg8 r)).value
  rw [← this]; cases r <;> rfl

/-- A byte of memory at HL and the flags written by a read-modify-write. -/
theorem byteFlagged_modifyAtHl (f : Byte → Alu) :
    ByteFlagged s s.hl (f (s.cycle.memRead s.hl)).value (f (s.cycle.memRead s.hl)).z (f (s.cycle.memRead s.hl)).n
      (f (s.cycle.memRead s.hl)).h (f (s.cycle.memRead s.hl)).c (s.modifyAtHl f) := by
  have e : s.modifyAtHl f =
      (s.cycle.cycle.memWrite s.hl (f (s.cycle.memRead s.hl)).value).setCpu
        { s.cpu with
          f := flagByte (f (s.cycle.memRead s.hl)).z (f (s.cycle.memRead s.hl)).n (f (s.cycle.memRead s.hl)).h
              (f (s.cycle.memRead s.hl)).c &&& 0xF0 } := by
    simp [modifyAtHl, readAtHl, busRead, busWrite, putAluFlags, hl]
  rw [e]
  exact ⟨stored_memWrite _ _ _, flagsAre_setCpu _ _ _ _ _ rfl, rfl⟩

/-- A store that changes no CPU register. -/
theorem stored_busWrite (addr : Word) (v : Byte) :
    Stored s addr v (s.busWrite addr v) ∧ (s.busWrite addr v).cpu = s.cpu :=
  ⟨stored_memWrite (s := s) addr v (s.cycle.memWrite addr v).cpu, by simp [busWrite]⟩

/-- A result of the ALU written to A and F `k` M-cycles on. -/
theorem putAlu_eq (r : Alu) :
    u.putAlu r = u.setCpu { u.cpu with a := r.value, f := flagByte r.z r.n r.h r.c &&& 0xF0 } := rfl

theorem putAluFlags_eq (r : Alu) :
    u.putAluFlags r = u.setCpu { u.cpu with f := flagByte r.z r.n r.h r.c &&& 0xF0 } := rfl

/-- The high page of LDH: 0xFF in the high byte (R152). -/
theorem highPage_eq (n : Byte) : highPage n = (0xFF#8 ++ n : Word) := by
  apply BitVec.eq_of_getLsbD_eq
  intro i hi
  have h := joinBytes_getLsbD 0xFF#8 n i
  simp only [joinBytes] at h
  rw [h]
  have e : (0xFF00 : Word) + n.setWidth 16 = 0xFF00 ||| n.setWidth 16 := by
    rw [BitVec.add_eq_or_of_and_eq_zero]
    apply BitVec.eq_of_getLsbD_eq
    intro j hj
    have : (0xFF00 : Word).getLsbD j = decide (8 ≤ j) := by
      interval_cases j <;> rfl
    simp only [BitVec.getLsbD_and, this, BitVec.getLsbD_setWidth, BitVec.getLsbD_zero]
    by_cases h8 : 8 ≤ j
    · simp [BitVec.getLsbD_of_ge n j h8]
    · simp [h8]
  have : (0xFF00 : Word).getLsbD i = decide (8 ≤ i) := by interval_cases i <;> rfl
  simp only [highPage, zext16, e, BitVec.getLsbD_or, this, BitVec.getLsbD_setWidth]
  split
  · next h8 => simp [show ¬8 ≤ i by omega, hi]
  · next h8 =>
    rw [BitVec.getLsbD_of_ge n i (by omega)]
    have : i - 8 < 8 := by omega
    interval_cases h : i - 8 <;> simp_all

end Sys2Proof.Machine.State
end

