-- ==== Sys2Proof/Laws/PerInstr.lean ====
section
/-! SUPPORT. For every instruction: its bytes are one opcode byte and as many more as that byte alone says (R150). -/

namespace Sys2Proof.Laws.Length

/-- The encoding is a first byte and the bytes that this byte alone calls for, at most two; of the row PREFIX_CB it
is the prefix alone (R150, R154; log entry 5). -/
def Statement (i : Instr) : Prop :=
  ∃ op rest, encode i = op :: rest ∧ rest.length ≤ 2 ∧ (i ≠ .prefixCB → rest.length = operandCount op)

theorem one {i : Instr} {op : Byte} (h : encode i = [op]) (hc : operandCount op = 0) : Statement i :=
  ⟨op, [], h, by decide, fun _ => hc.symm⟩

theorem two {i : Instr} {op x : Byte} (h : encode i = [op, x]) (hc : operandCount op = 1) : Statement i :=
  ⟨op, [x], h, by simp, fun _ => hc.symm⟩

theorem three {i : Instr} {op x y : Byte} (h : encode i = [op, x, y]) (hc : operandCount op = 2) : Statement i :=
  ⟨op, [x, y], h, by simp, fun _ => hc.symm⟩

theorem nop : Statement .nop := one rfl (by decide)
theorem ldNnSp (nn : Word) : Statement (.ldNnSp nn) := three rfl (by decide)
theorem stop (n : Byte) : Statement (.stop n) := two rfl (by decide)
theorem jrE (e : Byte) : Statement (.jrE e) := two rfl (by decide)
theorem jrCcE (cc : Cond) (e : Byte) : Statement (.jrCcE cc e) := by
  cases cc <;> exact two rfl (by decide)
theorem ldRrNn (rr : Pair) (nn : Word) : Statement (.ldRrNn rr nn) := by
  cases rr <;> exact three rfl (by decide)
theorem addHlRr (rr : Pair) : Statement (.addHlRr rr) := by
  cases rr <;> exact one rfl (by decide)
theorem ldBcA : Statement .ldBcA := one rfl (by decide)
theorem ldABc : Statement .ldABc := one rfl (by decide)
theorem ldDeA : Statement .ldDeA := one rfl (by decide)
theorem ldADe : Statement .ldADe := one rfl (by decide)
theorem ldHliA : Statement .ldHliA := one rfl (by decide)
theorem ldAHli : Statement .ldAHli := one rfl (by decide)
theorem ldHldA : Statement .ldHldA := one rfl (by decide)
theorem ldAHld : Statement .ldAHld := one rfl (by decide)
theorem incRr (rr : Pair) : Statement (.incRr rr) := by
  cases rr <;> exact one rfl (by decide)
theorem decRr (rr : Pair) : Statement (.decRr rr) := by
  cases rr <;> exact one rfl (by decide)
theorem incR (r : Reg8) : Statement (.incR r) := by
  cases r <;> exact one rfl (by decide)
theorem incHl : Statement .incHl := one rfl (by decide)
theorem decR (r : Reg8) : Statement (.decR r) := by
  cases r <;> exact one rfl (by decide)
theorem decHl : Statement .decHl := one rfl (by decide)
theorem ldRN (r : Reg8) (n : Byte) : Statement (.ldRN r n) := by
  cases r <;> exact two rfl (by decide)
theorem ldHlN (n : Byte) : Statement (.ldHlN n) := two rfl (by decide)
theorem rlca : Statement .rlca := one rfl (by decide)
theorem rrca : Statement .rrca := one rfl (by decide)
theorem rla : Statement .rla := one rfl (by decide)
theorem rra : Statement .rra := one rfl (by decide)
theorem daa : Statement .daa := one rfl (by decide)
theorem cpl : Statement .cpl := one rfl (by decide)
theorem scf : Statement .scf := one rfl (by decide)
theorem ccf : Statement .ccf := one rfl (by decide)
theorem ldRR (rd : Reg8) (rs : Reg8) : Statement (.ldRR rd rs) := by
  cases rd <;> cases rs <;> exact one rfl (by decide)
theorem ldRHl (r : Reg8) : Statement (.ldRHl r) := by
  cases r <;> exact one rfl (by decide)
theorem ldHlR (r : Reg8) : Statement (.ldHlR r) := by
  cases r <;> exact one rfl (by decide)
theorem halt : Statement .halt := one rfl (by decide)
theorem addAR (r : Reg8) : Statement (.addAR r) := by
  cases r <;> exact one rfl (by decide)
theorem addAHl : Statement .addAHl := one rfl (by decide)
theorem addAN (n : Byte) : Statement (.addAN n) := two rfl (by decide)
theorem adcAR (r : Reg8) : Statement (.adcAR r) := by
  cases r <;> exact one rfl (by decide)
theorem adcAHl : Statement .adcAHl := one rfl (by decide)
theorem adcAN (n : Byte) : Statement (.adcAN n) := two rfl (by decide)
theorem subR (r : Reg8) : Statement (.subR r) := by
  cases r <;> exact one rfl (by decide)
theorem subHl : Statement .subHl := one rfl (by decide)
theorem subN (n : Byte) : Statement (.subN n) := two rfl (by decide)
theorem sbcAR (r : Reg8) : Statement (.sbcAR r) := by
  cases r <;> exact one rfl (by decide)
theorem sbcAHl : Statement .sbcAHl := one rfl (by decide)
theorem sbcAN (n : Byte) : Statement (.sbcAN n) := two rfl (by decide)
theorem andR (r : Reg8) : Statement (.andR r) := by
  cases r <;> exact one rfl (by decide)
theorem andHl : Statement .andHl := one rfl (by decide)
theorem andN (n : Byte) : Statement (.andN n) := two rfl (by decide)
theorem xorR (r : Reg8) : Statement (.xorR r) := by
  cases r <;> exact one rfl (by decide)
theorem xorHl : Statement .xorHl := one rfl (by decide)
theorem xorN (n : Byte) : Statement (.xorN n) := two rfl (by decide)
theorem orR (r : Reg8) : Statement (.orR r) := by
  cases r <;> exact one rfl (by decide)
theorem orHl : Statement .orHl := one rfl (by decide)
theorem orN (n : Byte) : Statement (.orN n) := two rfl (by decide)
theorem cpR (r : Reg8) : Statement (.cpR r) := by
  cases r <;> exact one rfl (by decide)
theorem cpHl : Statement .cpHl := one rfl (by decide)
theorem cpN (n : Byte) : Statement (.cpN n) := two rfl (by decide)
theorem retCc (cc : Cond) : Statement (.retCc cc) := by
  cases cc <;> exact one rfl (by decide)
theorem ldhNA (n : Byte) : Statement (.ldhNA n) := two rfl (by decide)
theorem addSpE (e : Byte) : Statement (.addSpE e) := two rfl (by decide)
theorem ldhAN (n : Byte) : Statement (.ldhAN n) := two rfl (by decide)
theorem ldHlSpE (e : Byte) : Statement (.ldHlSpE e) := two rfl (by decide)
theorem popRr (rr : StackPair) : Statement (.popRr rr) := by
  cases rr <;> exact one rfl (by decide)
theorem popAf : Statement .popAf := one rfl (by decide)
theorem ret : Statement .ret := one rfl (by decide)
theorem reti : Statement .reti := one rfl (by decide)
theorem jpHl : Statement .jpHl := one rfl (by decide)
theorem ldSpHl : Statement .ldSpHl := one rfl (by decide)
theorem jpCcNn (cc : Cond) (nn : Word) : Statement (.jpCcNn cc nn) := by
  cases cc <;> exact three rfl (by decide)
theorem ldhCA : Statement .ldhCA := one rfl (by decide)
theorem ldNnA (nn : Word) : Statement (.ldNnA nn) := three rfl (by decide)
theorem ldhAC : Statement .ldhAC := one rfl (by decide)
theorem ldANn (nn : Word) : Statement (.ldANn nn) := three rfl (by decide)
theorem jpNn (nn : Word) : Statement (.jpNn nn) := three rfl (by decide)
theorem prefixCB : Statement .prefixCB := ⟨_, _, rfl, by decide, fun h => absurd rfl h⟩
theorem di : Statement .di := one rfl (by decide)
theorem ei : Statement .ei := one rfl (by decide)
theorem callCcNn (cc : Cond) (nn : Word) : Statement (.callCcNn cc nn) := by
  cases cc <;> exact three rfl (by decide)
theorem pushRr (rr : StackPair) : Statement (.pushRr rr) := by
  cases rr <;> exact one rfl (by decide)
theorem callNn (nn : Word) : Statement (.callNn nn) := three rfl (by decide)
theorem rstT (t : Fin 8) : Statement (.rstT t) := by
  refine one rfl ?_
  revert t; decide
theorem illegalD3 : Statement .illegalD3 := one rfl (by decide)
theorem illegalDB : Statement .illegalDB := one rfl (by decide)
theorem illegalDD : Statement .illegalDD := one rfl (by decide)
theorem illegalE3 : Statement .illegalE3 := one rfl (by decide)
theorem illegalE4 : Statement .illegalE4 := one rfl (by decide)
theorem illegalEB : Statement .illegalEB := one rfl (by decide)
theorem illegalEC : Statement .illegalEC := one rfl (by decide)
theorem illegalED : Statement .illegalED := one rfl (by decide)
theorem illegalF4 : Statement .illegalF4 := one rfl (by decide)
theorem illegalFC : Statement .illegalFC := one rfl (by decide)
theorem illegalFD : Statement .illegalFD := one rfl (by decide)
theorem rlcR (r : Reg8) : Statement (.rlcR r) := two rfl (by decide)
theorem rlcHl : Statement .rlcHl := two rfl (by decide)
theorem rrcR (r : Reg8) : Statement (.rrcR r) := two rfl (by decide)
theorem rrcHl : Statement .rrcHl := two rfl (by decide)
theorem rlR (r : Reg8) : Statement (.rlR r) := two rfl (by decide)
theorem rlHl : Statement .rlHl := two rfl (by decide)
theorem rrR (r : Reg8) : Statement (.rrR r) := two rfl (by decide)
theorem rrHl : Statement .rrHl := two rfl (by decide)
theorem slaR (r : Reg8) : Statement (.slaR r) := two rfl (by decide)
theorem slaHl : Statement .slaHl := two rfl (by decide)
theorem sraR (r : Reg8) : Statement (.sraR r) := two rfl (by decide)
theorem sraHl : Statement .sraHl := two rfl (by decide)
theorem swapR (r : Reg8) : Statement (.swapR r) := two rfl (by decide)
theorem swapHl : Statement .swapHl := two rfl (by decide)
theorem srlR (r : Reg8) : Statement (.srlR r) := two rfl (by decide)
theorem srlHl : Statement .srlHl := two rfl (by decide)
theorem bitBR (b : Fin 8) (r : Reg8) : Statement (.bitBR b r) := two rfl (by decide)
theorem bitBHl (b : Fin 8) : Statement (.bitBHl b) := two rfl (by decide)
theorem resBR (b : Fin 8) (r : Reg8) : Statement (.resBR b r) := two rfl (by decide)
theorem resBHl (b : Fin 8) : Statement (.resBHl b) := two rfl (by decide)
theorem setBR (b : Fin 8) (r : Reg8) : Statement (.setBR b r) := two rfl (by decide)
theorem setBHl (b : Fin 8) : Statement (.setBHl b) := two rfl (by decide)

end Sys2Proof.Laws.Length
end

