-- ==== Sys2Proof/Laws/Video.lean ====
section
/-! SUPPORT. What a sub-tick and a tick of the picture unit can do, and that a tick keeps it sound. -/

namespace Sys2Proof.Machine

/-- The low bit of a colour number comes from the first byte of the tile row (R471). -/
@[simp] theorem rowPixel_getLsbD_zero (lo hi : Byte) (px : Nat) :
    (rowPixel lo hi px).getLsbD 0 = lo.getLsbD (7 - px) := by
  unfold rowPixel bit1
  rw [BitVec.getLsbD_append]
  simp

/-- The high bit comes from the second byte. -/
@[simp] theorem rowPixel_getLsbD_one (lo hi : Byte) (px : Nat) :
    (rowPixel lo hi px).getLsbD 1 = hi.getLsbD (7 - px) := by
  unfold rowPixel bit1
  rw [BitVec.getLsbD_append]
  simp

/-- A palette's shade as a number (R40). -/
theorem paletteShade_toNat (palette : Byte) (c : BitVec 2) :
    (paletteShade palette c).toNat = palette.toNat / 4 ^ c.toNat % 4 := by
  simp [paletteShade, BitVec.extractLsb'_toNat, Nat.shiftRight_eq_div_pow, Nat.pow_mul]

end Sys2Proof.Machine

namespace Sys2Proof.Machine.Ppu

variable {vram oam : Memory} {sh : Shades} {p : Ppu}

/-- Inside a mode a sub-tick only counts (R468). -/
theorem subTick_inside (h : p.modeTicks + 1 < p.mode.length) :
    p.subTick vram oam sh = { p with modeTicks := p.modeTicks + 1 } := by
  unfold subTick
  cases hm : p.mode <;> simp only [hm, PpuMode.length] at h ⊢ <;> rw [if_neg (by omega)]

/-- A tick from a whole M-cycle: only the fourth sub-tick can end the mode (R468). -/
theorem tick_eq (hl : p.modeTicks < p.mode.length) (hw : p.modeTicks % 4 = 0) :
    p.tick vram oam sh = { p with frameReady := false, modeTicks := p.modeTicks + 3 }.subTick vram oam sh := by
  have h4 : p.modeTicks + 4 ≤ p.mode.length := by
    cases hm : p.mode <;> simp only [hm, PpuMode.length] at hl ⊢ <;> omega
  have e (k : Nat) (hk : k + 1 < 4) :
      subTick vram oam sh { p with frameReady := false, modeTicks := p.modeTicks + k } =
        { p with frameReady := false, modeTicks := p.modeTicks + (k + 1) } :=
    subTick_inside (p := { p with frameReady := false, modeTicks := p.modeTicks + k }) (by simp only; omega)
  unfold tick
  simp only
  have e0 := e 0 (by omega)
  rw [Nat.add_zero] at e0
  rw [e0, e 1 (by omega), e 2 (by omega)]

/-- A STAT event touches one output. -/
theorem statEvent_eq (i : Nat) : p.statEvent i = { p with statReq := p.statReq || p.statEnable.getLsbD i } := rfl

theorem renderRow_length (y : Nat) : (p.renderRow vram oam sh y).length = 160 := by simp [renderRow]

/-- Rendering a line touches the framebuffer and the window-line counter, and keeps the canonical form. -/
theorem renderLine_sound (hf : p.framebuffer.wf = true) :
    (p.renderLine vram oam sh).framebuffer.wf = true ∧
      p.renderLine vram oam sh =
        { p with
          framebuffer := (p.renderLine vram oam sh).framebuffer
          windowLine := (p.renderLine vram oam sh).windowLine } := by
  unfold renderLine
  simp only
  split
  · next h =>
    exact ⟨Frame.wf_writeRow _ hf (by rw [renderRow_length]; omega), rfl⟩
  · exact ⟨hf, rfl⟩

/-- The last sub-tick of an M-cycle leaves a sound picture unit sound. -/
theorem subTick_last_sound (hl : p.modeTicks < p.mode.length) (hw : (p.modeTicks + 1) % 4 = 0)
    (hy : p.ly.toNat ≤ 153) (hv : p.mode ≠ .vblank → p.ly.toNat < 144) (hf : p.framebuffer.wf = true) :
    (p.subTick vram oam sh).Sound := by
  by_cases hin : p.modeTicks + 1 < p.mode.length
  · rw [subTick_inside hin]
    exact ⟨hin, hw, hy, hv, hf⟩
  · have hlen : p.modeTicks + 1 = p.mode.length := by omega
    unfold subTick
    cases hm : p.mode <;> simp only [hm, PpuMode.length] at hlen <;> simp only [hlen, if_true]
    · have hy144 : p.ly.toNat < 144 := hv (by simp [hm])
      have hinc : (p.ly + 1).toNat = p.ly.toNat + 1 := by bv_omega
      have h1 : ∀ q : Ppu, q.compareEvent = { q with statReq := q.compareEvent.statReq } := by
        intro q; unfold compareEvent; split <;> rfl
      unfold endHblank
      rw [h1]
      simp only
      split
      · next he =>
        refine ⟨by simp [statEvent, PpuMode.length], rfl, ?_, ?_, hf⟩
        · simp only [statEvent]; omega
        · simp [statEvent]
      · next he =>
        have : p.ly.toNat + 1 ≠ 144 := fun e => he (by bv_omega)
        refine ⟨by simp [statEvent, PpuMode.length], rfl, ?_, fun _ => ?_, hf⟩ <;> simp only [statEvent] <;> omega
    · have hinc : (p.ly + 1).toNat = p.ly.toNat + 1 := by bv_omega
      have h1 : ∀ q : Ppu, q.compareEvent = { q with statReq := q.compareEvent.statReq } := by
        intro q; unfold compareEvent; split <;> rfl
      unfold endVblankLine
      simp only
      split
      · rw [h1]
        exact ⟨by simp [statEvent, PpuMode.length], rfl, by simp [statEvent], by simp [statEvent], hf⟩
      · next he =>
        rw [h1]
        simp only [hinc] at he
        refine ⟨by simp [PpuMode.length], rfl, ?_, by simp, hf⟩
        show (p.ly + 1).toNat ≤ 153
        omega
    · have hr := renderLine_sound (vram := vram) (oam := oam) (sh := sh)
        (p := { p with modeTicks := 0, mode := .transfer }) hf
      rw [hr.2]
      exact ⟨by simp [PpuMode.length], rfl, hy, fun _ => hv (by simp [hm]), hr.1⟩
    · refine ⟨by simp [statEvent, PpuMode.length], rfl, hy, fun _ => hv (by simp [hm]), hf⟩

/-- A tick keeps the picture unit sound. -/
theorem tick_sound (h : p.Sound) : (p.tick vram oam sh).Sound := by
  have hin := h.inMode
  have hw := h.wholeCycles
  rw [tick_eq hin hw]
  have h4 : p.modeTicks + 4 ≤ p.mode.length := by
    cases hm : p.mode <;> simp only [hm, PpuMode.length] at hin ⊢ <;> omega
  exact subTick_last_sound (by simp only; omega) (by simp only; omega) h.line h.visible h.frame

end Sys2Proof.Machine.Ppu
end

