-- ==== Sys2Proof/Laws/Sound.lean ====
section
/-! SUPPORT. Every shared operation keeps a sound machine sound: the bus write, the agents' M-cycle, fetching,
pushing, popping, taking an interrupt. -/

namespace Sys2Proof.Machine

/-! ## Where an address lies -/

theorem placeOf_bounds (a : Word) :
    (∀ i, placeOf a = .vram i → i < 8192) ∧ (∀ i, placeOf a = .wram i → i < 8192) ∧
      (∀ i, placeOf a = .oam i → i < 160) ∧ (∀ i, placeOf a = .hram i → i < 127) ∧
      (∀ i, placeOf a = .io i → i < 128) := by
  refine ⟨?_, ?_, ?_, ?_, ?_⟩ <;> intro i h <;> unfold placeOf at h <;> simp only at h <;>
    (repeat' split at h) <;>
    simp only [reduceCtorEq, Place.vram.injEq, Place.wram.injEq, Place.oam.injEq, Place.hram.injEq,
      Place.io.injEq] at h <;> omega

theorem cartRamTarget_bounds (s : State) (o : Nat) :
    (∀ i, s.cartRamTarget o = .xram i → i < s.launch.xramLen) ∧ (∀ i, s.cartRamTarget o = .rtc i → i < 13) := by
  have hx : ∀ b o i, s.xramAt b o = .xram i → i < s.launch.xramLen := by
    intro b o i h
    unfold State.xramAt at h
    split at h
    · cases h
    · cases h; exact Nat.mod_lt _ (by omega)
  have hr : ∀ b o i, s.xramAt b o ≠ .rtc i := by
    intro b o i h
    unfold State.xramAt at h
    split at h <;> cases h
  unfold State.cartRamTarget
  refine ⟨fun i h => ?_, fun i h => ?_⟩ <;> simp only at h
  · split at h
    · exact hx _ _ _ h
    · split at h
      · exact hx _ _ _ h
      · cases h
    · repeat' split at h
      all_goals first | exact hx _ _ _ h | cases h
  · split at h
    · exact absurd h (hr _ _ _)
    · split at h
      · exact absurd h (hr _ _ _)
      · cases h
    · repeat' split at h
      all_goals first | exact absurd h (hr _ _ _) | (cases h; done) | (cases h; omega)

/-! ## The CPU's part -/

/-- Soundness of the CPU looks at F, the waits and the fault latch. -/
theorem Cpu.Sound.of_eq {c d : Cpu} (h : c.Sound) (hf : d.f = c.f) (hh : d.halted = c.halted)
    (hs : d.stopped = c.stopped) (hx : d.faulted = c.faulted) : d.Sound := by
  refine ⟨?_, ?_, ?_⟩
  · rw [hf]; exact h.lowNibble
  · rw [hh, hs]; exact h.oneWait
  · rw [hh, hs, hx]; exact h.faultNotWaiting

/-- The same with F written through the mask of R23. -/
theorem Cpu.Sound.of_flags {c d : Cpu} (h : c.Sound) (v : Byte) (hf : d.f = v &&& 0xF0) (hh : d.halted = c.halted)
    (hs : d.stopped = c.stopped) (hx : d.faulted = c.faulted) : d.Sound := by
  refine ⟨?_, ?_, ?_⟩
  · rw [hf]; exact masked_low v
  · rw [hh, hs]; exact h.oneWait
  · rw [hh, hs, hx]; exact h.faultNotWaiting

namespace State

variable {s : State}

theorem Sound.setCpu (h : s.Sound) {c : Cpu} (hc : c.Sound) : (s.setCpu c).Sound :=
  ⟨h.launch, hc, h.ppu, ⟨h.memories.vram, h.memories.wram, h.memories.oam, h.memories.hram, h.memories.io,
    h.memories.xram, h.memories.rtc⟩, h.dma, h.bankA, h.bankB, h.overlay⟩

/-! ## Writes -/

theorem CtrlA.write_bank (c : CtrlA) (a : Nat) (v : Byte) (h : c.romBank5 ≠ 0) : (c.write a v).romBank5 ≠ 0 := by
  unfold CtrlA.write
  split
  · exact h
  · split
    · simp only [nonzeroBank]; split
      · decide
      · assumption
    · split <;> exact h

theorem CtrlB.write_bank (c : CtrlB) (a : Nat) (v : Byte) (h : c.romBank7 ≠ 0) : (c.write a v).romBank7 ≠ 0 := by
  unfold CtrlB.write
  split
  · exact h
  · split
    · simp only [nonzeroBank]; split
      · decide
      · assumption
    · split <;> exact h

theorem CtrlB.write_rtc (c : CtrlB) (a : Nat) (v : Byte) : (c.write a v).rtc = c.rtc := by
  unfold CtrlB.write
  repeat' split
  all_goals rfl

theorem Sound.cartWrite (h : s.Sound) (a : Nat) (v : Byte) : (s.cartWrite a v).Sound := by
  unfold State.cartWrite
  split
  · exact h
  · exact ⟨h.launch, h.cpu, h.ppu, ⟨h.memories.vram, h.memories.wram, h.memories.oam, h.memories.hram,
      h.memories.io, h.memories.xram, h.memories.rtc⟩, h.dma, CtrlA.write_bank _ a v h.bankA, h.bankB, h.overlay⟩
  · exact ⟨h.launch, h.cpu, h.ppu, ⟨h.memories.vram, h.memories.wram, h.memories.oam, h.memories.hram,
      h.memories.io, h.memories.xram, by rw [CtrlB.write_rtc]; exact h.memories.rtc⟩, h.dma, h.bankA,
      CtrlB.write_bank _ a v h.bankB, h.overlay⟩

theorem Sound.cartRamWrite (h : s.Sound) (o : Nat) (v : Byte) : (s.cartRamWrite o v).Sound := by
  have hb := cartRamTarget_bounds s o
  unfold State.cartRamWrite
  split
  · exact h
  · next i hi =>
    exact ⟨h.launch, h.cpu, h.ppu, ⟨h.memories.vram, h.memories.wram, h.memories.oam, h.memories.hram,
      h.memories.io, Memory.wf_write v h.memories.xram (hb.1 i hi), h.memories.rtc⟩, h.dma, h.bankA, h.bankB,
      h.overlay⟩
  · next i hi =>
    exact ⟨h.launch, h.cpu, h.ppu, ⟨h.memories.vram, h.memories.wram, h.memories.oam, h.memories.hram,
      h.memories.io, h.memories.xram, Memory.wf_write v h.memories.rtc (hb.2 i hi)⟩, h.dma, h.bankA, h.bankB,
      h.overlay⟩

theorem Sound.ioStore (h : s.Sound) {o : Nat} (ho : o < 128) (v : Byte) : (s.ioStore o v).Sound :=
  ⟨h.launch, h.cpu, h.ppu, ⟨h.memories.vram, h.memories.wram, h.memories.oam, h.memories.hram,
    Memory.wf_write v h.memories.io ho, h.memories.xram, h.memories.rtc⟩, h.dma, h.bankA, h.bankB, h.overlay⟩

theorem Sound.ioWrite (h : s.Sound) {o : Nat} (ho : o < 128) (v : Byte) : (s.ioWrite o v).Sound := by
  have hm := h.memories
  have hp := h.ppu
  unfold State.ioWrite
  split
  all_goals first
    | exact h.ioStore ho _
    | exact ⟨h.launch, h.cpu, ⟨hp.inMode, hp.wholeCycles, hp.line, hp.visible, hp.frame⟩,
        ⟨hm.vram, hm.wram, hm.oam, hm.hram, hm.io, hm.xram, hm.rtc⟩, h.dma, h.bankA, h.bankB, h.overlay⟩
    | exact ⟨h.launch, h.cpu, ⟨hp.inMode, hp.wholeCycles, by simp, by simp, hp.frame⟩,
        ⟨hm.vram, hm.wram, hm.oam, hm.hram, hm.io, hm.xram, hm.rtc⟩, h.dma, h.bankA, h.bankB, h.overlay⟩
    | exact ⟨h.launch, h.cpu, hp, ⟨hm.vram, hm.wram, hm.oam, hm.hram, hm.io, hm.xram, hm.rtc⟩,
        (by simp), h.bankA, h.bankB, h.overlay⟩
    | skip
  · have hi := h.ioStore ho v
    have him := hi.memories
    exact ⟨hi.launch, hi.cpu, hi.ppu, ⟨him.vram, him.wram, him.oam, him.hram, him.io, him.xram, him.rtc⟩,
      hi.dma, hi.bankA, hi.bankB, fun _ => rfl⟩

/-- A write of the bus keeps the machine sound. -/
theorem Sound.memWrite (h : s.Sound) (a : Word) (v : Byte) : (s.memWrite a v).Sound := by
  obtain ⟨hv, hw, ho, hh, hio⟩ := placeOf_bounds a
  have hm := h.memories
  cases hp : placeOf a with
  | cart i => rw [memWrite_cart v hp]; exact h.cartWrite i v
  | cartRam i => rw [memWrite_cartRam v hp]; exact h.cartRamWrite i v
  | hole => rw [memWrite_hole v hp]; exact h
  | io o => rw [memWrite_io v hp]; exact h.ioWrite (hio o hp) v
  | vram i =>
    rw [memWrite_vram v hp]
    split
    · exact h
    · exact ⟨h.launch, h.cpu, h.ppu, ⟨Memory.wf_write v hm.vram (hv i hp), hm.wram, hm.oam, hm.hram, hm.io,
        hm.xram, hm.rtc⟩, h.dma, h.bankA, h.bankB, h.overlay⟩
  | wram i =>
    rw [memWrite_wram v hp]
    exact ⟨h.launch, h.cpu, h.ppu, ⟨hm.vram, Memory.wf_write v hm.wram (hw i hp), hm.oam, hm.hram, hm.io,
      hm.xram, hm.rtc⟩, h.dma, h.bankA, h.bankB, h.overlay⟩
  | oam i =>
    rw [memWrite_oam v hp]
    exact ⟨h.launch, h.cpu, h.ppu, ⟨hm.vram, hm.wram, Memory.wf_write v hm.oam (ho i hp), hm.hram, hm.io,
      hm.xram, hm.rtc⟩, h.dma, h.bankA, h.bankB, h.overlay⟩
  | hram i =>
    rw [memWrite_hram v hp]
    exact ⟨h.launch, h.cpu, h.ppu, ⟨hm.vram, hm.wram, hm.oam, Memory.wf_write v hm.hram (hh i hp), hm.io,
      hm.xram, hm.rtc⟩, h.dma, h.bankA, h.bankB, h.overlay⟩
  | intEnable =>
    rw [memWrite_intEnable v hp]
    exact ⟨h.launch, h.cpu, h.ppu, ⟨hm.vram, hm.wram, hm.oam, hm.hram, hm.io, hm.xram, hm.rtc⟩, h.dma, h.bankA,
      h.bankB, h.overlay⟩

/-! ## The agents -/

/-- The DMA controller writes inside OAM only. -/
theorem dmaTick_oam_wf (ho : s.oam.wf 160 = true) : s.dmaTick.oam.wf 160 = true := by
  unfold dmaTick
  split
  · simp only
    split
    · next hk => exact Memory.wf_write _ ho (by omega)
    · exact ho
  · exact ho

theorem Sound.beginCycle (h : s.Sound) : s.beginCycle.Sound := by
  have hm := h.memories
  refine ⟨by simpa using h.launch, by simpa using h.cpu, ?_, ⟨?_, ?_, ?_, ?_, ?_, ?_, ?_⟩, ?_, ?_, ?_, ?_⟩
  · rw [beginCycle_ppu]; exact Ppu.tick_sound h.ppu
  · simpa using hm.vram
  · simpa using hm.wram
  · show s.hostInput.ppuTick.dmaTick.oam.wf 160 = true
    exact dmaTick_oam_wf (by simpa [ppuTick, hostInput_oam] using hm.oam)
  · simpa using hm.hram
  · simpa using hm.io
  · simpa using hm.xram
  · simpa using hm.rtc
  · rw [beginCycle_dma]; have := h.dma; simp only; omega
  · simpa using h.bankA
  · simpa using h.bankB
  · simpa using h.overlay

theorem Sound.endCycle (h : s.Sound) : s.endCycle.Sound := by
  have hm := h.memories
  have hp := h.ppu
  exact ⟨h.launch, h.cpu, ⟨hp.inMode, hp.wholeCycles, hp.line, hp.visible, hp.frame⟩,
    ⟨hm.vram, hm.wram, hm.oam, hm.hram, hm.io, hm.xram, hm.rtc⟩, h.dma, h.bankA, h.bankB, h.overlay⟩

/-- An M-cycle of the agents keeps the machine sound. -/
theorem Sound.cycle (h : s.Sound) : s.cycle.Sound := h.endCycle.beginCycle

theorem Sound.cycles (h : s.Sound) (k : Nat) : (s.cycles k).Sound := by
  induction k with
  | zero => exact h
  | succ k ih => exact ih.cycle

/-- After `DriverOr` no request output is left, so a sound machine meets the invariant between steps. -/
theorem Sound.inv_endCycle (h : s.Sound) : s.endCycle.Inv := ⟨h.endCycle, rfl, rfl, rfl⟩

/-! ## The CPU's shared operations -/

theorem Sound.busWrite (h : s.Sound) (a : Word) (v : Byte) : (s.busWrite a v).Sound := h.cycle.memWrite a v

theorem Sound.push16 (h : s.Sound) (v : Word) : (s.push16 v).Sound := by
  rw [push16_eq]
  refine ((h.cycle.memWrite _ _).cycle.memWrite _ _).setCpu ?_
  exact h.cpu.of_eq rfl rfl rfl rfl

theorem Sound.pop16 (h : s.Sound) : s.pop16.2.Sound := by
  rw [pop16_eq]
  exact (h.cycles 2).setCpu (h.cpu.of_eq rfl rfl rfl rfl)

theorem Sound.setReg8 (h : s.Sound) (r : Reg8) (v : Byte) : (s.setReg8 r v).Sound := by
  rw [setReg8_eq]
  exact h.setCpu (h.cpu.of_eq (by cases r <;> rfl) (by cases r <;> rfl) (by cases r <;> rfl) (by cases r <;> rfl))

theorem Sound.setPair (h : s.Sound) (p : Pair) (v : Word) : (s.setPair p v).Sound := by
  rw [setPair_eq]
  exact h.setCpu (h.cpu.of_eq (by cases p <;> rfl) (by cases p <;> rfl) (by cases p <;> rfl) (by cases p <;> rfl))

theorem Sound.setFlags (h : s.Sound) (z n hf c : Bool) : (s.setFlags z n hf c).Sound := by
  rw [setFlags_eq]
  exact h.setCpu (h.cpu.of_flags _ rfl rfl rfl rfl)

theorem Sound.setStackPair (h : s.Sound) (p : StackPair) (v : Word) : (s.setStackPair p v).Sound := by
  cases p
  case af => exact h.setCpu (h.cpu.of_flags _ rfl rfl rfl rfl)
  all_goals exact h.setCpu (h.cpu.of_eq rfl rfl rfl rfl)

theorem Sound.fetch8 (h : s.Sound) : s.fetch8.2.Sound := by
  rw [fetch8_eq]
  exact h.setCpu (h.cpu.of_eq rfl rfl rfl rfl)

theorem Sound.fetchMore (h : s.Sound) (n : Nat) : (s.fetchMore n).2.Sound := by
  induction n generalizing s with
  | zero => exact h
  | succ n ih => exact ih h.cycle.fetch8

theorem Sound.fetchInstr (h : s.Sound) : s.fetchInstr.2.Sound := by
  have hf := h.fetch8
  have hc := hf.setCpu (c := { s.fetch8.2.cpu with opcodeAddr := s.cpu.pc }) (hf.cpu.of_eq rfl rfl rfl rfl)
  exact hc.fetchMore _

theorem Sound.wake (h : s.Sound) : s.wake.Sound := by
  refine h.setCpu ⟨h.cpu.lowNibble, by simp, fun _ => ⟨rfl, rfl⟩⟩

theorem Sound.decideDispatch (h : s.Sound) (w : Irq) : (s.decideDispatch w).Sound := by
  unfold State.decideDispatch
  split
  · have hs := h.setCpu (c := { s.cpu with ime := false, pc := w.vector }) (h.cpu.of_eq rfl rfl rfl rfl)
    have hm := hs.memories
    exact ⟨hs.launch, hs.cpu, hs.ppu, ⟨hm.vram, hm.wram, hm.oam, hm.hram, hm.io, hm.xram, hm.rtc⟩, hs.dma,
      hs.bankA, hs.bankB, hs.overlay⟩
  · exact h.setCpu (h.cpu.of_eq rfl rfl rfl rfl)

/-- Taking an interrupt keeps the machine sound. -/
theorem Sound.dispatch (h : s.Sound) (w : Irq) : (s.dispatch w).Sound := by
  have h1 : (s.setImePending false).Sound := h.setCpu (h.cpu.of_eq rfl rfl rfl rfl)
  have h2 := h1.cycle
  have h4 := h2.push16 (s.setImePending false).cycle.cpu.pc
  exact (h4.decideDispatch w).cycle

/-- The completion rule keeps the machine sound. -/
theorem Sound.complete (h : s.Sound) (i : Instr) (armed : Bool) : (s.complete i armed).Sound := by
  unfold State.complete
  split
  · exact h
  · exact h.setCpu (h.cpu.of_eq rfl rfl rfl rfl)

end State

end Sys2Proof.Machine
end

