-- ==== Sys2Proof/Tests/Slice0.lean ====
section
/-! SUPPORT. Tests. Expected values come from the spec: its rules' examples (R<n>) and its vectors
(spec/95_test_vectors.md, V<n>); and for every obligation with hypotheses a state that meets them. -/

namespace Sys2Proof.Tests

open Sys2Proof.Machine

-- One theorem at a time: each waits for the kernel, and a thread for each would exhaust a machine's memory.
set_option Elab.async false

/-! ## Helpers -/

/-- A launch's values with every register 0, the start of the spec's vectors. -/
def zeros : PowerOn :=
  { PowerOn.default with a := 0, f := 0, b := 0, c := 0, d := 0, e := 0, h := 0, l := 0, sp := 0, lcdc := 0, bgp := 0 }

/-- Code in ROM from `pc` on, bytes stored in memory, the rest of the machine as `f` sets it. -/
def machine (pc : Nat) (code : List Byte) (pokes : List (Word × Byte)) (f : State → State) : State :=
  let put (m : Memory) (c : Byte × Nat) : Memory := m.write (pc + c.2) c.1
  let s := State.resetWith { Launch.default with rom := code.zipIdx.foldl put Launch.default.rom } zeros
  f (pokes.foldl (fun s p => s.memWrite p.1 p.2) (s.setPc (BitVec.ofNat 16 pc)))

/-- One step, of `m` M-cycles (the picture unit has counted four sub-ticks for each), to a state that passes the
check. -/
def stepped (pc : Nat) (code : List Byte) (pokes : List (Word × Byte)) (f : State → State) (m : Nat)
    (check : State → Bool) : Bool :=
  match step (machine pc code pokes f) with
  | .next t => t.ppu.modeTicks == 4 * m && check t
  | .fault _ => false
  | .refused _ => false

/-- Each byte list decodes to its instruction, with nothing left. -/
def decodeTo (rows : List (List Byte × Instr)) : Bool :=
  rows.all fun r =>
    match decode r.1 with
    | .ok (i, rest) => i == r.2 && rest.isEmpty
    | .error _ => false

/-! ## Well-formedness and decoding -/

/-- The one check of `wellFormed`: POP rr with p = 3 is not a form (R235). -/
theorem test_wellFormed_popAf : (Instr.popRr .af).wellFormed = false := by decide

/-- And it refuses nothing else of that shape. -/
theorem test_wellFormed_popRr :
    (Instr.popRr .bc).wellFormed && (Instr.popRr .de).wellFormed && (Instr.popRr .hl).wellFormed
      && Instr.popAf.wellFormed = true := by decide

/-- Bytes missing after the first one are refused, by name. -/
theorem test_decode_truncated :
    decode [] = .error .noBytes ∧ decode [0xC3, 0x50] = .error (.operandMissing 0xC3) := by decide

/-- The rows of x = 0 (R156). -/
theorem test_decode_x0 :
    decodeTo [([0x00], .nop), ([0x08, 0x00, 0xC1], .ldNnSp 0xC100), ([0x10, 0x00], .stop 0),
      ([0x18, 0x05], .jrE 0x05), ([0x38, 0xFC], .jrCcE .c 0xFC), ([0x21, 0x34, 0x12], .ldRrNn .hl 0x1234),
      ([0x39], .addHlRr .sp), ([0x02], .ldBcA), ([0x0A], .ldABc), ([0x12], .ldDeA), ([0x1A], .ldADe),
      ([0x22], .ldHliA), ([0x2A], .ldAHli), ([0x32], .ldHldA), ([0x3A], .ldAHld), ([0x13], .incRr .de),
      ([0x0B], .decRr .bc), ([0x2C], .incR .l), ([0x34], .incHl), ([0x3D], .decR .a), ([0x35], .decHl),
      ([0x26, 0x9C], .ldRN .h 0x9C), ([0x36, 0xAB], .ldHlN 0xAB), ([0x07], .rlca), ([0x0F], .rrca),
      ([0x17], .rla), ([0x1F], .rra), ([0x27], .daa), ([0x2F], .cpl), ([0x37], .scf),
      ([0x3F], .ccf)] = true := by decide +kernel

/-- The rows of x = 1 and x = 2, and the immediate ALU forms (R156). -/
theorem test_decode_x1_x2 :
    decodeTo [([0x41], .ldRR .b .c), ([0x56], .ldRHl .d), ([0x73], .ldHlR .e), ([0x76], .halt),
      ([0x81], .addAR .c), ([0x86], .addAHl), ([0xC6, 0x01], .addAN 0x01), ([0x8F], .adcAR .a),
      ([0x8E], .adcAHl), ([0xCE, 0x0F], .adcAN 0x0F), ([0x90], .subR .b), ([0x96], .subHl),
      ([0xD6, 0x40], .subN 0x40), ([0x9A], .sbcAR .d), ([0x9E], .sbcAHl), ([0xDE, 0xFF], .sbcAN 0xFF),
      ([0xA3], .andR .e), ([0xA6], .andHl), ([0xE6, 0x81], .andN 0x81), ([0xAF], .xorR .a), ([0xAE], .xorHl),
      ([0xEE, 0xFF], .xorN 0xFF), ([0xB4], .orR .h), ([0xB6], .orHl), ([0xF6, 0x80], .orN 0x80),
      ([0xBD], .cpR .l), ([0xBE], .cpHl), ([0xFE, 0x40], .cpN 0x40)] = true := by decide +kernel

/-- The rows of x = 3 and the eleven illegal opcodes (R156, R158). -/
theorem test_decode_x3 :
    decodeTo [([0xD0], .retCc .nc), ([0xE0, 0x46], .ldhNA 0x46), ([0xE8, 0xFE], .addSpE 0xFE),
      ([0xF0, 0x44], .ldhAN 0x44), ([0xF8, 0x08], .ldHlSpE 0x08), ([0xD1], .popRr .de), ([0xF1], .popAf),
      ([0xC9], .ret), ([0xD9], .reti), ([0xE9], .jpHl), ([0xF9], .ldSpHl),
      ([0xCA, 0x00, 0x02], .jpCcNn .z 0x0200), ([0xE2], .ldhCA), ([0xEA, 0xFF, 0xFF], .ldNnA 0xFFFF),
      ([0xF2], .ldhAC), ([0xFA, 0x44, 0xFF], .ldANn 0xFF44), ([0xC3, 0x50, 0x01], .jpNn 0x0150), ([0xF3], .di),
      ([0xFB], .ei), ([0xC4, 0x34, 0x12], .callCcNn .nz 0x1234), ([0xF5], .pushRr .af),
      ([0xCD, 0x00, 0x20], .callNn 0x2000), ([0xEF], .rstT 5), ([0xD3], .illegalD3), ([0xDB], .illegalDB),
      ([0xDD], .illegalDD), ([0xE3], .illegalE3), ([0xE4], .illegalE4), ([0xEB], .illegalEB),
      ([0xEC], .illegalEC), ([0xED], .illegalED), ([0xF4], .illegalF4), ([0xFC], .illegalFC),
      ([0xFD], .illegalFD)] = true := by decide +kernel

/-- The prefix alone and the extended table (R157); 0xCB 0xCB is SET 1,E (R155). -/
theorem test_decode_extended :
    decodeTo [([0xCB], .prefixCB), ([0xCB, 0x00], .rlcR .b), ([0xCB, 0x06], .rlcHl), ([0xCB, 0x09], .rrcR .c),
      ([0xCB, 0x0E], .rrcHl), ([0xCB, 0x15], .rlR .l), ([0xCB, 0x16], .rlHl), ([0xCB, 0x1F], .rrR .a),
      ([0xCB, 0x1E], .rrHl), ([0xCB, 0x22], .slaR .d), ([0xCB, 0x26], .slaHl), ([0xCB, 0x2F], .sraR .a),
      ([0xCB, 0x2E], .sraHl), ([0xCB, 0x37], .swapR .a), ([0xCB, 0x36], .swapHl), ([0xCB, 0x38], .srlR .b),
      ([0xCB, 0x3E], .srlHl), ([0xCB, 0x7F], .bitBR 7 .a), ([0xCB, 0x5E], .bitBHl 3),
      ([0xCB, 0x87], .resBR 0 .a), ([0xCB, 0x9E], .resBHl 3), ([0xCB, 0xCB], .setBR 1 .e),
      ([0xCB, 0xFE], .setBHl 7)] = true := by decide +kernel

/-! ## One step of each instruction -/

/-- V46.1. -/
theorem test_nop :
    stepped 0x0100 [0x00] [] (fun s => s) 1
      (fun t => t.cpu.pc == 0x0101) = true := by
  decide +kernel

/-- V41.3. -/
theorem test_ldNnSp :
    stepped 0x0100 [0x08, 0x00, 0xC1] [] (fun s => { s with cpu := { s.cpu with sp := 0xBEEF } }) 5
      (fun t => t.cpu.pc == 0x0103 && t.memRead 0xC100 == 0xEF && t.memRead 0xC101 == 0xBE) = true := by
  decide +kernel

/-- V46.14. -/
theorem test_stop :
    stepped 0x0100 [0x10, 0x00] [] (fun s => s) 2
      (fun t => t.cpu.pc == 0x0102 && t.cpu.stopped) = true := by
  decide +kernel

/-- V46.15. -/
theorem test_stop_2 :
    stepped 0x0100 [0x10, 0x00] [] (fun s => { s with key1 := { s.key1 with speedArmed := true } }) 2
      (fun t => t.cpu.pc == 0x0102 && !t.cpu.stopped && t.key1.doubleSpeed && !t.key1.speedArmed) = true := by
  decide +kernel

/-- V45.7. -/
theorem test_jrE :
    stepped 0x0100 [0x18, 0x05] [] (fun s => s) 3
      (fun t => t.cpu.pc == 0x0107) = true := by
  decide +kernel

/-- V45.8. -/
theorem test_jrE_2 :
    stepped 0x0100 [0x18, 0xFE] [] (fun s => s) 3
      (fun t => t.cpu.pc == 0x0100) = true := by
  decide +kernel

/-- V45.12. -/
theorem test_jrCcE :
    stepped 0x0100 [0x20, 0x10] [] (fun s => { s with cpu := { s.cpu with f := 0x80 } }) 2
      (fun t => t.cpu.pc == 0x0102) = true := by
  decide +kernel

/-- V45.13. -/
theorem test_jrCcE_2 :
    stepped 0x0100 [0x28, 0x10] [] (fun s => { s with cpu := { s.cpu with f := 0x80 } }) 3
      (fun t => t.cpu.pc == 0x0112) = true := by
  decide +kernel

/-- V41.1. -/
theorem test_ldRrNn :
    stepped 0x0100 [0x01, 0x34, 0x12] [] (fun s => s) 3
      (fun t => t.cpu.b == 0x12 && t.cpu.c == 0x34 && t.cpu.pc == 0x0103) = true := by
  decide +kernel

/-- V41.2. -/
theorem test_ldRrNn_2 :
    stepped 0x0100 [0x31, 0xFE, 0xFF] [] (fun s => s) 3
      (fun t => t.cpu.sp == 0xFFFE && t.cpu.pc == 0x0103) = true := by
  decide +kernel

/-- V43.1. -/
theorem test_addHlRr :
    stepped 0x0100 [0x09] []
      (fun s => { s with cpu := { s.cpu with h := 0x0F, l := 0xFF, b := 0x00, c := 0x01, f := 0x80 } }) 2
      (fun t => t.cpu.f == 0xA0 && t.cpu.h == 0x10 && t.cpu.l == 0x00 && t.cpu.pc == 0x0101) = true := by
  decide +kernel

/-- V43.2. -/
theorem test_addHlRr_2 :
    stepped 0x0100 [0x29] [] (fun s => { s with cpu := { s.cpu with h := 0x80, l := 0x00, f := 0x00 } }) 2
      (fun t => t.cpu.f == 0x10 && t.cpu.h == 0x00 && t.cpu.l == 0x00 && t.cpu.pc == 0x0101) = true := by
  decide +kernel

/-- V40.10. -/
theorem test_ldBcA :
    stepped 0x0100 [0x02] [] (fun s => { s with cpu := { s.cpu with a := 0x33, b := 0xC0, c := 0x02 } }) 2
      (fun t => t.cpu.pc == 0x0101 && t.memRead 0xC002 == 0x33) = true := by
  decide +kernel

/-- V40.8. -/
theorem test_ldABc :
    stepped 0x0100 [0x0A] [(0xC001, 0x42)] (fun s => { s with cpu := { s.cpu with b := 0xC0, c := 0x01 } }) 2
      (fun t => t.cpu.a == 0x42 && t.cpu.pc == 0x0101) = true := by
  decide +kernel

/-- V40.11. -/
theorem test_ldDeA :
    stepped 0x0100 [0x12] [] (fun s => { s with cpu := { s.cpu with a := 0x34, d := 0x00, e := 0x10 } }) 2
      (fun t => t.cpu.pc == 0x0101 && t.memRead 0x0010 == 0x00) = true := by
  decide +kernel

/-- V40.9. -/
theorem test_ldADe :
    stepped 0x0100 [0x1A] [(0xC001, 0x42)] (fun s => { s with cpu := { s.cpu with d := 0xE0, e := 0x01 } }) 2
      (fun t => t.cpu.a == 0x42 && t.cpu.pc == 0x0101) = true := by
  decide +kernel

/-- V40.21. -/
theorem test_ldHliA :
    stepped 0x0100 [0x22] [] (fun s => { s with cpu := { s.cpu with a := 0x77, h := 0xC0, l := 0xFF } }) 2
      (fun t => t.cpu.h == 0xC1 && t.cpu.l == 0x00 && t.cpu.pc == 0x0101 && t.memRead 0xC0FF == 0x77) = true := by
  decide +kernel

/-- V40.20. -/
theorem test_ldAHli :
    stepped 0x0100 [0x2A] [] (fun s => { s with cpu := { s.cpu with h := 0xFF, l := 0xFF }, intEnable := 0x15 }) 2
      (fun t => t.cpu.a == 0x15 && t.cpu.h == 0x00 && t.cpu.l == 0x00 && t.cpu.pc == 0x0101) = true := by
  decide +kernel

/-- V40.19. -/
theorem test_ldHldA :
    stepped 0x0100 [0x32] [] (fun s => { s with cpu := { s.cpu with a := 0x9A, h := 0x00, l := 0x00 } }) 2
      (fun t => t.cpu.h == 0xFF && t.cpu.l == 0xFF && t.cpu.pc == 0x0101) = true := by
  decide +kernel

/-- V40.18. -/
theorem test_ldAHld :
    stepped 0x0100 [0x3A] [(0xC000, 0x12)] (fun s => { s with cpu := { s.cpu with h := 0xC0, l := 0x00 } }) 2
      (fun t => t.cpu.a == 0x12 && t.cpu.h == 0xBF && t.cpu.l == 0xFF && t.cpu.pc == 0x0101) = true := by
  decide +kernel

/-- V43.5. -/
theorem test_incRr :
    stepped 0x0100 [0x03] [] (fun s => { s with cpu := { s.cpu with b := 0xFF, c := 0xFF, f := 0xF0 } }) 2
      (fun t => t.cpu.f == 0xF0 && t.cpu.b == 0x00 && t.cpu.c == 0x00 && t.cpu.pc == 0x0101) = true := by
  decide +kernel

/-- V43.6. -/
theorem test_incRr_2 :
    stepped 0x0100 [0x33] [] (fun s => { s with cpu := { s.cpu with sp := 0xFFFF } }) 2
      (fun t => t.cpu.sp == 0x0000 && t.cpu.pc == 0x0101) = true := by
  decide +kernel

/-- V43.7. -/
theorem test_decRr :
    stepped 0x0100 [0x2B] [] (fun s => { s with cpu := { s.cpu with h := 0x00, l := 0x00, f := 0x00 } }) 2
      (fun t => t.cpu.f == 0x00 && t.cpu.h == 0xFF && t.cpu.l == 0xFF && t.cpu.pc == 0x0101) = true := by
  decide +kernel

/-- V43.8. -/
theorem test_decRr_2 :
    stepped 0x0100 [0x1B] [] (fun s => { s with cpu := { s.cpu with d := 0x10, e := 0x00 } }) 2
      (fun t => t.cpu.d == 0x0F && t.cpu.e == 0xFF && t.cpu.pc == 0x0101) = true := by
  decide +kernel

/-- V42.24. -/
theorem test_incR :
    stepped 0x0100 [0x3C] [] (fun s => { s with cpu := { s.cpu with a := 0xFF, f := 0x10 } }) 1
      (fun t => t.cpu.a == 0x00 && t.cpu.f == 0xB0 && t.cpu.pc == 0x0101) = true := by
  decide +kernel

/-- V42.25. -/
theorem test_incR_2 :
    stepped 0x0100 [0x04] [] (fun s => { s with cpu := { s.cpu with b := 0x0F, f := 0x00 } }) 1
      (fun t => t.cpu.f == 0x20 && t.cpu.b == 0x10 && t.cpu.pc == 0x0101) = true := by
  decide +kernel

/-- V42.26. -/
theorem test_incHl :
    stepped 0x0100 [0x34] [(0xC000, 0xFF)]
      (fun s => { s with cpu := { s.cpu with h := 0xC0, l := 0x00, f := 0x10 } }) 3
      (fun t => t.cpu.f == 0xB0 && t.cpu.pc == 0x0101 && t.memRead 0xC000 == 0x00) = true := by
  decide +kernel

/-- V42.27. -/
theorem test_decR :
    stepped 0x0100 [0x05] [] (fun s => { s with cpu := { s.cpu with b := 0x01, f := 0x10 } }) 1
      (fun t => t.cpu.f == 0xD0 && t.cpu.b == 0x00 && t.cpu.pc == 0x0101) = true := by
  decide +kernel

/-- V42.28. -/
theorem test_decR_2 :
    stepped 0x0100 [0x3D] [] (fun s => { s with cpu := { s.cpu with a := 0x00 } }) 1
      (fun t => t.cpu.a == 0xFF && t.cpu.f == 0x60 && t.cpu.pc == 0x0101) = true := by
  decide +kernel

/-- V42.30. -/
theorem test_decHl :
    stepped 0x0100 [0x35] [(0xC000, 0x00)] (fun s => { s with cpu := { s.cpu with h := 0xC0, l := 0x00 } }) 3
      (fun t => t.cpu.f == 0x60 && t.cpu.pc == 0x0101 && t.memRead 0xC000 == 0xFF) = true := by
  decide +kernel

/-- V40.3. -/
theorem test_ldRN :
    stepped 0x0100 [0x06, 0xAB] [] (fun s => { s with cpu := { s.cpu with b := 0x00 } }) 2
      (fun t => t.cpu.b == 0xAB && t.cpu.pc == 0x0102) = true := by
  decide +kernel

/-- V40.7. -/
theorem test_ldHlN :
    stepped 0x0100 [0x36, 0x5C] [] (fun s => { s with cpu := { s.cpu with h := 0xDF, l := 0xFF } }) 3
      (fun t => t.cpu.pc == 0x0102 && t.memRead 0xDFFF == 0x5C) = true := by
  decide +kernel

/-- V44.1. -/
theorem test_rlca :
    stepped 0x0100 [0x07] [] (fun s => { s with cpu := { s.cpu with a := 0x80, f := 0xE0 } }) 1
      (fun t => t.cpu.a == 0x01 && t.cpu.f == 0x10 && t.cpu.pc == 0x0101) = true := by
  decide +kernel

/-- V44.2. -/
theorem test_rlca_2 :
    stepped 0x0100 [0x07] [] (fun s => { s with cpu := { s.cpu with a := 0x00, f := 0xF0 } }) 1
      (fun t => t.cpu.a == 0x00 && t.cpu.f == 0x00 && t.cpu.pc == 0x0101) = true := by
  decide +kernel

/-- V44.3. -/
theorem test_rrca :
    stepped 0x0100 [0x0F] [] (fun s => { s with cpu := { s.cpu with a := 0x01 } }) 1
      (fun t => t.cpu.a == 0x80 && t.cpu.f == 0x10 && t.cpu.pc == 0x0101) = true := by
  decide +kernel

/-- V44.4. -/
theorem test_rla :
    stepped 0x0100 [0x17] [] (fun s => { s with cpu := { s.cpu with a := 0x80, f := 0x00 } }) 1
      (fun t => t.cpu.a == 0x00 && t.cpu.f == 0x10 && t.cpu.pc == 0x0101) = true := by
  decide +kernel

/-- V44.5. -/
theorem test_rla_2 :
    stepped 0x0100 [0x17] [] (fun s => { s with cpu := { s.cpu with a := 0x00, f := 0x10 } }) 1
      (fun t => t.cpu.a == 0x01 && t.cpu.f == 0x00 && t.cpu.pc == 0x0101) = true := by
  decide +kernel

/-- V44.6. -/
theorem test_rra :
    stepped 0x0100 [0x1F] [] (fun s => { s with cpu := { s.cpu with a := 0x01, f := 0x00 } }) 1
      (fun t => t.cpu.a == 0x00 && t.cpu.f == 0x10 && t.cpu.pc == 0x0101) = true := by
  decide +kernel

/-- V44.7. -/
theorem test_rra_2 :
    stepped 0x0100 [0x1F] [] (fun s => { s with cpu := { s.cpu with a := 0x00, f := 0x10 } }) 1
      (fun t => t.cpu.a == 0x80 && t.cpu.f == 0x00 && t.cpu.pc == 0x0101) = true := by
  decide +kernel

/-- V42.32. -/
theorem test_daa :
    stepped 0x0100 [0x27] [] (fun s => { s with cpu := { s.cpu with a := 0x9A } }) 1
      (fun t => t.cpu.a == 0x00 && t.cpu.f == 0x90 && t.cpu.pc == 0x0101) = true := by
  decide +kernel

/-- V42.36. -/
theorem test_daa_2 :
    stepped 0x0100 [0x27] [] (fun s => { s with cpu := { s.cpu with a := 0x00 } }) 1
      (fun t => t.cpu.a == 0x00 && t.cpu.f == 0x80 && t.cpu.pc == 0x0101) = true := by
  decide +kernel

/-- V42.37. -/
theorem test_cpl :
    stepped 0x0100 [0x2F] [] (fun s => { s with cpu := { s.cpu with a := 0xFF, f := 0x80 } }) 1
      (fun t => t.cpu.a == 0x00 && t.cpu.f == 0xE0 && t.cpu.pc == 0x0101) = true := by
  decide +kernel

/-- V42.38. -/
theorem test_scf :
    stepped 0x0100 [0x37] [] (fun s => { s with cpu := { s.cpu with f := 0xE0 } }) 1
      (fun t => t.cpu.f == 0x90 && t.cpu.pc == 0x0101) = true := by
  decide +kernel

/-- V42.39. -/
theorem test_ccf :
    stepped 0x0100 [0x3F] [] (fun s => { s with cpu := { s.cpu with f := 0xF0 } }) 1
      (fun t => t.cpu.f == 0x80 && t.cpu.pc == 0x0101) = true := by
  decide +kernel

/-- V42.40. -/
theorem test_ccf_2 :
    stepped 0x0100 [0x3F] [] (fun s => { s with cpu := { s.cpu with f := 0x00 } }) 1
      (fun t => t.cpu.f == 0x10 && t.cpu.pc == 0x0101) = true := by
  decide +kernel

/-- V40.1. -/
theorem test_ldRR :
    stepped 0x0100 [0x41] [] (fun s => { s with cpu := { s.cpu with b := 0x11, c := 0x22 } }) 1
      (fun t => t.cpu.b == 0x22 && t.cpu.pc == 0x0101) = true := by
  decide +kernel

/-- V40.2. -/
theorem test_ldRR_2 :
    stepped 0x0100 [0x7F] [] (fun s => { s with cpu := { s.cpu with a := 0x5A, f := 0xF0 } }) 1
      (fun t => t.cpu.a == 0x5A && t.cpu.pc == 0x0101) = true := by
  decide +kernel

/-- V40.4. -/
theorem test_ldRHl :
    stepped 0x0100 [0x7E] [(0xC010, 0x99)] (fun s => { s with cpu := { s.cpu with h := 0xC0, l := 0x10 } }) 2
      (fun t => t.cpu.a == 0x99 && t.cpu.pc == 0x0101) = true := by
  decide +kernel

/-- V40.5. -/
theorem test_ldHlR :
    stepped 0x0100 [0x70] [] (fun s => { s with cpu := { s.cpu with b := 0x77, h := 0xC0, l := 0x20 } }) 2
      (fun t => t.cpu.pc == 0x0101 && t.memRead 0xC020 == 0x77) = true := by
  decide +kernel

/-- V40.6. -/
theorem test_ldHlR_2 :
    stepped 0x0100 [0x74] [] (fun s => { s with cpu := { s.cpu with h := 0xC1, l := 0x23 } }) 2
      (fun t => t.cpu.pc == 0x0101 && t.memRead 0xC123 == 0xC1) = true := by
  decide +kernel

/-- V46.9. -/
theorem test_halt :
    stepped 0x0100 [0x76] [] (fun s => { s with cpu := { s.cpu with ime := true } }) 1
      (fun t => t.cpu.pc == 0x0101 && t.cpu.halted) = true := by
  decide +kernel

/-- V46.10. -/
theorem test_halt_2 :
    stepped 0x0100 [0x76] [] (fun s => s) 1
      (fun t => t.cpu.pc == 0x0101 && t.cpu.halted && t.cpu.haltBug) = true := by
  decide +kernel

/-- V42.1. -/
theorem test_addAR :
    stepped 0x0100 [0x80] [] (fun s => { s with cpu := { s.cpu with a := 0x0F, b := 0x01 } }) 1
      (fun t => t.cpu.a == 0x10 && t.cpu.f == 0x20 && t.cpu.pc == 0x0101) = true := by
  decide +kernel

/-- V42.4. -/
theorem test_addAR_2 :
    stepped 0x0100 [0x87] [] (fun s => { s with cpu := { s.cpu with a := 0x80 } }) 1
      (fun t => t.cpu.a == 0x00 && t.cpu.f == 0x90 && t.cpu.pc == 0x0101) = true := by
  decide +kernel

/-- V42.5. -/
theorem test_addAHl :
    stepped 0x0100 [0x86] [(0xC000, 0xC6)]
      (fun s => { s with cpu := { s.cpu with a := 0x3A, h := 0xC0, l := 0x00 } }) 2
      (fun t => t.cpu.a == 0x00 && t.cpu.f == 0xB0 && t.cpu.pc == 0x0101) = true := by
  decide +kernel

/-- V42.3. -/
theorem test_addAN :
    stepped 0x0100 [0xC6, 0x01] [] (fun s => { s with cpu := { s.cpu with a := 0xFF } }) 2
      (fun t => t.cpu.a == 0x00 && t.cpu.f == 0xB0 && t.cpu.pc == 0x0102) = true := by
  decide +kernel

/-- V42.6. -/
theorem test_adcAR :
    stepped 0x0100 [0x88] [] (fun s => { s with cpu := { s.cpu with a := 0x0F, b := 0x00, f := 0x10 } }) 1
      (fun t => t.cpu.a == 0x10 && t.cpu.f == 0x20 && t.cpu.pc == 0x0101) = true := by
  decide +kernel

/-- Example of R252. -/
theorem test_adcAHl :
    stepped 0x0100 [0x8E] [(0xC000, 0x0F)]
      (fun s => { s with cpu := { s.cpu with a := 0xE1, f := 0x10, h := 0xC0, l := 0x00 } }) 2
      (fun t => t.cpu.a == 0xF1 && t.cpu.f == 0x20) = true := by
  decide +kernel

/-- V42.7. -/
theorem test_adcAN :
    stepped 0x0100 [0xCE, 0xFF] [] (fun s => { s with cpu := { s.cpu with a := 0x00, f := 0x10 } }) 2
      (fun t => t.cpu.a == 0x00 && t.cpu.f == 0xB0 && t.cpu.pc == 0x0102) = true := by
  decide +kernel

/-- V42.8. -/
theorem test_adcAN_2 :
    stepped 0x0100 [0xCE, 0x0F] [] (fun s => { s with cpu := { s.cpu with a := 0xF0, f := 0x10 } }) 2
      (fun t => t.cpu.a == 0x00 && t.cpu.f == 0xB0 && t.cpu.pc == 0x0102) = true := by
  decide +kernel

/-- V42.2. -/
theorem test_subR :
    stepped 0x0100 [0x90] [] (fun s => { s with cpu := { s.cpu with a := 0x00, b := 0x01 } }) 1
      (fun t => t.cpu.a == 0xFF && t.cpu.f == 0x70 && t.cpu.pc == 0x0101) = true := by
  decide +kernel

/-- V42.9. -/
theorem test_subR_2 :
    stepped 0x0100 [0x97] [] (fun s => { s with cpu := { s.cpu with a := 0x5C, f := 0x10 } }) 1
      (fun t => t.cpu.a == 0x00 && t.cpu.f == 0xC0 && t.cpu.pc == 0x0101) = true := by
  decide +kernel

/-- Example of R253. -/
theorem test_subHl :
    stepped 0x0100 [0x96] [(0xC000, 0x01)]
      (fun s => { s with cpu := { s.cpu with a := 0x00, h := 0xC0, l := 0x00 } }) 2
      (fun t => t.cpu.a == 0xFF && t.cpu.f == 0x70) = true := by
  decide +kernel

/-- V42.10. -/
theorem test_subN :
    stepped 0x0100 [0xD6, 0x0F] [] (fun s => { s with cpu := { s.cpu with a := 0x10 } }) 2
      (fun t => t.cpu.a == 0x01 && t.cpu.f == 0x60 && t.cpu.pc == 0x0102) = true := by
  decide +kernel

/-- V42.11. -/
theorem test_sbcAR :
    stepped 0x0100 [0x98] [] (fun s => { s with cpu := { s.cpu with a := 0x00, b := 0x00, f := 0x10 } }) 1
      (fun t => t.cpu.a == 0xFF && t.cpu.f == 0x70 && t.cpu.pc == 0x0101) = true := by
  decide +kernel

/-- V42.13. -/
theorem test_sbcAR_2 :
    stepped 0x0100 [0x9F] [] (fun s => { s with cpu := { s.cpu with a := 0x77, f := 0x10 } }) 1
      (fun t => t.cpu.a == 0xFF && t.cpu.f == 0x70 && t.cpu.pc == 0x0101) = true := by
  decide +kernel

/-- Example of R254. -/
theorem test_sbcAHl :
    stepped 0x0100 [0x9E] [(0xC000, 0x2A)]
      (fun s => { s with cpu := { s.cpu with a := 0x3B, f := 0x10, h := 0xC0, l := 0x00 } }) 2
      (fun t => t.cpu.a == 0x10 && t.cpu.f == 0x40) = true := by
  decide +kernel

/-- V42.12. -/
theorem test_sbcAN :
    stepped 0x0100 [0xDE, 0x0F] [] (fun s => { s with cpu := { s.cpu with a := 0x10, f := 0x10 } }) 2
      (fun t => t.cpu.a == 0x00 && t.cpu.f == 0xE0 && t.cpu.pc == 0x0102) = true := by
  decide +kernel

/-- V42.14. -/
theorem test_sbcAN_2 :
    stepped 0x0100 [0xDE, 0xFF] [] (fun s => { s with cpu := { s.cpu with a := 0x00, f := 0x10 } }) 2
      (fun t => t.cpu.a == 0x00 && t.cpu.f == 0xF0 && t.cpu.pc == 0x0102) = true := by
  decide +kernel

/-- V42.15. -/
theorem test_andR :
    stepped 0x0100 [0xA0] [] (fun s => { s with cpu := { s.cpu with a := 0xF0, b := 0x0F, f := 0x50 } }) 1
      (fun t => t.cpu.a == 0x00 && t.cpu.f == 0xA0 && t.cpu.pc == 0x0101) = true := by
  decide +kernel

/-- Example of R255. -/
theorem test_andHl :
    stepped 0x0100 [0xA6] [(0xC000, 0x3F)]
      (fun s => { s with cpu := { s.cpu with a := 0x5A, h := 0xC0, l := 0x00 } }) 2
      (fun t => t.cpu.a == 0x1A && t.cpu.f == 0x20) = true := by
  decide +kernel

/-- V42.16. -/
theorem test_andN :
    stepped 0x0100 [0xE6, 0x81] [] (fun s => { s with cpu := { s.cpu with a := 0xC3 } }) 2
      (fun t => t.cpu.a == 0x81 && t.cpu.f == 0x20 && t.cpu.pc == 0x0102) = true := by
  decide +kernel

/-- V42.17. -/
theorem test_xorR :
    stepped 0x0100 [0xAF] [] (fun s => { s with cpu := { s.cpu with a := 0x99, f := 0xF0 } }) 1
      (fun t => t.cpu.a == 0x00 && t.cpu.f == 0x80 && t.cpu.pc == 0x0101) = true := by
  decide +kernel

/-- Example of R256. -/
theorem test_xorHl :
    stepped 0x0100 [0xAE] [(0xC000, 0x0F)]
      (fun s => { s with cpu := { s.cpu with a := 0xFF, h := 0xC0, l := 0x00 } }) 2
      (fun t => t.cpu.a == 0xF0 && t.cpu.f == 0x00) = true := by
  decide +kernel

/-- V42.18. -/
theorem test_xorN :
    stepped 0x0100 [0xEE, 0xFF] [] (fun s => { s with cpu := { s.cpu with a := 0x0F } }) 2
      (fun t => t.cpu.a == 0xF0 && t.cpu.f == 0x00 && t.cpu.pc == 0x0102) = true := by
  decide +kernel

/-- V42.19. -/
theorem test_orR :
    stepped 0x0100 [0xB1] [] (fun s => { s with cpu := { s.cpu with a := 0x00, c := 0x00, f := 0x70 } }) 1
      (fun t => t.cpu.a == 0x00 && t.cpu.f == 0x80 && t.cpu.pc == 0x0101) = true := by
  decide +kernel

/-- Example of R257. -/
theorem test_orHl :
    stepped 0x0100 [0xB6] [(0xC000, 0x03)]
      (fun s => { s with cpu := { s.cpu with a := 0x5A, h := 0xC0, l := 0x00 } }) 2
      (fun t => t.cpu.a == 0x5B && t.cpu.f == 0x00) = true := by
  decide +kernel

/-- V42.20. -/
theorem test_orN :
    stepped 0x0100 [0xF6, 0x80] [] (fun s => { s with cpu := { s.cpu with a := 0x01 } }) 2
      (fun t => t.cpu.a == 0x81 && t.cpu.f == 0x00 && t.cpu.pc == 0x0102) = true := by
  decide +kernel

/-- V42.21. -/
theorem test_cpR :
    stepped 0x0100 [0xB8] [] (fun s => { s with cpu := { s.cpu with a := 0x3C, b := 0x3C } }) 1
      (fun t => t.cpu.a == 0x3C && t.cpu.f == 0xC0 && t.cpu.pc == 0x0101) = true := by
  decide +kernel

/-- Example of R258. -/
theorem test_cpHl :
    stepped 0x0100 [0xBE] [(0xC000, 0x40)]
      (fun s => { s with cpu := { s.cpu with a := 0x3C, h := 0xC0, l := 0x00 } }) 2
      (fun t => t.cpu.a == 0x3C && t.cpu.f == 0x50) = true := by
  decide +kernel

/-- V42.22. -/
theorem test_cpN :
    stepped 0x0100 [0xFE, 0x40] [] (fun s => { s with cpu := { s.cpu with a := 0x3C } }) 2
      (fun t => t.cpu.a == 0x3C && t.cpu.f == 0x50 && t.cpu.pc == 0x0102) = true := by
  decide +kernel

/-- V42.23. -/
theorem test_cpN_2 :
    stepped 0x0100 [0xFE, 0x2F] [] (fun s => { s with cpu := { s.cpu with a := 0x3C } }) 2
      (fun t => t.cpu.a == 0x3C && t.cpu.f == 0x60 && t.cpu.pc == 0x0102) = true := by
  decide +kernel

/-- V45.20. -/
theorem test_retCc :
    stepped 0x0100 [0xC0] [(0xC100, 0x78), (0xC101, 0x56)]
      (fun s => { s with cpu := { s.cpu with sp := 0xC100, f := 0x80 } }) 2
      (fun t => t.cpu.pc == 0x0101) = true := by
  decide +kernel

/-- V45.21. -/
theorem test_retCc_2 :
    stepped 0x0100 [0xC8] [(0xC100, 0x78), (0xC101, 0x56)]
      (fun s => { s with cpu := { s.cpu with sp := 0xC100, f := 0x80 } }) 5
      (fun t => t.cpu.sp == 0xC102 && t.cpu.pc == 0x5678) = true := by
  decide +kernel

/-- V40.17. -/
theorem test_ldhNA :
    stepped 0x0100 [0xE0, 0x85] [] (fun s => { s with cpu := { s.cpu with a := 0xA5 } }) 3
      (fun t => t.cpu.pc == 0x0102 && t.memRead 0xFF85 == 0xA5) = true := by
  decide +kernel

/-- V43.9. -/
theorem test_addSpE :
    stepped 0x0100 [0xE8, 0x01] [] (fun s => { s with cpu := { s.cpu with sp := 0xFFFF, f := 0xC0 } }) 4
      (fun t => t.cpu.f == 0x30 && t.cpu.sp == 0x0000 && t.cpu.pc == 0x0102) = true := by
  decide +kernel

/-- V43.10. -/
theorem test_addSpE_2 :
    stepped 0x0100 [0xE8, 0xFF] [] (fun s => { s with cpu := { s.cpu with sp := 0x0000 } }) 4
      (fun t => t.cpu.f == 0x00 && t.cpu.sp == 0xFFFF && t.cpu.pc == 0x0102) = true := by
  decide +kernel

/-- V40.16. -/
theorem test_ldhAN :
    stepped 0x0100 [0xF0, 0x0F] [] (fun s => { s with intFlag := 0x5 }) 3
      (fun t => t.cpu.a == 0xE5 && t.cpu.pc == 0x0102) = true := by
  decide +kernel

/-- V41.5. -/
theorem test_ldHlSpE :
    stepped 0x0100 [0xF8, 0x02] [] (fun s => { s with cpu := { s.cpu with sp := 0xFFFE, f := 0xF0 } }) 3
      (fun t => t.cpu.f == 0x30 && t.cpu.h == 0x00 && t.cpu.l == 0x00 && t.cpu.pc == 0x0102) = true := by
  decide +kernel

/-- V41.6. -/
theorem test_ldHlSpE_2 :
    stepped 0x0100 [0xF8, 0xFF] [] (fun s => { s with cpu := { s.cpu with sp := 0x0000, f := 0x80 } }) 3
      (fun t => t.cpu.f == 0x00 && t.cpu.h == 0xFF && t.cpu.l == 0xFF && t.cpu.pc == 0x0102) = true := by
  decide +kernel

/-- V41.12. -/
theorem test_popRr :
    stepped 0x0100 [0xD1] [(0xC100, 0xCD), (0xC101, 0xAB)]
      (fun s => { s with cpu := { s.cpu with sp := 0xC100 } }) 3
      (fun t => t.cpu.d == 0xAB && t.cpu.e == 0xCD && t.cpu.sp == 0xC102 && t.cpu.pc == 0x0101) = true := by
  decide +kernel

/-- V41.13. -/
theorem test_popAf :
    stepped 0x0100 [0xF1] [(0xC100, 0xFF), (0xC101, 0x12)]
      (fun s => { s with cpu := { s.cpu with sp := 0xC100 } }) 3
      (fun t => t.cpu.a == 0x12 && t.cpu.f == 0xF0 && t.cpu.sp == 0xC102 && t.cpu.pc == 0x0101) = true := by
  decide +kernel

/-- V45.19. -/
theorem test_ret :
    stepped 0x0100 [0xC9] [(0xC100, 0x78), (0xC101, 0x56)]
      (fun s => { s with cpu := { s.cpu with sp := 0xC100 } }) 4
      (fun t => t.cpu.sp == 0xC102 && t.cpu.pc == 0x5678) = true := by
  decide +kernel

/-- V45.22. -/
theorem test_reti :
    stepped 0x0100 [0xD9] [(0xC100, 0x78), (0xC101, 0x56)]
      (fun s => { s with cpu := { s.cpu with sp := 0xC100 } }) 4
      (fun t => t.cpu.sp == 0xC102 && t.cpu.pc == 0x5678 && t.cpu.ime) = true := by
  decide +kernel

/-- V45.6. -/
theorem test_jpHl :
    stepped 0x0100 [0xE9] [] (fun s => { s with cpu := { s.cpu with h := 0xC1, l := 0x23 } }) 1
      (fun t => t.cpu.pc == 0xC123) = true := by
  decide +kernel

/-- V41.4. -/
theorem test_ldSpHl :
    stepped 0x0100 [0xF9] [] (fun s => { s with cpu := { s.cpu with h := 0xD0, l := 0x00 } }) 2
      (fun t => t.cpu.sp == 0xD000 && t.cpu.pc == 0x0101) = true := by
  decide +kernel

/-- V45.2. -/
theorem test_jpCcNn :
    stepped 0x0100 [0xC2, 0x00, 0x20] [] (fun s => { s with cpu := { s.cpu with f := 0x80 } }) 3
      (fun t => t.cpu.pc == 0x0103) = true := by
  decide +kernel

/-- V45.3. -/
theorem test_jpCcNn_2 :
    stepped 0x0100 [0xCA, 0x00, 0x20] [] (fun s => { s with cpu := { s.cpu with f := 0x80 } }) 4
      (fun t => t.cpu.pc == 0x2000) = true := by
  decide +kernel

/-- V40.15. -/
theorem test_ldhCA :
    stepped 0x0100 [0xE2] [] (fun s => { s with cpu := { s.cpu with a := 0x1F, c := 0xFF } }) 2
      (fun t => t.cpu.pc == 0x0101 && t.intEnable == 0x1F) = true := by
  decide +kernel

/-- V40.13. -/
theorem test_ldNnA :
    stepped 0x0100 [0xEA, 0x80, 0xFF] [] (fun s => { s with cpu := { s.cpu with a := 0x6D } }) 4
      (fun t => t.cpu.pc == 0x0103 && t.memRead 0xFF80 == 0x6D) = true := by
  decide +kernel

/-- V40.14. -/
theorem test_ldhAC :
    stepped 0x0100 [0xF2] [(0xFF81, 0x21)] (fun s => { s with cpu := { s.cpu with c := 0x81 } }) 2
      (fun t => t.cpu.a == 0x21 && t.cpu.pc == 0x0101) = true := by
  decide +kernel

/-- V40.12. -/
theorem test_ldANn :
    stepped 0x0100 [0xFA, 0x34, 0xC2] [(0xC234, 0x9C)] (fun s => s) 4
      (fun t => t.cpu.a == 0x9C && t.cpu.pc == 0x0103) = true := by
  decide +kernel

/-- V45.1. -/
theorem test_jpNn :
    stepped 0x0100 [0xC3, 0x50, 0x01] [] (fun s => s) 4
      (fun t => t.cpu.pc == 0x0150) = true := by
  decide +kernel

/-- V46.2. -/
theorem test_di :
    stepped 0x0100 [0xF3] [] (fun s => { s with cpu := { s.cpu with ime := true, imePending := true } }) 1
      (fun t => t.cpu.pc == 0x0101 && !t.cpu.ime && !t.cpu.imePending) = true := by
  decide +kernel

/-- V46.3. -/
theorem test_ei :
    stepped 0x0100 [0xFB] [] (fun s => s) 1
      (fun t => t.cpu.pc == 0x0101 && !t.cpu.ime && t.cpu.imePending) = true := by
  decide +kernel

/-- V45.17. -/
theorem test_callCcNn :
    stepped 0x0100 [0xC4, 0x34, 0x12] [] (fun s => { s with cpu := { s.cpu with sp := 0xD000, f := 0x80 } }) 3
      (fun t => t.cpu.pc == 0x0103 && t.memRead 0xCFFF == 0x00 && t.memRead 0xCFFE == 0x00) = true := by
  decide +kernel

/-- V45.18. -/
theorem test_callCcNn_2 :
    stepped 0x0100 [0xDC, 0x34, 0x12] [] (fun s => { s with cpu := { s.cpu with sp := 0xD000, f := 0x10 } }) 6
      (fun t => t.cpu.sp == 0xCFFE && t.cpu.pc == 0x1234 && t.memRead 0xCFFF == 0x01
        && t.memRead 0xCFFE == 0x03) = true := by
  decide +kernel

/-- V41.10. -/
theorem test_pushRr :
    stepped 0x0100 [0xC5] [] (fun s => { s with cpu := { s.cpu with b := 0x12, c := 0x34, sp := 0xD000 } }) 4
      (fun t => t.cpu.sp == 0xCFFE && t.cpu.pc == 0x0101 && t.memRead 0xCFFF == 0x12
        && t.memRead 0xCFFE == 0x34) = true := by
  decide +kernel

/-- V41.11. -/
theorem test_pushRr_2 :
    stepped 0x0100 [0xF5] [] (fun s => { s with cpu := { s.cpu with a := 0xAB, f := 0x50, sp := 0x0001 } }) 4
      (fun t => t.cpu.sp == 0xFFFF && t.cpu.pc == 0x0101 && t.intEnable == 0x50
        && t.memRead 0xFFFF == 0x50) = true := by
  decide +kernel

/-- V45.16. -/
theorem test_callNn :
    stepped 0x0100 [0xCD, 0x34, 0x12] [] (fun s => { s with cpu := { s.cpu with sp := 0xD000 } }) 6
      (fun t => t.cpu.sp == 0xCFFE && t.cpu.pc == 0x1234 && t.memRead 0xCFFF == 0x01
        && t.memRead 0xCFFE == 0x03) = true := by
  decide +kernel

/-- V45.23. -/
theorem test_rstT :
    stepped 0x0100 [0xC7] [] (fun s => { s with cpu := { s.cpu with sp := 0xD000 } }) 4
      (fun t => t.cpu.sp == 0xCFFE && t.cpu.pc == 0x0000 && t.memRead 0xCFFF == 0x01
        && t.memRead 0xCFFE == 0x01) = true := by
  decide +kernel

/-- V45.24. -/
theorem test_rstT_2 :
    stepped 0x1234 [0xFF] [] (fun s => { s with cpu := { s.cpu with sp := 0xD000 } }) 4
      (fun t => t.cpu.sp == 0xCFFE && t.cpu.pc == 0x0038 && t.memRead 0xCFFF == 0x12
        && t.memRead 0xCFFE == 0x35) = true := by
  decide +kernel

/-- V46.16. -/
theorem test_illegalD3 :
    stepped 0x0100 [0xD3] [] (fun s => s) 1
      (fun t => t.cpu.pc == 0x0101 && t.cpu.faulted && t.cpu.faultOp == 0xD3
        && t.cpu.faultPc == 0x0100) = true := by
  decide +kernel

/-- R365. -/
theorem test_illegalDB :
    stepped 0x0100 [0xDB] [] (fun s => s) 1
      (fun t => t.cpu.pc == 0x0101 && t.cpu.faulted && t.cpu.faultOp == 0xDB
        && t.cpu.faultPc == 0x0100) = true := by
  decide +kernel

/-- R365. -/
theorem test_illegalDD :
    stepped 0x0100 [0xDD] [] (fun s => s) 1
      (fun t => t.cpu.pc == 0x0101 && t.cpu.faulted && t.cpu.faultOp == 0xDD
        && t.cpu.faultPc == 0x0100) = true := by
  decide +kernel

/-- R365. -/
theorem test_illegalE3 :
    stepped 0x0100 [0xE3] [] (fun s => s) 1
      (fun t => t.cpu.pc == 0x0101 && t.cpu.faulted && t.cpu.faultOp == 0xE3
        && t.cpu.faultPc == 0x0100) = true := by
  decide +kernel

/-- R365. -/
theorem test_illegalE4 :
    stepped 0x0100 [0xE4] [] (fun s => s) 1
      (fun t => t.cpu.pc == 0x0101 && t.cpu.faulted && t.cpu.faultOp == 0xE4
        && t.cpu.faultPc == 0x0100) = true := by
  decide +kernel

/-- R365. -/
theorem test_illegalEB :
    stepped 0x0100 [0xEB] [] (fun s => s) 1
      (fun t => t.cpu.pc == 0x0101 && t.cpu.faulted && t.cpu.faultOp == 0xEB
        && t.cpu.faultPc == 0x0100) = true := by
  decide +kernel

/-- R365. -/
theorem test_illegalEC :
    stepped 0x0100 [0xEC] [] (fun s => s) 1
      (fun t => t.cpu.pc == 0x0101 && t.cpu.faulted && t.cpu.faultOp == 0xEC
        && t.cpu.faultPc == 0x0100) = true := by
  decide +kernel

/-- R365. -/
theorem test_illegalED :
    stepped 0x0100 [0xED] [] (fun s => s) 1
      (fun t => t.cpu.pc == 0x0101 && t.cpu.faulted && t.cpu.faultOp == 0xED
        && t.cpu.faultPc == 0x0100) = true := by
  decide +kernel

/-- R365. -/
theorem test_illegalF4 :
    stepped 0x0100 [0xF4] [] (fun s => s) 1
      (fun t => t.cpu.pc == 0x0101 && t.cpu.faulted && t.cpu.faultOp == 0xF4
        && t.cpu.faultPc == 0x0100) = true := by
  decide +kernel

/-- R365. -/
theorem test_illegalFC :
    stepped 0x0100 [0xFC] [] (fun s => s) 1
      (fun t => t.cpu.pc == 0x0101 && t.cpu.faulted && t.cpu.faultOp == 0xFC
        && t.cpu.faultPc == 0x0100) = true := by
  decide +kernel

/-- R365. -/
theorem test_illegalFD :
    stepped 0x0100 [0xFD] [] (fun s => s) 1
      (fun t => t.cpu.pc == 0x0101 && t.cpu.faulted && t.cpu.faultOp == 0xFD
        && t.cpu.faultPc == 0x0100) = true := by
  decide +kernel

/-- V44.8. -/
theorem test_rlcR :
    stepped 0x0100 [0xCB, 0x00] [] (fun s => { s with cpu := { s.cpu with b := 0x85 } }) 2
      (fun t => t.cpu.f == 0x10 && t.cpu.b == 0x0B && t.cpu.pc == 0x0102) = true := by
  decide +kernel

/-- V44.9. -/
theorem test_rlcR_2 :
    stepped 0x0100 [0xCB, 0x07] [] (fun s => { s with cpu := { s.cpu with a := 0x00, f := 0x10 } }) 2
      (fun t => t.cpu.a == 0x00 && t.cpu.f == 0x80 && t.cpu.pc == 0x0102) = true := by
  decide +kernel

/-- Example of R304. -/
theorem test_rlcHl :
    stepped 0x0100 [0xCB, 0x06] [(0xC000, 0x85)] (fun s => { s with cpu := { s.cpu with h := 0xC0, l := 0x00 } }) 4
      (fun t => t.cpu.f == 0x10 && t.memRead 0xC000 == 0x0B) = true := by
  decide +kernel

/-- V44.10. -/
theorem test_rrcR :
    stepped 0x0100 [0xCB, 0x09] [] (fun s => { s with cpu := { s.cpu with c := 0x01 } }) 2
      (fun t => t.cpu.f == 0x10 && t.cpu.c == 0x80 && t.cpu.pc == 0x0102) = true := by
  decide +kernel

/-- V44.11. -/
theorem test_rrcHl :
    stepped 0x0100 [0xCB, 0x0E] [(0xC000, 0x02)] (fun s => { s with cpu := { s.cpu with h := 0xC0, l := 0x00 } }) 4
      (fun t => t.cpu.f == 0x00 && t.cpu.pc == 0x0102 && t.memRead 0xC000 == 0x01) = true := by
  decide +kernel

/-- V44.12. -/
theorem test_rlR :
    stepped 0x0100 [0xCB, 0x12] [] (fun s => { s with cpu := { s.cpu with d := 0x80, f := 0x00 } }) 2
      (fun t => t.cpu.f == 0x90 && t.cpu.d == 0x00 && t.cpu.pc == 0x0102) = true := by
  decide +kernel

/-- V44.13. -/
theorem test_rlR_2 :
    stepped 0x0100 [0xCB, 0x13] [] (fun s => { s with cpu := { s.cpu with e := 0x7F, f := 0x10 } }) 2
      (fun t => t.cpu.f == 0x00 && t.cpu.e == 0xFF && t.cpu.pc == 0x0102) = true := by
  decide +kernel

/-- Example of R306. -/
theorem test_rlHl :
    stepped 0x0100 [0xCB, 0x16] [(0xC000, 0x80)] (fun s => { s with cpu := { s.cpu with h := 0xC0, l := 0x00 } }) 4
      (fun t => t.cpu.f == 0x90 && t.memRead 0xC000 == 0x00) = true := by
  decide +kernel

/-- V44.14. -/
theorem test_rrR :
    stepped 0x0100 [0xCB, 0x1C] [] (fun s => { s with cpu := { s.cpu with h := 0x01, f := 0x00 } }) 2
      (fun t => t.cpu.f == 0x90 && t.cpu.h == 0x00 && t.cpu.pc == 0x0102) = true := by
  decide +kernel

/-- V44.15. -/
theorem test_rrR_2 :
    stepped 0x0100 [0xCB, 0x1D] [] (fun s => { s with cpu := { s.cpu with l := 0x00, f := 0x10 } }) 2
      (fun t => t.cpu.f == 0x00 && t.cpu.l == 0x80 && t.cpu.pc == 0x0102) = true := by
  decide +kernel

/-- Example of R307. -/
theorem test_rrHl :
    stepped 0x0100 [0xCB, 0x1E] [(0xC000, 0x01)] (fun s => { s with cpu := { s.cpu with h := 0xC0, l := 0x00 } }) 4
      (fun t => t.cpu.f == 0x90 && t.memRead 0xC000 == 0x00) = true := by
  decide +kernel

/-- V44.16. -/
theorem test_slaR :
    stepped 0x0100 [0xCB, 0x27] [] (fun s => { s with cpu := { s.cpu with a := 0xC0 } }) 2
      (fun t => t.cpu.a == 0x80 && t.cpu.f == 0x10 && t.cpu.pc == 0x0102) = true := by
  decide +kernel

/-- V44.17. -/
theorem test_slaHl :
    stepped 0x0100 [0xCB, 0x26] [(0xC000, 0x80)] (fun s => { s with cpu := { s.cpu with h := 0xC0, l := 0x00 } }) 4
      (fun t => t.cpu.f == 0x90 && t.cpu.pc == 0x0102 && t.memRead 0xC000 == 0x00) = true := by
  decide +kernel

/-- V44.18. -/
theorem test_sraR :
    stepped 0x0100 [0xCB, 0x28] [] (fun s => { s with cpu := { s.cpu with b := 0x81 } }) 2
      (fun t => t.cpu.f == 0x10 && t.cpu.b == 0xC0 && t.cpu.pc == 0x0102) = true := by
  decide +kernel

/-- V44.19. -/
theorem test_sraR_2 :
    stepped 0x0100 [0xCB, 0x2F] [] (fun s => { s with cpu := { s.cpu with a := 0x01 } }) 2
      (fun t => t.cpu.a == 0x00 && t.cpu.f == 0x90 && t.cpu.pc == 0x0102) = true := by
  decide +kernel

/-- Example of R309. -/
theorem test_sraHl :
    stepped 0x0100 [0xCB, 0x2E] [(0xC000, 0x8A)] (fun s => { s with cpu := { s.cpu with h := 0xC0, l := 0x00 } }) 4
      (fun t => t.cpu.f == 0x00 && t.memRead 0xC000 == 0xC5) = true := by
  decide +kernel

/-- V44.20. -/
theorem test_swapR :
    stepped 0x0100 [0xCB, 0x37] [] (fun s => { s with cpu := { s.cpu with a := 0xF1, f := 0xF0 } }) 2
      (fun t => t.cpu.a == 0x1F && t.cpu.f == 0x00 && t.cpu.pc == 0x0102) = true := by
  decide +kernel

/-- V44.21. -/
theorem test_swapR_2 :
    stepped 0x0100 [0xCB, 0x30] [] (fun s => { s with cpu := { s.cpu with b := 0x00, f := 0x10 } }) 2
      (fun t => t.cpu.f == 0x80 && t.cpu.b == 0x00 && t.cpu.pc == 0x0102) = true := by
  decide +kernel

/-- Example of R310. -/
theorem test_swapHl :
    stepped 0x0100 [0xCB, 0x36] [(0xC000, 0xF1)] (fun s => { s with cpu := { s.cpu with h := 0xC0, l := 0x00 } }) 4
      (fun t => t.cpu.f == 0x00 && t.memRead 0xC000 == 0x1F) = true := by
  decide +kernel

/-- V44.22. -/
theorem test_srlR :
    stepped 0x0100 [0xCB, 0x3F] [] (fun s => { s with cpu := { s.cpu with a := 0x81 } }) 2
      (fun t => t.cpu.a == 0x40 && t.cpu.f == 0x10 && t.cpu.pc == 0x0102) = true := by
  decide +kernel

/-- V44.23. -/
theorem test_srlR_2 :
    stepped 0x0100 [0xCB, 0x38] [] (fun s => { s with cpu := { s.cpu with b := 0x01 } }) 2
      (fun t => t.cpu.f == 0x90 && t.cpu.b == 0x00 && t.cpu.pc == 0x0102) = true := by
  decide +kernel

/-- Example of R311. -/
theorem test_srlHl :
    stepped 0x0100 [0xCB, 0x3E] [(0xC000, 0xFF)] (fun s => { s with cpu := { s.cpu with h := 0xC0, l := 0x00 } }) 4
      (fun t => t.cpu.f == 0x10 && t.memRead 0xC000 == 0x7F) = true := by
  decide +kernel

/-- V44.24. -/
theorem test_bitBR :
    stepped 0x0100 [0xCB, 0x7F] [] (fun s => { s with cpu := { s.cpu with a := 0x80, f := 0x10 } }) 2
      (fun t => t.cpu.a == 0x80 && t.cpu.f == 0x30 && t.cpu.pc == 0x0102) = true := by
  decide +kernel

/-- V44.25. -/
theorem test_bitBR_2 :
    stepped 0x0100 [0xCB, 0x40] [] (fun s => { s with cpu := { s.cpu with b := 0xFE, f := 0x00 } }) 2
      (fun t => t.cpu.f == 0xA0 && t.cpu.b == 0xFE && t.cpu.pc == 0x0102) = true := by
  decide +kernel

/-- V44.26. -/
theorem test_bitBHl :
    stepped 0x0100 [0xCB, 0x5E] [(0xC000, 0x08)]
      (fun s => { s with cpu := { s.cpu with h := 0xC0, l := 0x00, f := 0xC0 } }) 3
      (fun t => t.cpu.f == 0x20 && t.cpu.pc == 0x0102 && t.memRead 0xC000 == 0x08) = true := by
  decide +kernel

/-- V44.27. -/
theorem test_resBR :
    stepped 0x0100 [0xCB, 0x87] [] (fun s => { s with cpu := { s.cpu with a := 0xFF, f := 0xF0 } }) 2
      (fun t => t.cpu.a == 0xFE && t.cpu.f == 0xF0 && t.cpu.pc == 0x0102) = true := by
  decide +kernel

/-- V44.28. -/
theorem test_resBHl :
    stepped 0x0100 [0xCB, 0xBE] [(0xC000, 0xFF)] (fun s => { s with cpu := { s.cpu with h := 0xC0, l := 0x00 } }) 4
      (fun t => t.cpu.pc == 0x0102 && t.memRead 0xC000 == 0x7F) = true := by
  decide +kernel

/-- V44.29. -/
theorem test_setBR :
    stepped 0x0100 [0xCB, 0xC0] [] (fun s => { s with cpu := { s.cpu with b := 0x00, f := 0x00 } }) 2
      (fun t => t.cpu.f == 0x00 && t.cpu.b == 0x01 && t.cpu.pc == 0x0102) = true := by
  decide +kernel

/-- V44.30. -/
theorem test_setBHl :
    stepped 0x0100 [0xCB, 0xFE] [(0xC000, 0x01)] (fun s => { s with cpu := { s.cpu with h := 0xC0, l := 0x00 } }) 4
      (fun t => t.cpu.pc == 0x0102 && t.memRead 0xC000 == 0x81) = true := by
  decide +kernel

/-- V46.19. -/
theorem test_dispatch :
    stepped 0x0100 [0x00] []
      (fun s => { s with cpu := { s.cpu with ime := true, sp := 0xD000 }, intEnable := 0x1F, intFlag := 0x18 }) 5
      (fun t => t.cpu.sp == 0xCFFE && t.cpu.pc == 0x0058 && !t.cpu.ime && t.intFlag == 0x10) = true := by
  decide +kernel

/-- V46.20. -/
theorem test_dispatch_2 :
    stepped 0x0100 [0x00] []
      (fun s => { s with cpu := { s.cpu with ime := true, sp := 0xD000 }, intEnable := 0x10, intFlag := 0x1f }) 5
      (fun t => t.cpu.sp == 0xCFFE && t.cpu.pc == 0x0060 && !t.cpu.ime && t.intFlag == 0xf) = true := by
  decide +kernel

/-- V46.22. -/
theorem test_dispatch_3 :
    stepped 0x1234 [0x00] []
      (fun s => { s with cpu := { s.cpu with ime := true, sp := 0x0000 }, intEnable := 0x04, intFlag := 0x4 }) 5
      (fun t => t.cpu.sp == 0xFFFE && t.cpu.pc == 0x0000 && t.cpu.ime && t.intFlag == 0x4
        && t.intEnable == 0x12) = true := by
  decide +kernel

/-- V46.23. -/
theorem test_dispatch_4 :
    stepped 0x0534 [0x00] []
      (fun s => { s with cpu := { s.cpu with ime := true, sp := 0x0000 }, intEnable := 0x04, intFlag := 0x4 }) 5
      (fun t => t.cpu.sp == 0xFFFE && t.cpu.pc == 0x0050 && !t.cpu.ime && t.intFlag == 0x0
        && t.intEnable == 0x05) = true := by
  decide +kernel

/-- V46.24. -/
theorem test_dispatch_5 :
    stepped 0x0134 [0x00] []
      (fun s => { s with cpu := { s.cpu with ime := true, sp := 0x0000 }, intEnable := 0x05, intFlag := 0x4 }) 5
      (fun t => t.cpu.sp == 0xFFFE && t.cpu.pc == 0x0000 && t.cpu.ime && t.intFlag == 0x4
        && t.intEnable == 0x01) = true := by
  decide +kernel

/-- R366: the prefix alone runs the instruction of its next byte. -/
theorem test_prefixCB :
    (match exec .prefixCB (machine 0x0100 [0x37] [] fun s => { s with cpu := { s.cpu with a := 0x12 } }) with
      | .next t => t.cpu.a == 0x21 && t.cpu.pc == 0x0101
      | .fault _ => false
      | .refused _ => false) = true := by decide +kernel

/-- V46.11: under the other halt-bug condition nothing pending sets no bug. -/
theorem test_halt_pendingCond :
    stepped 0x0100 [0x76] [] (fun s => { s with launch := { s.launch with haltBugCond := .pending } }) 1
      (fun t => t.cpu.halted && !t.cpu.haltBug) = true := by decide +kernel

/-- R361 (c): the byte after HALT is fetched twice; LD A,n takes its own opcode as n. -/
theorem test_haltBug_operand :
    stepped 0x0100 [0x3E, 0x12] [] (fun s => { s with cpu := { s.cpu with haltBug := true } }) 2
      (fun t => t.cpu.a == 0x3E && t.cpu.pc == 0x0101 && !t.cpu.haltBug) = true := by decide +kernel

/-! ## Agents -/

/-- R463, R464: the overflow leaves 0x00 and sets the request and the reload; the next tick loads TMA. -/
theorem test_timer_overflow :
    let t : Timer := { counter := 12, tima := 0xFF, tma := 0xAB, tac := 0b101, reloadPending := false, req := false }
    t.tick = { t with counter := 16, tima := 0, reloadPending := true, req := true } ∧
      t.tick.tick = { t with counter := 20, tima := 0xAB, reloadPending := false, req := true } := by decide

/-- R462: the write of DIV makes bit 9 fall and ticks TIMA by exactly one. -/
theorem test_timer_divWrite :
    let t : Timer := { counter := 0x0200, tima := 5, tma := 0, tac := 0b100, reloadPending := false, req := false }
    t.writeDiv 0 = { t with counter := 0, tima := 6 } := by decide

/-- R471: tile 1 of the signed area stands at 0x9010; bit 7 is the leftmost pixel, the second byte the high bit. -/
theorem test_tilePixel :
    let p : Ppu := { State.reset.ppu with lcdc := 0x81 }
    p.tilePixel [(0x1010, 0x80), (0x1011, 0x80)] 1 0 0 = 3 ∧ p.tilePixel [(0x1010, 0x40)] 1 1 0 = 1 ∧
      p.tilePixel [(0x0FF0, 0x80)] 0xFF 0 0 = 1 := by decide +kernel

/-- R478: an unpressed selected button reads 1, a pressed one 0. -/
theorem test_joypad : joypadRead 0b10 0x01 = 0xEE ∧ joypadRead 0b01 0x80 = 0xD7 ∧ joypadRead 0b11 0xFF = 0xFF := by
  decide

/-! ## The host's words -/

/-- Table words, their operand bytes zero; the pair of the extended table has the prefix in its high byte. -/
theorem test_tableWords :
    decodeTableWord 8 0x3C = some (.incR .a) ∧ decodeTableWord 8 0x08 = some (.ldNnSp 0) ∧
      decodeTableWord 8 0xCB = some .prefixCB ∧ decodeTableWord 16 0xCB37 = some (.swapR .a) := by decide +kernel

/-- A placed word runs as the first instruction after reset: INC A of A = 0x01. -/
theorem test_withFetchWord :
    (match step (State.reset.withFetchWord 8 0x3C) with
      | .next t => t.cpu.a == 0x02 && t.cpu.pc == 0x0101
      | .fault _ => false
      | .refused _ => false) = true := by decide +kernel

/-! ## Witnesses: states and operands that meet the hypotheses of the obligations -/

/-- A machine about to run the bytes at 0xC000 of work RAM, with its stack in work RAM. -/
def ready (code : List (Nat × Byte)) : State :=
  { State.reset with
    cpu := { State.reset.cpu with pc := 0xC000, sp := 0xD000, a := 0x45 }
    wram := code }

theorem reset_launch_wf : wellFormedLaunch State.reset.launch = true := by decide +kernel

theorem ready_cpu_sound : (ready []).cpu.Sound := ⟨by decide, by decide, by decide⟩

theorem reset_ppu_sound : State.reset.ppu.Sound := ⟨by decide, by decide, by decide, by decide, by decide⟩

theorem reset_dma_le : State.reset.dma.counter ≤ 162 := by decide

theorem reset_bankA : State.reset.ctrlA.romBank5 ≠ 0 := by decide

theorem reset_bankB : State.reset.ctrlB.romBank7 ≠ 0 := by decide

/-- `ready` is sound, whatever canonical code it holds. -/
theorem ready_sound {code : List (Nat × Byte)} (h : Memory.wf 8192 code = true) : (ready code).Sound where
  launch := reset_launch_wf
  cpu := ready_cpu_sound
  ppu := reset_ppu_sound
  memories := ⟨rfl, h, rfl, rfl, rfl, rfl, rfl⟩
  dma := reset_dma_le
  bankA := reset_bankA
  bankB := reset_bankB
  overlay := fun _ => rfl

/-- From a check by evaluation to the next state of a step. -/
theorem next_of_check {s : State} {p : State → Bool}
    (h : (match step s with | .next t => p t | .fault _ => false | .refused _ => false) = true) :
    ∃ t, step s = .next t ∧ p t = true := by
  cases hs : step s with
  | next t => rw [hs] at h; exact ⟨t, rfl, h⟩
  | fault r => rw [hs] at h; cases h
  | refused r => rw [hs] at h; cases h

theorem test_witness_DecodeEncode :
    (Instr.addAN 5).wellFormed = true ∧ Instr.addAN 5 ≠ .prefixCB ∧ Instr.prefixCB.wellFormed = true := by decide

theorem test_witness_EncodeDecode : decode [0x3E, 0x9C, 0x00] = .ok (.ldRN .a 0x9C, [0x00]) := by decide

/-- Both kinds of address of a store, and two locations of plain storage. -/
theorem test_witness_StoreByte :
    plainStorage 0x8000 = true ∧ plainStorage 0xFEFF = true ∧ plainStorage 0xFF80 = true ∧
      plainStorage 0x7FFF = false ∧ plainStorage 0xFF00 = false ∧ plainStorage 0xFF7F = false ∧
      ¬(ready []).cycle.sameLocation 0xC000 0xC001 := by
  refine ⟨by decide, by decide, by decide, by decide, by decide, by decide, ?_⟩
  rintro (h | ⟨i, j, h, -⟩)
  · exact absurd h (by decide)
  · exact absurd h (by simp [placeOf])

theorem test_witness_StoreWord : (ready []).Sound := ready_sound rfl

theorem test_witness_PopWord :
    let s : State := { ready [] with dma := { counter := 3, source := 0 } }
    StackPair.bc ≠ .af ∧ 2 < s.dma.counter ∧ s.cpu.sp.toNat < 0xFEFF := by decide

/-- The two ends of the stack's range. -/
theorem test_witness_StackRoundTrip :
    let low := (ready []).setSp 0xC002
    let high := (ready []).setSp 0xE000
    (low.Sound ∧ low.dma.counter = 0 ∧ 0xC002 ≤ low.cpu.sp.toNat ∧ low.cpu.sp.toNat ≤ 0xE000) ∧
      (high.Sound ∧ high.dma.counter = 0 ∧ 0xC002 ≤ high.cpu.sp.toNat ∧ high.cpu.sp.toNat ≤ 0xE000) :=
  ⟨⟨(ready_sound rfl).setCpu ⟨by decide, by decide, by decide⟩, by decide, by decide, by decide⟩,
    ⟨(ready_sound rfl).setCpu ⟨by decide, by decide, by decide⟩, by decide, by decide, by decide⟩⟩

/-- 45 + 38 and 45 - 38. -/
theorem test_witness_DecimalArithmetic : 45 < 100 ∧ 38 < 100 ∧ (ready []).cpu.a = bcd 45 := by decide

/-- Each condition holds somewhere and fails somewhere. -/
theorem test_witness_Jumps :
    let s := (ready []).setFlags true false false false
    let t := (ready []).setFlags false false false true
    s.holds .z = true ∧ s.holds .nz = false ∧ s.holds .nc = true ∧ s.holds .c = false ∧ t.holds .z = false ∧
      t.holds .nz = true ∧ t.holds .nc = false ∧ t.holds .c = true := by decide

theorem test_witness_Returns :
    let s : State := { ready [] with dma := { counter := 100, source := 0 } }
    2 < s.dma.counter ∧ s.cpu.sp.toNat < 0xFEFF ∧ ∃ t, exec .ret s = .next t :=
  ⟨by decide, by decide, _, rfl⟩

/-- HALT with nothing pending sets the bug, with something pending it does not. -/
theorem test_witness_Halt :
    ¬(ready []).Pending ∧ ({ ready [] with intEnable := 0x04, intFlag := 0x04 } : State).Pending := by
  refine ⟨?_, 2, by decide, by decide, by decide⟩
  rintro ⟨i, -, h, -⟩
  simp [ready, State.reset, State.resetWith] at h

theorem test_witness_Stop :
    (ready []).key1.speedArmed = false ∧
      ({ ready [] with key1 := { doubleSpeed := false, speedArmed := true } } : State).key1.speedArmed = true := by
  decide

/-- NOP with an armed enable. -/
theorem test_witness_EnableInterrupts :
    let s := (ready []).setImePending true
    s.fetches = true ∧ decode s.atFetch.fetchInstr.1 = .ok (.nop, []) ∧
      exec .nop s.atFetch.fetchInstr.2 = .next s.atFetch.fetchInstr.2 ∧
      s.atFetch.fetchInstr.2.cpu.faulted = false := by
  refine ⟨by decide +kernel, by decide +kernel, rfl, by decide +kernel⟩

theorem test_witness_IllegalOpcodeStops :
    (ready [(0, 0xDD)]).fetches = true ∧ (ready [(0, 0xDD)]).atFetch.memRead 0xC000 ∈ illegalBytes := by
  decide +kernel

theorem test_witness_StepRunsDecoded :
    (ready [(0, 0x3C)]).fetches = true ∧
      decode (ready [(0, 0x3C)]).atFetch.fetchInstr.1 = .ok (.incR .a, []) := by decide +kernel

/-- One state for each of the three outcomes of a sampling point. -/
theorem test_witness_SamplingPoint :
    let idle := (ready []).setCpu { (ready []).cpu with halted := true }
    let taken : State := { (ready []).setIme true with intEnable := 0x1F, intFlag := 0x18 }
    (idle.cpu.faulted = false ∧ idle.cpu.halted = true ∧ idle.beginCycle.pend = 0) ∧
      (taken.cpu.faulted = false ∧ taken.cpu.ime = true ∧ taken.beginCycle.pend.getLsbD 3 = true) ∧
      ((ready []).cpu.faulted = false ∧ (ready []).cpu.halted = false ∧ (ready []).cpu.stopped = false ∧
        (ready []).cpu.ime = false) := by decide +kernel

/-- R424, both examples: the dispatch that is cancelled and the one that is not. -/
theorem test_witness_DispatchCancellation :
    let at_ (sp pc : Word) : State :=
      { (ready []).setCpu { (ready []).cpu with sp := sp, pc := pc, ime := true } with
        intEnable := 0x04, intFlag := 0x04 }
    ((at_ 0 0x1234).intEnable.getLsbD Irq.timer.bit = true ∧ (at_ 0 0x1234).intFlag.getLsbD Irq.timer.bit = true) ∧
      ((at_ 0 0x1234).dispatch .timer).cpu.pc = 0x0000 ∧ ((at_ 0 0x1234).dispatch .timer).cpu.ime = true ∧
      ((at_ 0 0x0534).dispatch .timer).cpu.pc = 0x0050 ∧ ((at_ 0 0x0534).dispatch .timer).intFlag = 0 ∧
      ((at_ 0xC002 0x1234).dispatch .timer).cpu.pc = 0x0050 ∧ ((at_ 0xE000 0x1234).dispatch .timer).cpu.pc = 0x0050 ∧
      ((at_ 0xFF82 0x1234).dispatch .timer).cpu.pc = 0x0050 ∧
      ((at_ 0xFFFF 0x1234).dispatch .timer).cpu.pc = 0x0050 := by decide +kernel

theorem test_witness_AgentsAndDriver : (ready []).dma.counter = 0 := by decide

/-- TIMA on select 1, 100 M-cycles on. -/
theorem test_witness_TimerRate :
    let s : State := { ready [] with timer := { (ready []).timer with tac := 0b101 } }
    s.timer.enable = true ∧ s.timer.reloadPending = false ∧
      s.timer.tima.toNat + (s.timer.counter.toNat % (4 * 4) + 4 * 100) / (4 * 4) ≤ 255 := by decide

/-- The first and the last address of each case of R80 and R81. -/
theorem test_witness_routing :
    placeOf 0x0000 = .cart 0 ∧ placeOf 0x7FFF = .cart 0x7FFF ∧ placeOf 0x8000 = .vram 0 ∧
      placeOf 0x9FFF = .vram 0x1FFF ∧ placeOf 0xA000 = .cartRam 0 ∧ placeOf 0xBFFF = .cartRam 0x1FFF ∧
      placeOf 0xC000 = .wram 0 ∧ placeOf 0xDFFF = .wram 0x1FFF ∧ placeOf 0xE000 = .wram 0 ∧
      placeOf 0xFDFF = .wram 0x1DFF ∧ placeOf 0xFE00 = .oam 0 ∧ placeOf 0xFE9F = .oam 0x9F ∧
      placeOf 0xFEA0 = .hole ∧ placeOf 0xFEFF = .hole ∧ placeOf 0xFF00 = .io 0 ∧ placeOf 0xFF7F = .io 0x7F ∧
      placeOf 0xFF80 = .hram 0 ∧ placeOf 0xFFFE = .hram 0x7E ∧ placeOf 0xFFFF = .intEnable := by decide

/-- A running transfer blocks 0xFEFF and not 0xFF00; the overlay shows its bytes up to 0x00FF, then the ROM. -/
theorem test_witness_ReadRouting :
    let busy : State := { ready [] with dma := { counter := 1, source := 0 } }
    let boot := State.resetWith
      { Launch.default with boot := some [(0xFF, 0x5A)], rom := [(0x100, 0xA5)] } PowerOn.default
    busy.memRead 0xFEFF = 0xFF ∧ busy.memRead 0xC000 = 0xFF ∧ busy.memRead 0xFF00 = 0xFF ∧
      busy.memRead 0xFF80 = 0x00 ∧ boot.memRead 0x00FF = 0x5A ∧ boot.memRead 0x0100 = 0xA5 := by decide +kernel

/-- The ends of the three ranges, and high RAM during a transfer. -/
theorem test_witness_ReadAfterWrite :
    (ready []).Sound ∧ (ready []).dma.counter = 0 ∧ (ready []).ppu.mode ≠ .transfer ∧
      ((ready []).memWrite 0x8000 0x12).memRead 0x8000 = 0x12 ∧
      ((ready []).memWrite 0xFE9F 0x12).memRead 0xFE9F = 0x12 ∧
      ((ready []).memWrite 0xFFFF 0x12).memRead 0xFFFF = 0x12 ∧
      ((ready []).memWrite 0xDDFF 0x12).memRead 0xFDFF = 0x12 ∧
      ((ready []).memWrite 0xE000 0x12).memRead 0xC000 = 0x12 ∧
      ((ready []).memWrite 0xFDFF 0x12).memRead 0xDDFF = 0x12 ∧
      (({ ready [] with dma := { counter := 9, source := 0 } } : State).memWrite 0xFF80 0x12).memRead 0xFF80 = 0x12 :=
  ⟨ready_sound rfl, by decide +kernel⟩

/-- The ends of the ranges of the I/O page, with values of R90, R96 and R97. -/
theorem test_witness_IoRegisters :
    (ready []).Sound ∧
      let back (off : Nat) (v : Byte) : Byte := ((ready []).ioWrite off v).ioRead off
      back 0x00 0x10 = 0xDF ∧ back 0x07 0x05 = 0xFD ∧ back 0x0F 0x05 = 0xE5 ∧ back 0x10 0x12 = 0x12 ∧
        back 0x26 0x80 = 0xF0 ∧ back 0x3F 0x12 = 0x12 ∧ back 0x03 0x12 = 0x12 ∧ back 0x08 0x12 = 0x12 ∧
        back 0x0E 0x12 = 0x12 ∧ back 0x44 0x12 = 0x00 ∧ back 0x4C 0x12 = 0x12 ∧ back 0x4D 0xFF = 0x7F ∧
        back 0x51 0x12 = 0x12 ∧ back 0x7F 0x12 = 0x12 :=
  ⟨ready_sound rfl, by decide +kernel⟩

theorem test_witness_DmaTransfer :
    (ready []).Sound ∧ (0xFD : Byte).toNat ≤ 0xFD ∧ (0x00 : Byte).toNat ≤ 0xFD := ⟨ready_sound rfl, by decide, by decide⟩

/-- A machine with a banked cartridge: its header bytes name the controller and 8 KiB of external RAM. -/
def banked (kind : MbcKind) (header : Byte) (a : CtrlA) (b : CtrlB) : State :=
  { ready [] with
    launch := { Launch.default with mbcKind := kind, xramLen := 8192, rom := [(0x147, header), (0x149, 2)] }
    ctrlA := a
    ctrlB := b }

def ctrlAOn : CtrlA := { romBank5 := 1, bank2 := 3, mode := true, ramEnable := true }
def ctrlBOn (sel : Byte) : CtrlB := { romBank7 := 5, ramRtcSelect := sel, ramEnable := true, rtc := [], rtcLatch := 0 }

theorem banked_sound {kind : MbcKind} {header : Byte} {a : CtrlA} {b : CtrlB}
    (hl : wellFormedLaunch (banked kind header a b).launch = true) (ha : a.romBank5 ≠ 0) (hb : b.romBank7 ≠ 0)
    (hr : b.rtc.wf 13 = true) : (banked kind header a b).Sound where
  launch := hl
  cpu := ready_cpu_sound
  ppu := reset_ppu_sound
  memories := ⟨rfl, rfl, rfl, rfl, rfl, rfl, hr⟩
  dma := reset_dma_le
  bankA := ha
  bankB := hb
  overlay := fun _ => rfl

/-- A sound machine of each controller kind, and a write at each end of the controllers' addresses; the ends of the
ranges of R123 are in the next theorem. -/
theorem test_witness_CartridgeBanks :
    (ready []).launch.mbcKind = .romOnly ∧ (ready []).Sound ∧ (banked .ctrlA 0x01 ctrlAOn (ctrlBOn 0)).Sound ∧
      (banked .ctrlB 0x13 ctrlAOn (ctrlBOn 7)).Sound ∧
      ((banked .ctrlA 0x01 ctrlAOn (ctrlBOn 0)).memWrite 0x7FFF 0x00).ctrlA.mode = false ∧
      ((banked .ctrlB 0x13 ctrlAOn (ctrlBOn 7)).memWrite 0x0000 0x00).ctrlB.ramEnable = false :=
  ⟨rfl, ready_sound rfl, banked_sound (by decide +kernel) (by decide) (by decide) rfl,
    banked_sound (by decide +kernel) (by decide) (by decide) rfl, by decide, by decide⟩

theorem test_witness_CartridgeWrites :
    (ctrlAOn.write 0x1FFF 0x0A).ramEnable = true ∧ (ctrlAOn.write 0x0000 0x0B).ramEnable = false ∧
      (ctrlAOn.write 0x2000 0x20).romBank5 = 1 ∧ (ctrlAOn.write 0x3FFF 0x1F).romBank5 = 0x1F ∧
      (ctrlAOn.write 0x4000 0x02).bank2 = 2 ∧ (ctrlAOn.write 0x5FFF 0x01).bank2 = 1 ∧
      (ctrlAOn.write 0x6000 0x00).mode = false ∧ ((ctrlBOn 0).write 0x3FFF 0x80).romBank7 = 1 ∧
      ((ctrlBOn 0).write 0x4000 0x0C).ramRtcSelect = 0x0C ∧ ((ctrlBOn 0).write 0x6000 0x01).rtcLatch = 1 := by decide

/-- Each controller's RAM with the enable latch set and clear, and the ends of the selections of controller B. -/
theorem test_witness_ExternalRam :
    let a := banked .ctrlA 0x01 ctrlAOn (ctrlBOn 0)
    let off := banked .ctrlA 0x01 { ctrlAOn with ramEnable := false } (ctrlBOn 0)
    let b (sel : Byte) := banked .ctrlB 0x13 ctrlAOn (ctrlBOn sel)
    a.Sound ∧ off.Sound ∧ (b 7).Sound ∧ (a.cartRamWrite 0x1FFF 0x5A).cartRamRead 0x1FFF = 0x5A ∧
      off.cartRamRead 0 = 0xFF ∧ ((b 0).cartRamWrite 0 0x5A).cartRamRead 0 = 0x5A ∧
      ((b 7).cartRamWrite 0 0x5A).cartRamRead 0 = 0x5A ∧ ((b 8).cartRamWrite 0 0x5A).cartRamRead 1 = 0x5A ∧
      ((b 12).cartRamWrite 0 0x5A).cartRamRead 1 = 0x5A ∧ (b 13).cartRamRead 0 = 0xFF ∧
      (ready []).launch.xramLen = 0 ∧ (ready []).cartRamRead 0 = 0xFF :=
  ⟨banked_sound (by decide +kernel) (by decide) (by decide) rfl,
    banked_sound (by decide +kernel) (by decide) (by decide) rfl,
    banked_sound (by decide +kernel) (by decide) (by decide) rfl, by decide +kernel⟩

theorem test_witness_PpuPhase : State.reset.ppu.AtPhase 0 := by
  refine ⟨by decide, ?_⟩
  decide

/-- The sub-tick that enters VBlank. -/
theorem test_witness_PpuRequests :
    let p : Ppu := { State.reset.ppu with mode := .hblank, modeTicks := 203, ly := 143 }
    let q := p.subTick [] [] Launch.default.shades
    p.mode ≠ .vblank ∧ q.mode = .vblank ∧ q.ly = 144 ∧ q.vblankReq = true := by decide +kernel

/-- The first and the last line rendered, and a sub-tick that renders none. -/
theorem test_witness_RenderLine :
    let last : Ppu := { State.reset.ppu with modeTicks := 79, ly := 143 }
    let first : Ppu := { State.reset.ppu with modeTicks := 79 }
    let frame : Ppu := { State.reset.ppu with mode := .vblank, modeTicks := 455, ly := 153, windowLine := 9 }
    (last.mode = .oamScan ∧ last.modeTicks = 79 ∧ last.ly.toNat < 144) ∧
      (first.mode = .oamScan ∧ first.modeTicks = 79 ∧ first.ly.toNat < 144) ∧
      (frame.mode = .vblank ∧ frame.modeTicks = 455 ∧ frame.ly.toNat = 153 ∧
        (frame.subTick [] [] Launch.default.shades).windowLine = 0) ∧
      State.reset.ppu.modeTicks ≠ 79 ∧ State.reset.ppu.mode ≠ .vblank := by decide +kernel

/-- R471, R472: the background on and off, the window's first column, the last column of a tile's last row in the
unsigned and the signed area. -/
theorem test_witness_BackgroundPixels :
    let p : Ppu := { State.reset.ppu with lcdc := 0xB1, wx := 7, windowLine := 10 }
    let vram : Memory := [(0x1E, 0x01), (0x1F, 0x01), (0x1014, 0x80), (0x1820, 0x01)]
    p.lcdc.getLsbD 0 = true ∧ ({ p with lcdc := 0x90 } : Ppu).lcdc.getLsbD 0 = false ∧ p.wx.toNat ≤ 0 + 7 ∧
      p.tilePixel vram 0x01 7 7 = 3 ∧ ({ p with lcdc := 0xA1 } : Ppu).tilePixel vram 0x01 0 2 = 1 ∧
      ({ p with lcdc := 0xA1 } : Ppu).windowColour vram 0 = 1 ∧ ({ p with lcdc := 0xA1 } : Ppu).backColour vram 0 0 = 1 := by
  decide +kernel

/-- A column with a sprite, one without, a sprite flipped both ways, sprites off, and ten of eleven sprites of a line. -/
theorem test_witness_Compositing :
    let p : Ppu := { State.reset.ppu with lcdc := 0x93 }
    let sp : Sprite := { y := 16, x := 8, tile := 1, attr := 0 }
    let vram : Memory := [(16, 0x80)]
    let row : Memory := (List.range 12).foldl (fun m i => m.write (4 * i) (if i = 1 then 0 else 16)) []
    spriteAt [(0, 16), (1, 8), (2, 1)] 0 = sp ∧
      (p.selectedSprites [(0, 16), (1, 8), (2, 1)] 0).head? = some sp ∧
      p.shownSprite vram [sp] 0 0 = some sp ∧ p.shownSprite vram [sp] 1 0 = none ∧
      p.spritePixel vram { sp with attr := 0x60 } 7 7 = 1 ∧ (p.selectedSprites row 0).length = 10 ∧
      ({ p with lcdc := 0x91 } : Ppu).lcdc.getLsbD 1 = false := by decide +kernel

theorem test_witness_ResetState :
    Launch.default.boot = none ∧ ({ Launch.default with boot := some [(0, 0x31)] } : Launch).boot = some [(0, 0x31)] :=
  ⟨rfl, rfl⟩

/-- A machine that meets the invariant, with a step. -/
theorem test_witness_StepKeepsInvariant : (ready []).Inv ∧ ∃ t, step (ready []) = .next t :=
  ⟨⟨ready_sound rfl, rfl, rfl, rfl⟩,
    (next_of_check (p := fun _ => true) (by decide +kernel)).imp fun _ h => h.1⟩

/-- A step after which the overlay latch is to stay set. -/
theorem test_witness_LaunchNeverChanges : (ready []).bootDisabled = true ∧ ∃ t, step (ready []) = .next t :=
  ⟨rfl, (next_of_check (p := fun _ => true) (by decide +kernel)).imp fun _ h => h.1⟩

/-- A faulted machine, and one that a step makes so. -/
theorem test_witness_FaultOnlyByIllegalOpcode :
    ((ready []).setCpu { (ready []).cpu with faulted := true }).cpu.faulted = true ∧
      (ready [(0, 0xDD)]).cpu.faulted = false ∧
      ∃ t, step (ready [(0, 0xDD)]) = .next t ∧ t.cpu.faulted = true :=
  ⟨rfl, rfl, next_of_check (by decide +kernel)⟩

/-- IME set by an armed EI, IME set by RETI, and an enable armed by EI. -/
theorem test_witness_ImeSetOnlyByEiOrReti :
    (∃ t, step ((ready []).setImePending true) = .next t ∧ t.cpu.ime = true) ∧
      (∃ t, step (ready [(0, 0xD9)]) = .next t ∧ t.cpu.ime = true) ∧
      ∃ t, step (ready [(0, 0xFB)]) = .next t ∧ t.cpu.imePending = true :=
  ⟨next_of_check (by decide +kernel), next_of_check (by decide +kernel), next_of_check (by decide +kernel)⟩

end Sys2Proof.Tests
end

/-! # What a step is made of

Every step is put together from six updates of the state (`State.Updates`). A fact that each of the six keeps is
kept by every step, with no case analysis of the instructions. -/

namespace Sys2Proof.Machine.State

/-- `t` comes from `s` by rewriting the CPU's registers, M-cycles of the agents (R440), bus writes, a switch of KEY1
(R362) and an acknowledgement in IF (R423). -/
inductive Updates (s : State) : State → Prop
  | refl : Updates s s
  | setCpu {t : State} (h : Updates s t) (c : Cpu) : Updates s (t.setCpu c)
  | beginCycle {t : State} (h : Updates s t) : Updates s t.beginCycle
  | endCycle {t : State} (h : Updates s t) : Updates s t.endCycle
  | memWrite {t : State} (h : Updates s t) (a : Word) (v : Byte) : Updates s (t.memWrite a v)
  | setKey1 {t : State} (h : Updates s t) (k : Key1) : Updates s { t with key1 := k }
  | setIntFlag {t : State} (h : Updates s t) (f : BitVec 5) : Updates s { t with intFlag := f }

namespace Updates

variable {s t : State}

/-! ## The shared operations -/

theorem cycle (h : Updates s t) : Updates s t.cycle := h.endCycle.beginCycle

theorem busWrite (h : Updates s t) (a : Word) (v : Byte) : Updates s (t.busWrite a v) := h.cycle.memWrite a v

theorem busWrite16 (h : Updates s t) (a v : Word) : Updates s (t.busWrite16 a v) :=
  (h.busWrite a (loByte v)).busWrite (a + 1) (hiByte v)

theorem push16 (h : Updates s t) (v : Word) : Updates s (t.push16 v) := by
  rw [push16_eq]
  exact ((h.cycle.memWrite _ _).cycle.memWrite _ _).setCpu _

theorem pop16 (h : Updates s t) : Updates s t.pop16.2 := by
  rw [pop16_eq]
  exact h.cycle.cycle.setCpu _

theorem setReg8 (h : Updates s t) (r : Reg8) (v : Byte) : Updates s (t.setReg8 r v) := by
  rw [setReg8_eq]
  exact h.setCpu _

theorem setPair (h : Updates s t) (p : Pair) (v : Word) : Updates s (t.setPair p v) := by
  rw [setPair_eq]
  exact h.setCpu _

theorem setStackPair (h : Updates s t) (p : StackPair) (v : Word) : Updates s (t.setStackPair p v) := by
  rw [setStackPair_eq]
  exact h.setCpu _

theorem modifyReg8 (h : Updates s t) (r : Reg8) (f : Byte → Alu) : Updates s (t.modifyReg8 r f) :=
  (h.setReg8 r _).setCpu _

theorem modifyAtHl (h : Updates s t) (f : Byte → Alu) : Updates s (t.modifyAtHl f) := (h.cycle.setCpu _).busWrite _ _

theorem rewriteAtHl (h : Updates s t) (f : Byte → Byte) : Updates s (t.rewriteAtHl f) := h.cycle.busWrite _ _

theorem loadA (h : Updates s t) (a : Word) : Updates s (t.loadA a) := h.cycle.setReg8 .a _

theorem storeA (h : Updates s t) (a : Word) : Updates s (t.storeA a) := h.busWrite a _

theorem fetch8 (h : Updates s t) : Updates s t.fetch8.2 := by
  rw [fetch8_eq]
  exact h.setCpu _

theorem fetchMore (h : Updates s t) (n : Nat) : Updates s (t.fetchMore n).2 := by
  induction n generalizing t with
  | zero => exact h
  | succ n ih => exact ih h.cycle.fetch8

theorem fetchInstr (h : Updates s t) : Updates s t.fetchInstr.2 := (h.fetch8.setCpu _).fetchMore _

theorem decideDispatch (h : Updates s t) (w : Irq) : Updates s (t.decideDispatch w) := by
  unfold State.decideDispatch
  split
  · exact (h.setCpu _).setIntFlag _
  · exact h.setCpu _

theorem dispatch (h : Updates s t) (w : Irq) : Updates s (t.dispatch w) :=
  (((h.setCpu _).cycle.push16 _).decideDispatch w).cycle

theorem complete (h : Updates s t) (i : Instr) (armed : Bool) : Updates s (t.complete i armed) := by
  unfold State.complete
  split
  · exact h
  · exact h.setCpu _

end Updates

/-! ## Instructions -/

variable {s t u : State}

theorem execRotateReg_updates (h : Updates s t) (y : Nat) (r : Reg8) : Completes (execRotateReg y r t) s.Updates := by
  unfold execRotateReg
  split <;> exact ⟨_, rfl, h.modifyReg8 r _⟩

theorem execRotateHl_updates (h : Updates s t) (y : Nat) : Completes (execRotateHl y t) s.Updates := by
  unfold execRotateHl
  split <;> exact ⟨_, rfl, h.modifyAtHl _⟩

theorem execExtended_updates (h : Updates s t) (xop : Byte) : Completes (execExtended xop t) s.Updates := by
  unfold execExtended
  simp only
  split
  · exact execRotateReg_updates h _ _
  · exact execRotateHl_updates h _
  · exact ⟨_, rfl, h.setCpu _⟩
  · exact ⟨_, rfl, h.cycle.setCpu _⟩
  · exact ⟨_, rfl, h.setReg8 _ _⟩
  · exact ⟨_, rfl, h.rewriteAtHl _⟩
  · exact ⟨_, rfl, h.setReg8 _ _⟩
  · exact ⟨_, rfl, h.rewriteAtHl _⟩

/-- Every instruction completes, and is put together from the six updates. -/
theorem exec_updates (h : Updates s t) (i : Instr) : Completes (exec i t) s.Updates := by
  cases i
  case nop => exact ⟨_, rfl, h⟩
  case addAR | adcAR | subR | sbcAR | andR | xorR | orR | cpR | addAN | adcAN | subN | sbcAN | andN | xorN | orN | cpN
      | daa | cpl | scf | ccf | rlca | rrca | rla | rra | bitBR | jpHl | halt | di | ei
      | illegalD3 | illegalDB | illegalDD | illegalE3 | illegalE4 | illegalEB | illegalEC | illegalED | illegalF4
      | illegalFC | illegalFD => exact ⟨_, rfl, h.setCpu _⟩
  case addAHl | adcAHl | subHl | sbcAHl | andHl | xorHl | orHl | cpHl | bitBHl => exact ⟨_, rfl, h.cycle.setCpu _⟩
  case ldRR | ldRN | resBR | setBR => exact ⟨_, rfl, h.setReg8 _ _⟩
  case ldRHl => exact ⟨_, rfl, h.cycle.setReg8 _ _⟩
  case incR | decR | rlcR | rrcR | rlR | rrR | slaR | sraR | swapR | srlR => exact ⟨_, rfl, h.modifyReg8 _ _⟩
  case incHl | decHl | rlcHl | rrcHl | rlHl | rrHl | slaHl | sraHl | swapHl | srlHl => exact ⟨_, rfl, h.modifyAtHl _⟩
  case resBHl | setBHl => exact ⟨_, rfl, h.rewriteAtHl _⟩
  case ldHlR | ldHlN | ldBcA | ldDeA | ldNnA | ldhCA | ldhNA => exact ⟨_, rfl, h.busWrite _ _⟩
  case ldABc | ldADe | ldANn | ldhAC | ldhAN => exact ⟨_, rfl, h.loadA _⟩
  case ldAHli | ldAHld => exact ⟨_, rfl, (h.loadA _).setCpu _⟩
  case ldHliA | ldHldA => exact ⟨_, rfl, (h.storeA _).setCpu _⟩
  case ldRrNn => exact ⟨_, rfl, h.setPair _ _⟩
  case incRr | decRr => exact ⟨_, rfl, (h.setPair _ _).cycle⟩
  case addHlRr | ldSpHl | ldHlSpE | jpNn | jrE => exact ⟨_, rfl, (h.setCpu _).cycle⟩
  case addSpE => exact ⟨_, rfl, (h.setCpu _).cycle.cycle⟩
  case ldNnSp => exact ⟨_, rfl, h.busWrite16 _ _⟩
  case pushRr => exact ⟨_, rfl, h.cycle.push16 _⟩
  case popRr => exact ⟨_, rfl, h.pop16.setStackPair _ _⟩
  case popAf => exact ⟨_, rfl, h.pop16.setCpu _⟩
  case callNn | rstT => exact ⟨_, rfl, (h.cycle.push16 _).setCpu _⟩
  case ret | reti => exact ⟨_, rfl, (h.pop16.setCpu _).cycle⟩
  case jpCcNn | jrCcE =>
    refine ⟨_, rfl, ?_⟩
    split
    · exact (h.setCpu _).cycle
    · exact h
  case callCcNn =>
    refine ⟨_, rfl, ?_⟩
    split
    · exact (h.cycle.push16 _).setCpu _
    · exact h
  case retCc =>
    simp only [exec, execRetCc]
    split
    · exact ⟨_, rfl, (h.cycle.pop16.setCpu _).cycle⟩
    · exact ⟨_, rfl, h.cycle⟩
  case stop =>
    simp only [exec, execStop]
    split
    · exact ⟨_, rfl, h.setKey1 _⟩
    · exact ⟨_, rfl, h.setCpu _⟩
  case prefixCB => exact execExtended_updates h.cycle.fetch8 _

/-! ## Steps -/

theorem runInstr_updates (h : Updates s t) (hr : t.runInstr = .next u) : Updates s u := by
  unfold runInstr at hr
  split at hr
  · cases hr
  · next i _ _ =>
    obtain ⟨v, hv, hsv⟩ := exec_updates h.fetchInstr i
    rw [hv] at hr
    cases hr
    exact (hsv.complete i _).endCycle

/-- A step is put together from the six updates. -/
theorem step_updates (h : step s = .next t) : Updates s t := by
  have hb : Updates s s.beginCycle := Updates.refl.beginCycle
  unfold step at h
  simp only at h
  split at h
  · cases h
  · split at h
    · cases h
      exact hb.endCycle
    · split at h
      · cases h
        exact ((hb.setCpu _).dispatch _).endCycle
      · exact runInstr_updates (hb.setCpu _) h

/-! ## What the six updates keep -/

/-- No update changes a launch parameter (R7). -/
theorem Updates.launch_eq (h : Updates s t) : t.launch = s.launch := by
  induction h with
  | refl => rfl
  | beginCycle _ ih => rw [beginCycle_launch, ih]
  | memWrite _ a v ih => rw [memWrite_launch, ih]
  | endCycle _ ih | setCpu _ _ ih | setKey1 _ _ ih | setIntFlag _ _ ih => exact ih

/-- No update clears the latch of the boot overlay: of the six only a bus write touches it (R82). -/
theorem Updates.bootDisabled (h : Updates s t) (hs : s.bootDisabled = true) : t.bootDisabled = true := by
  induction h with
  | refl => exact hs
  | beginCycle _ ih => rw [beginCycle_bootDisabled, ih]
  | memWrite _ a v ih => exact memWrite_bootDisabled _ a v ih
  | endCycle _ ih | setCpu _ _ ih | setKey1 _ _ ih | setIntFlag _ _ ih => exact ih

end Sys2Proof.Machine.State

namespace Sys2Proof.Machine

/-- Settles O57: a step is put together from the six updates, and each of them keeps both facts. -/
theorem launchNeverChanges : Obligations.LaunchNeverChanges := fun _ _ h =>
  ⟨(State.step_updates h).launch_eq, (State.step_updates h).bootDisabled⟩

end Sys2Proof.Machine

/-! # The fetch -/

namespace Sys2Proof.Machine

/-- At most two bytes follow the first (R150). -/
theorem operandCount_le_two (op : Byte) : operandCount op ≤ 2 := by
  unfold operandCount
  simp only
  repeat' split
  all_goals omega

/-- A first byte with the bytes that it calls for decodes, and no byte is left (R154). -/
theorem decode_of_length {op : Byte} {rest : List Byte} (h : rest.length = operandCount op) :
    ∃ i, decode (op :: rest) = .ok (i, []) := by
  by_cases hp : op = prefixByte
  · subst hp
    obtain ⟨xop, rfl⟩ := List.length_eq_one_iff.mp h
    exact ⟨_, encodes_cb rfl []⟩
  · match rest, h with
    | [], h => exact ⟨_, encodes_op hp h.symm rfl []⟩
    | [n], h => exact ⟨_, encodes_op_n hp h.symm rfl []⟩
    | [lo, hi], h => exact ⟨_, encodes_op_nn hp h.symm rfl []⟩
    | _ :: _ :: _ :: _, h =>
      have := operandCount_le_two op
      simp only [List.length_cons] at h
      omega

namespace State

/-- The bytes that `n` fetches from `pc` on read, each in an M-cycle of its own after the one that `s` is in. -/
def bytesAt (s : State) (pc : Word) (n : Nat) : List Byte :=
  (List.range n).map fun k => (s.cycles (k + 1)).memRead (pc + BitVec.ofNat 16 k)

theorem bytesAt_length (s : State) (pc : Word) (n : Nat) : (s.bytesAt pc n).length = n := by simp [bytesAt]

theorem bytesAt_setCpu (s : State) (c : Cpu) (pc : Word) (n : Nat) : (s.setCpu c).bytesAt pc n = s.bytesAt pc n := by
  simp [bytesAt]

/-- One address on, then `k` more. -/
theorem add_one_add_ofNat (pc : Word) (k : Nat) : pc + 1 + BitVec.ofNat 16 k = pc + BitVec.ofNat 16 (k + 1) := by
  rw [BitVec.add_assoc, Nat.add_comm, BitVec.ofNat_add]
  rfl

/-- The first byte, and the others from the next M-cycle and the next address on. -/
theorem bytesAt_succ (s : State) (pc : Word) (n : Nat) :
    s.bytesAt pc (n + 1) = s.cycle.memRead pc :: s.cycle.bytesAt (pc + 1) n := by
  simp only [bytesAt, List.range_succ_eq_map, List.map_cons, List.map_map, Function.comp_def, Nat.succ_eq_add_one,
    cycles_cycle, add_one_add_ofNat, Nat.zero_add, cycles_one, BitVec.add_zero]

/-- Without the halt bug `n` more bytes are fetched from PC on, and PC moves past them (R24, R152). -/
theorem fetchMore_eq (n : Nat) (s : State) (hb : s.cpu.haltBug = false) :
    s.fetchMore n =
      (s.bytesAt s.cpu.pc n, (s.cycles n).setCpu { s.cpu with pc := s.cpu.pc + BitVec.ofNat 16 n }) := by
  induction n generalizing s with
  | zero => rw [BitVec.add_zero]; rfl
  | succ n ih =>
    have hf : s.cycle.fetch8 = (s.cycle.memRead s.cpu.pc, s.cycle.setCpu { s.cpu with pc := s.cpu.pc + 1 }) := by
      simp [fetch8_eq, hb]
    have hrest := ih (s.cycle.setCpu { s.cpu with pc := s.cpu.pc + 1 }) hb
    simp only [fetchMore, hf, hrest, bytesAt_succ, bytesAt_setCpu, setCpu_cpu, cycles_setCpu, setCpu_setCpu,
      cycles_cycle, add_one_add_ofNat]

/-- The fetch: the opcode's byte, then the bytes that it calls for. -/
theorem fetchInstr_eq (s : State) :
    let n := operandCount (s.memRead s.cpu.pc)
    let first : Word := if s.cpu.haltBug then s.cpu.pc else s.cpu.pc + 1
    s.fetchInstr =
      (s.memRead s.cpu.pc :: s.bytesAt first n,
        (s.cycles n).setCpu
          { s.cpu with pc := first + BitVec.ofNat 16 n, haltBug := false, opcodeAddr := s.cpu.pc }) := by
  intro n first
  simp only [fetchInstr, fetch8_eq, setCpu_cpu, setCpu_setCpu]
  rw [fetchMore_eq _ _ rfl]
  simp only [setCpu_cpu, cycles_setCpu, setCpu_setCpu, bytesAt_setCpu, n, first]

end State

/-- Settles O36, from the closed form of the fetch; the bytes decode because the opcode says how many follow. -/
theorem fetchReadsBytes : Obligations.FetchReadsBytes := by
  intro s n first
  rw [s.fetchInstr_eq]
  exact ⟨rfl, rfl, State.onlyCpu_setCpu n _, decode_of_length (State.bytesAt_length s first n)⟩

end Sys2Proof.Machine

/-! # What a step can do -/

namespace Sys2Proof.Machine

theorem Completes.holds {o : Host.Outcome State Fault Refusal} {P : State → Prop} {t : State} (h : Completes o P)
    (ho : o = .next t) : P t := by
  obtain ⟨u, hu, hP⟩ := h
  rw [ho] at hu
  cases hu
  exact hP

namespace State

variable {s t : State}

theorem atFetch_cpu (s : State) : s.atFetch.cpu = { s.cpu with halted := false, stopped := false } := by
  simp [atFetch]

/-- The wait is over, PC moves, the halt bug is used up and the opcode's address is kept; a fetch touches nothing else
of the CPU. -/
theorem fetched_cpu (s : State) :
    s.atFetch.fetchInstr.2.cpu =
      { s.cpu with
        halted := false, stopped := false, pc := s.atFetch.fetchInstr.2.cpu.pc, haltBug := false,
        opcodeAddr := s.cpu.pc } := by
  simp [fetchInstr_eq, atFetch_cpu]

/-- A machine that takes a step has not faulted, and the step is one of three (R420): an idle M-cycle of a wait with
nothing pending, a dispatch, or the instruction that the fetched bytes decode to. -/
theorem step_cases (h : step s = .next t) :
    s.cpu.faulted = false ∧
      (((s.cpu.halted = true ∨ s.cpu.stopped = true) ∧ s.beginCycle.pend = 0 ∧ t = s.beginCycle.endCycle) ∨
        (∃ w, s.atFetch.interrupt = some w ∧ t = (s.atFetch.dispatch w).endCycle) ∨
        ∃ i u, s.fetches = true ∧ decode s.atFetch.fetchInstr.1 = .ok (i, []) ∧
          exec i s.atFetch.fetchInstr.2 = .next u ∧ t = (u.complete i s.cpu.imePending).endCycle) := by
  unfold step at h
  simp only [beginCycle_cpu] at h
  split at h
  case isTrue => cases h
  case isFalse hf =>
    refine ⟨by simpa using hf, ?_⟩
    split at h
    case isTrue hwait =>
      cases h
      simp only [Bool.and_eq_true, Bool.or_eq_true, beq_iff_eq] at hwait
      exact .inl ⟨hwait.1, hwait.2, rfl⟩
    case isFalse hwait =>
      split at h
      · next w hw =>
        cases h
        exact .inr (.inl ⟨w, hw, rfl⟩)
      · next hirq =>
        change s.beginCycle.interrupt = none at hirq
        change s.atFetch.runInstr = .next t at h
        have hready : (!(s.cpu.halted || s.cpu.stopped) || s.beginCycle.pend != 0) = true := by
          rw [bne, ← Bool.not_and, Bool.not_eq_true']
          exact Bool.eq_false_iff.mpr hwait
        have hfetches : s.fetches = true := by
          rw [fetches, hready, hirq, eq_false_of_ne_true hf]
          rfl
        obtain ⟨i, hi⟩ : ∃ i, decode s.atFetch.fetchInstr.1 = .ok (i, []) := by
          rw [fetchInstr_eq]
          exact decode_of_length (bytesAt_length _ _ _)
        obtain ⟨u, hu, -⟩ := exec_updates (.refl (s := s.atFetch.fetchInstr.2)) i
        simp only [runInstr, hi, hu, atFetch_cpu] at h
        cases h
        exact .inr (.inr ⟨i, u, hfetches, hi, hu, rfl⟩)

end State

end Sys2Proof.Machine

/-! # What an instruction does to the latches of the CPU

The latches are IME with its arming, the waits and the fault. HALT, STOP, DI, EI, RETI and the illegal opcodes write
them; every other instruction writes registers, SP and PC only. -/

namespace Sys2Proof.Machine

/-- The CPU of `t` is `c` but for the registers, SP, PC and the halt bug, and the low nibble of F is still 0 (R23). -/
structure Latched (c : Cpu) (t : State) : Prop where
  cpu :
    t.cpu =
      { c with
        a := t.cpu.a, f := t.cpu.f, b := t.cpu.b, c := t.cpu.c, d := t.cpu.d, e := t.cpu.e, h := t.cpu.h,
        l := t.cpu.l, sp := t.cpu.sp, pc := t.cpu.pc, haltBug := t.cpu.haltBug }
  lowNibble : c.f &&& 0x0F = 0 → t.cpu.f &&& 0x0F = 0

/-- The CPU of `s` with the latches as the instruction leaves them: what R339, R361 to R365 and R400 say of them. -/
def State.latchesAfter (s : State) (i : Instr) : Cpu :=
  match i with
  | .halt => { s.cpu with halted := true }
  | .stop _ => if s.key1.speedArmed then s.cpu else { s.cpu with stopped := true }
  | .di => { s.cpu with ime := false, imePending := false }
  | .ei => { s.cpu with imePending := true }
  | .reti => { s.cpu with ime := true, imePending := false }
  | .illegalD3 | .illegalDB | .illegalDD | .illegalE3 | .illegalE4 | .illegalEB | .illegalEC | .illegalED
  | .illegalF4 | .illegalFC | .illegalFD =>
    { s.cpu with faulted := true, faultOp := (encode i).headD 0, faultPc := s.cpu.opcodeAddr }
  | _ => s.cpu

namespace Latched

variable {c : Cpu} {t : State}

theorem refl (s : State) : Latched s.cpu s := ⟨rfl, id⟩

theorem ime (h : Latched c t) : t.cpu.ime = c.ime := by rw [h.cpu]
theorem imePending (h : Latched c t) : t.cpu.imePending = c.imePending := by rw [h.cpu]
theorem halted (h : Latched c t) : t.cpu.halted = c.halted := by rw [h.cpu]
theorem stopped (h : Latched c t) : t.cpu.stopped = c.stopped := by rw [h.cpu]
theorem faulted (h : Latched c t) : t.cpu.faulted = c.faulted := by rw [h.cpu]

theorem sound (h : Latched c t) (hc : c.Sound) : t.cpu.Sound where
  lowNibble := h.lowNibble hc.lowNibble
  oneWait := by rw [h.halted, h.stopped]; exact hc.oneWait
  faultNotWaiting := by rw [h.halted, h.stopped, h.faulted]; exact hc.faultNotWaiting

/-! ## The shared operations -/

/-- The same for any operation that leaves the CPU as it is. -/
theorem of_cpu_eq {u : State} (h : Latched c t) (hu : u.cpu = t.cpu) : Latched c u := by
  constructor
  · rw [hu]; exact h.cpu
  · rw [hu]; exact h.lowNibble

/-- Registers other than F, SP, PC and the halt bug are written. -/
theorem setRegs (h : Latched c t) {d : Cpu}
    (hd : d = { t.cpu with
      a := d.a, b := d.b, c := d.c, d := d.d, e := d.e, h := d.h, l := d.l, sp := d.sp, pc := d.pc,
      haltBug := d.haltBug }) : Latched c (t.setCpu d) :=
  ⟨by rw [State.setCpu_cpu, hd, h.cpu], by rw [State.setCpu_cpu, hd]; exact h.lowNibble⟩

/-- F is written too, through the mask of R23. -/
theorem setMasked (h : Latched c t) {d : Cpu} (v : Byte)
    (hd : d = { t.cpu with
      a := d.a, f := v &&& 0xF0, b := d.b, c := d.c, d := d.d, e := d.e, h := d.h, l := d.l, sp := d.sp,
      pc := d.pc, haltBug := d.haltBug }) : Latched c (t.setCpu d) :=
  ⟨by rw [State.setCpu_cpu, hd, h.cpu], fun _ => by rw [State.setCpu_cpu, hd]; exact masked_low v⟩

theorem setPc (h : Latched c t) (v : Word) : Latched c (t.setPc v) := h.setRegs rfl

theorem cycle (h : Latched c t) : Latched c t.cycle := h.of_cpu_eq t.cycle_cpu

theorem memWrite (h : Latched c t) (a : Word) (v : Byte) : Latched c (t.memWrite a v) :=
  h.of_cpu_eq (t.memWrite_cpu a v)

theorem busWrite (h : Latched c t) (a : Word) (v : Byte) : Latched c (t.busWrite a v) := h.cycle.memWrite a v

theorem push16 (h : Latched c t) (v : Word) : Latched c (t.push16 v) := by
  rw [State.push16_eq]
  exact ((h.cycle.memWrite _ _).cycle.memWrite _ _).setRegs (by simp)

theorem pop16 (h : Latched c t) : Latched c t.pop16.2 := by
  rw [State.pop16_eq]
  exact h.cycle.cycle.setRegs (by simp)

theorem setReg8 (h : Latched c t) (r : Reg8) (v : Byte) : Latched c (t.setReg8 r v) := by
  cases r <;> exact h.setRegs rfl

theorem setPair (h : Latched c t) (p : Pair) (v : Word) : Latched c (t.setPair p v) := by
  cases p <;> exact h.setRegs rfl

theorem setStackPair (h : Latched c t) (p : StackPair) (v : Word) : Latched c (t.setStackPair p v) := by
  cases p
  case af => exact h.setMasked _ rfl
  case bc | de | hl => exact h.setRegs rfl

theorem modifyReg8 (h : Latched c t) (r : Reg8) (f : Byte → Alu) : Latched c (t.modifyReg8 r f) :=
  (h.setReg8 r _).setMasked _ rfl

theorem modifyAtHl (h : Latched c t) (f : Byte → Alu) : Latched c (t.modifyAtHl f) :=
  (h.cycle.setMasked _ rfl).busWrite _ _

theorem rewriteAtHl (h : Latched c t) (f : Byte → Byte) : Latched c (t.rewriteAtHl f) := h.cycle.busWrite _ _

theorem loadA (h : Latched c t) (a : Word) : Latched c (t.loadA a) := h.cycle.setReg8 .a _

theorem fetch8 (h : Latched c t) : Latched c t.fetch8.2 := by
  rw [State.fetch8_eq]
  exact h.setRegs rfl

end Latched

/-! ## Instructions -/

variable {c : Cpu} {s t : State}

theorem execExtended_latched (h : Latched c t) (xop : Byte) : Completes (execExtended xop t) (Latched c) := by
  unfold execExtended
  simp only
  split
  · unfold execRotateReg
    split <;> exact ⟨_, rfl, h.modifyReg8 _ _⟩
  · unfold execRotateHl
    split <;> exact ⟨_, rfl, h.modifyAtHl _⟩
  · exact ⟨_, rfl, h.setMasked _ rfl⟩
  · exact ⟨_, rfl, h.cycle.setMasked _ rfl⟩
  · exact ⟨_, rfl, h.setReg8 _ _⟩
  · exact ⟨_, rfl, h.rewriteAtHl _⟩
  · exact ⟨_, rfl, h.setReg8 _ _⟩
  · exact ⟨_, rfl, h.rewriteAtHl _⟩

/-- Every instruction leaves the latches as `latchesAfter` says. -/
theorem exec_latched (i : Instr) (s : State) : Completes (exec i s) (Latched (s.latchesAfter i)) := by
  have h : Latched s.cpu s := .refl s
  cases i
  case nop => exact ⟨_, rfl, h⟩
  case halt | di | ei | illegalD3 | illegalDB | illegalDD | illegalE3 | illegalE4 | illegalEB | illegalEC
      | illegalED | illegalF4 | illegalFC | illegalFD => exact ⟨_, rfl, rfl, id⟩
  case stop =>
    simp only [exec, execStop, State.latchesAfter]
    split <;> exact ⟨_, rfl, rfl, id⟩
  case reti =>
    refine ⟨_, rfl, ?_, ?_⟩ <;> simp [State.returnFromInterrupt, State.pop16_eq, State.internal, State.latchesAfter]
  case addAR | adcAR | subR | sbcAR | andR | xorR | orR | cpR | addAN | adcAN | subN | sbcAN | andN | xorN | orN | cpN
      | daa | cpl | scf | ccf | rlca | rrca | rla | rra | bitBR => exact ⟨_, rfl, h.setMasked _ rfl⟩
  case addAHl | adcAHl | subHl | sbcAHl | andHl | xorHl | orHl | cpHl | bitBHl =>
    exact ⟨_, rfl, h.cycle.setMasked _ rfl⟩
  case jpHl => exact ⟨_, rfl, h.setPc _⟩
  case ldRR | ldRN | resBR | setBR => exact ⟨_, rfl, h.setReg8 _ _⟩
  case ldRHl => exact ⟨_, rfl, h.cycle.setReg8 _ _⟩
  case incR | decR | rlcR | rrcR | rlR | rrR | slaR | sraR | swapR | srlR => exact ⟨_, rfl, h.modifyReg8 _ _⟩
  case incHl | decHl | rlcHl | rrcHl | rlHl | rrHl | slaHl | sraHl | swapHl | srlHl => exact ⟨_, rfl, h.modifyAtHl _⟩
  case resBHl | setBHl => exact ⟨_, rfl, h.rewriteAtHl _⟩
  case ldHlR | ldHlN | ldBcA | ldDeA | ldNnA | ldhCA | ldhNA => exact ⟨_, rfl, h.busWrite _ _⟩
  case ldABc | ldADe | ldANn | ldhAC | ldhAN => exact ⟨_, rfl, h.loadA _⟩
  case ldAHli | ldAHld => exact ⟨_, rfl, (h.loadA _).setRegs rfl⟩
  case ldHliA | ldHldA => exact ⟨_, rfl, (h.busWrite _ _).setRegs rfl⟩
  case ldRrNn => exact ⟨_, rfl, h.setPair _ _⟩
  case incRr | decRr => exact ⟨_, rfl, (h.setPair _ _).cycle⟩
  case addHlRr | ldHlSpE => exact ⟨_, rfl, (h.setMasked _ rfl).cycle⟩
  case ldSpHl => exact ⟨_, rfl, (h.setRegs rfl).cycle⟩
  case jpNn | jrE => exact ⟨_, rfl, (h.setPc _).cycle⟩
  case addSpE => exact ⟨_, rfl, (h.setMasked _ rfl).cycle.cycle⟩
  case ldNnSp => exact ⟨_, rfl, (h.busWrite _ _).busWrite _ _⟩
  case pushRr => exact ⟨_, rfl, h.cycle.push16 _⟩
  case popRr => exact ⟨_, rfl, h.pop16.setStackPair _ _⟩
  case popAf => exact ⟨_, rfl, h.pop16.setStackPair .af _⟩
  case callNn | rstT => exact ⟨_, rfl, (h.cycle.push16 _).setPc _⟩
  case ret => exact ⟨_, rfl, (h.pop16.setPc _).cycle⟩
  case jpCcNn | jrCcE =>
    refine ⟨_, rfl, ?_⟩
    split
    · exact (h.setPc _).cycle
    · exact h
  case callCcNn =>
    refine ⟨_, rfl, ?_⟩
    split
    · exact (h.cycle.push16 _).setPc _
    · exact h
  case retCc =>
    simp only [exec, execRetCc]
    split
    · exact ⟨_, rfl, (h.cycle.pop16.setPc _).cycle⟩
    · exact ⟨_, rfl, h.cycle⟩
  case prefixCB => exact execExtended_latched h.cycle.fetch8 _

end Sys2Proof.Machine

/-! # Every step keeps the invariant -/

namespace Sys2Proof.Machine

/-- A CPU that neither waits nor has faulted is sound after any instruction: at most one latch is set. -/
theorem latchesAfter_sound {s : State} (h : s.cpu.Sound) (hh : s.cpu.halted = false) (hs : s.cpu.stopped = false)
    (hf : s.cpu.faulted = false) (i : Instr) : (s.latchesAfter i).Sound := by
  have hlow := h.lowNibble
  unfold State.latchesAfter
  split
  case h_1 => exact ⟨hlow, by simp [hs], by simp [hf]⟩
  case h_2 =>
    split
    · exact h
    · exact ⟨hlow, by simp [hh], by simp [hf]⟩
  case h_3 | h_4 | h_5 | h_17 => exact h.of_eq rfl rfl rfl rfl
  all_goals exact ⟨hlow, by simp [hh], fun _ => ⟨hh, hs⟩⟩

namespace State

variable {s t : State}

theorem Sound.setKey1 (h : s.Sound) (k : Key1) : State.Sound { s with key1 := k } :=
  have hm := h.memories
  ⟨h.launch, h.cpu, h.ppu, ⟨hm.vram, hm.wram, hm.oam, hm.hram, hm.io, hm.xram, hm.rtc⟩, h.dma, h.bankA, h.bankB,
    h.overlay⟩

theorem Sound.setIntFlag (h : s.Sound) (f : BitVec 5) : State.Sound { s with intFlag := f } :=
  have hm := h.memories
  ⟨h.launch, h.cpu, h.ppu, ⟨hm.vram, hm.wram, hm.oam, hm.hram, hm.io, hm.xram, hm.rtc⟩, h.dma, h.bankA, h.bankB,
    h.overlay⟩

/-- Beside the CPU, each of the six updates keeps a sound machine sound: it is sound with any sound CPU put in. -/
theorem Updates.sound_setCpu (h : Updates s t) (hs : s.Sound) {c : Cpu} (hc : c.Sound) : (t.setCpu c).Sound := by
  induction h with
  | refl => exact hs.setCpu hc
  | setCpu _ d ih => exact ih
  | beginCycle _ ih => rw [← beginCycle_setCpu]; exact ih.beginCycle
  | endCycle _ ih => rw [← endCycle_setCpu]; exact ih.endCycle
  | memWrite _ a v ih => rw [← memWrite_setCpu]; exact ih.memWrite a v
  | setKey1 _ k ih => exact ih.setKey1 k
  | setIntFlag _ f ih => exact ih.setIntFlag f

/-- An instruction keeps the machine sound: its updates keep all but the CPU, and its latches are sound. -/
theorem Sound.exec (h : s.Sound) (hh : s.cpu.halted = false) (hs : s.cpu.stopped = false)
    (hf : s.cpu.faulted = false) {i : Instr} (ht : exec i s = .next t) : t.Sound := by
  have hupdates : s.Updates t := (exec_updates .refl i).holds ht
  have hlatched : Latched (s.latchesAfter i) t := (exec_latched i s).holds ht
  exact hupdates.sound_setCpu h (hlatched.sound (latchesAfter_sound h.cpu hh hs hf i))

end State

/-- Settles O56: each of the three kinds of step keeps the machine sound, and ends with `DriverOr`, which takes the
request outputs. -/
theorem stepKeepsInvariant : Obligations.StepKeepsInvariant := by
  intro s t hinv hstep
  have hs : s.Sound := hinv.sound
  have hfetch : s.atFetch.Sound := hs.beginCycle.wake
  obtain ⟨hf, ⟨-, -, rfl⟩ | ⟨w, -, rfl⟩ | ⟨i, u, -, -, hexec, rfl⟩⟩ := State.step_cases hstep
  · exact hs.beginCycle.inv_endCycle
  · exact (hfetch.dispatch w).inv_endCycle
  · have hcpu := s.fetched_cpu
    have hu : u.Sound :=
      hfetch.fetchInstr.exec (by rw [hcpu]) (by rw [hcpu]) (by rw [hcpu]; exact hf) hexec
    exact (hu.complete i _).inv_endCycle

/-! # Where IME and its arming come from -/

theorem State.dispatch_imePending (s : State) (w : Irq) : (s.dispatch w).cpu.imePending = false := by
  unfold State.dispatch State.decideDispatch
  simp only
  split <;> simp [State.internal, State.push16_eq]

/-- Of the instructions only RETI sets IME. -/
theorem latchesAfter_ime {s : State} {i : Instr} (h : (s.latchesAfter i).ime = true) :
    s.cpu.ime = true ∨ i = .reti := by
  unfold State.latchesAfter at h
  split at h
  case h_2 => split at h <;> exact .inl h
  case h_3 => cases h
  case h_5 => exact .inr rfl
  all_goals exact .inl h

/-- Of the instructions only EI arms the enable. -/
theorem latchesAfter_imePending {s : State} {i : Instr} (h : (s.latchesAfter i).imePending = true) :
    s.cpu.imePending = true ∨ i = .ei := by
  unfold State.latchesAfter at h
  split at h
  case h_2 => split at h <;> exact .inl h
  case h_3 | h_5 => cases h
  case h_4 => exact .inr rfl
  all_goals exact .inl h

/-- The completion rule sets IME only from an armed enable (R364). -/
theorem complete_ime {s : State} {i : Instr} {armed : Bool} (h : (s.complete i armed).cpu.ime = true) :
    armed = true ∨ s.cpu.ime = true := by
  unfold State.complete at h
  split at h
  · exact .inr h
  · simp only [State.setCpu_cpu] at h
    split at h
    · next ha => exact .inl ha.1
    · exact .inr h

/-- The completion rule arms nothing (R364). -/
theorem complete_imePending {s : State} {i : Instr} {armed : Bool}
    (h : (s.complete i armed).cpu.imePending = true) : s.cpu.imePending = true := by
  unfold State.complete at h
  split at h
  · exact h
  · simp only [State.setCpu_cpu] at h
    split at h
    · cases h
    · exact h

/-- Settles O59: an idle M-cycle changes no latch, a dispatch is taken with IME set and drops the arming, and of the
instructions RETI and EI alone set the two latches. -/
theorem imeSetOnlyByEiOrReti : Obligations.ImeSetOnlyByEiOrReti := by
  intro s t hstep
  obtain ⟨-, ⟨-, -, rfl⟩ | ⟨w, hw, rfl⟩ | ⟨i, u, -, hdecode, hexec, rfl⟩⟩ := State.step_cases hstep
  · rw [State.endCycle_cpu, State.beginCycle_cpu]
    exact ⟨fun h0 h1 => by simp [h0] at h1, .inl⟩
  · refine ⟨fun h0 _ => ?_, fun hp => ?_⟩
    · simp [State.interrupt, State.atFetch_cpu, h0] at hw
    · simp [State.dispatch_imePending] at hp
  · have hlatched := (exec_latched i s.atFetch.fetchInstr.2).holds hexec
    have hcpu := s.fetched_cpu
    rw [State.endCycle_cpu, hdecode]
    refine ⟨fun h0 h1 => ?_, fun hp => ?_⟩
    · refine (complete_ime h1).imp_right fun hu => ?_
      rw [hlatched.ime] at hu
      obtain h | rfl := latchesAfter_ime hu
      · rw [hcpu, h0] at h; cases h
      · rfl
    · have hu := complete_imePending hp
      rw [hlatched.imePending] at hu
      obtain h | rfl := latchesAfter_imePending hu
      · rw [hcpu] at h; exact .inl h
      · exact .inr rfl

/-! # The state after reset -/

/-- Settles O55: every field is a literal, so each part of the invariant is decided. -/
theorem resetInvariant : Obligations.ResetInvariant where
  left := rfl
  right :=
    { sound :=
        { launch := by decide
          cpu := ⟨by decide, by decide, by decide⟩
          ppu := ⟨by decide, by decide, by decide, by decide, by decide⟩
          memories := ⟨rfl, rfl, rfl, rfl, rfl, rfl, rfl⟩
          dma := by decide
          bankA := by decide
          bankB := by decide
          overlay := fun _ => rfl }
      vblankTaken := rfl
      statTaken := rfl
      timerTaken := rfl }

/-! # HALT and STOP -/

/-- `pend` is the pending sources of R411. -/
theorem State.pend_ne_zero_iff (s : State) : s.pend ≠ 0 ↔ s.Pending := by
  have hbit : ∀ i, i < 5 → s.pend.getLsbD i = (s.intEnable.getLsbD i && s.intFlag.getLsbD i) := fun i hi => by
    simp [State.pend, hi]
  constructor
  · intro h
    by_contra hn
    refine h (BitVec.eq_of_getLsbD_eq (y := 0#5) fun i hi => ?_)
    rw [hbit i hi, BitVec.getLsbD_zero, Bool.eq_false_iff, ne_eq, Bool.and_eq_true]
    exact fun hb => hn ⟨i, hi, hb⟩
  · rintro ⟨i, hi, he, hf⟩ h
    have := hbit i hi
    simp [h, he, hf] at this

/-- The halt bug's condition on the pending sources, for either value of HALT_BUG_COND (R361). -/
theorem bugCondition_iff (s : State) (cond : HaltBugCond) :
    bugCondition cond (s.pend != 0) = true ↔ cond = .noPending ∧ ¬s.Pending ∨ cond = .pending ∧ s.Pending := by
  rw [← s.pend_ne_zero_iff]
  cases cond <;> simp [bugCondition]

/-- Settles O29. -/
theorem halt : Obligations.Halt := by
  refine ⟨encodes_op (by decide) (by decide) rfl, fun s => ⟨_, rfl, rfl, State.onlyCpu_zero _, ?_⟩⟩
  simp only [State.setCpu_cpu, Bool.or_eq_true, Bool.and_eq_true, Bool.not_eq_true', bugCondition_iff]

/-- The only address of an offset of the I/O page (R75). -/
theorem toNat_of_placeOf_io {a : Word} {off : Nat} (h : placeOf a = .io off) : a.toNat = 0xFF00 + off := by
  unfold placeOf at h
  simp only at h
  (repeat' split at h) <;> simp only [reduceCtorEq, Place.io.injEq] at h
  omega

theorem ioRegAt_eq_key1 {off : Nat} (h : ioRegAt off = .key1) : off = 0x4D := by
  unfold ioRegAt at h
  split at h
  case h_22 => rfl
  case h_24 => split at h <;> cases h
  all_goals cases h

theorem State.ioRead_setKey1 (s : State) (k : Key1) {off : Nat} (h : off ≠ 0x4D) :
    State.ioRead { s with key1 := k } off = s.ioRead off := by
  unfold State.ioRead
  cases hr : ioRegAt off with
  | key1 => exact absurd (ioRegAt_eq_key1 hr) h
  | _ => rfl

/-- KEY1 is read at 0xFF4D and nowhere else (R90). -/
theorem State.memRead_setKey1 (s : State) (k : Key1) {a : Word} (h : a ≠ 0xFF4D) :
    State.memRead { s with key1 := k } a = s.memRead a := by
  unfold State.memRead State.routeRead
  cases hp : placeOf a with
  | io off =>
    have hoff : off ≠ 0x4D := by
      rintro rfl
      exact h (BitVec.eq_of_toNat_eq (toNat_of_placeOf_io hp))
    simp only [State.ioRead_setKey1 s k hoff]
    rfl
  | _ => rfl

/-- What KEY1 reads (R90); the DMA block does not reach the I/O page (R103). -/
theorem State.memRead_key1 (s : State) :
    s.memRead 0xFF4D = bit1 s.key1.doubleSpeed ++ 0b111111#6 ++ bit1 s.key1.speedArmed := by
  simp [State.memRead, State.dmaBlocks, State.routeRead, placeOf, State.ioRead, ioRegAt]

/-- Settles O30: a STOP that switches the speed changes KEY1 alone. -/
theorem stop : Obligations.Stop := by
  refine ⟨fun n => encodes_op_n (by decide) (by decide) rfl, fun n s => ?_⟩
  cases ha : s.key1.speedArmed
  · exact ⟨s.setCpu { s.cpu with stopped := true }, by simp [exec, execStop, ha],
      fun _ => ⟨rfl, State.onlyCpu_zero _⟩, nofun⟩
  · refine ⟨{ s with key1 := { doubleSpeed := !s.key1.doubleSpeed, speedArmed := false } },
      by simp [exec, execStop, ha], nofun, fun _ => ⟨rfl, ?_, fun a h => s.memRead_setKey1 _ h⟩⟩
    rw [State.memRead_key1]
    show bit1 (!s.key1.doubleSpeed) ++ 0b111111#6 ++ bit1 false = if s.key1.doubleSpeed then 0x7E else 0xFE
    cases s.key1.doubleSpeed <;> decide

/-! # What a sub-tick does to the picture -/

namespace Ppu

/-- The picture unit of `q` shows what that of `p` does: the words, the window-line counter and the frame-ready
output are the same. -/
structure SamePicture (p q : Ppu) : Prop where
  framebuffer : q.framebuffer = p.framebuffer
  windowLine : q.windowLine = p.windowLine
  frameReady : q.frameReady = p.frameReady

variable {vram oam : Memory} {sh : Shades} {p : Ppu}

/-- A sub-tick that does not end the mode only counts (R468). -/
theorem subTick_count (h : p.modeTicks + 1 ≠ p.mode.length) :
    p.subTick vram oam sh = { p with modeTicks := p.modeTicks + 1 } := by
  unfold subTick
  cases hm : p.mode <;> rw [hm] at h <;> exact if_neg h

/-- The comparison with LYC can set the STAT request and nothing else (R467). -/
theorem compareEvent_eq (p : Ppu) : p.compareEvent = { p with statReq := p.compareEvent.statReq } := by
  unfold compareEvent
  split <;> rfl

/-- The end of HBlank keeps the picture (R466, R468). -/
theorem endHblank_samePicture (p : Ppu) (n : Nat) : p.SamePicture { p with modeTicks := n }.endHblank := by
  unfold endHblank
  rw [compareEvent_eq]
  simp only
  split <;> exact ⟨rfl, rfl, rfl⟩

/-- The end of a line of VBlank, but for the last, keeps the picture. -/
theorem endVblankLine_samePicture (h : p.ly.toNat < 153) (n : Nat) :
    p.SamePicture { p with modeTicks := n }.endVblankLine := by
  have hly : ¬153 < (p.ly + 1).toNat := by bv_omega
  unfold endVblankLine
  simp only [hly, if_false]
  rw [compareEvent_eq]
  exact ⟨rfl, rfl, rfl⟩

/-- The end of the frame (R39, R468, R475). -/
theorem endVblankLine_last (h : p.ly.toNat = 153) :
    p.endVblankLine.windowLine = 0 ∧ p.endVblankLine.ly = 0 ∧ p.endVblankLine.mode = .oamScan ∧
      p.endVblankLine.frameReady = true := by
  have hly : 153 < (p.ly + 1).toNat := by bv_omega
  unfold endVblankLine
  simp only [hly, if_true]
  rw [compareEvent_eq]
  exact ⟨rfl, rfl, rfl, rfl⟩

theorem endVblankLine_framebuffer (p : Ppu) : p.endVblankLine.framebuffer = p.framebuffer := by
  unfold endVblankLine
  simp only
  split <;> rw [compareEvent_eq]
  rfl

theorem renderLine_visible (h : p.ly.toNat < 144) :
    p.renderLine vram oam sh =
      { p with
        framebuffer := p.framebuffer.writeRow (160 * p.ly.toNat) (p.renderRow vram oam sh p.ly.toNat)
        windowLine := if p.windowDrawn p.ly.toNat then p.windowLine + 1 else p.windowLine } := if_pos h

theorem renderLine_hidden (h : ¬p.ly.toNat < 144) : p.renderLine vram oam sh = p := if_neg h

/-! ## A sub-tick by the mode that it ends (R468) -/

theorem subTick_endOamScan (hm : p.mode = .oamScan) (ht : p.modeTicks = 79) :
    p.subTick vram oam sh = { p with mode := .transfer, modeTicks := 0 }.renderLine vram oam sh := by
  simp [subTick, hm, ht]

theorem subTick_endTransfer (hm : p.mode = .transfer) (ht : p.modeTicks = 171) :
    p.subTick vram oam sh = { p with mode := .hblank, modeTicks := 0 }.statEvent 0 := by
  simp [subTick, hm, ht]

theorem subTick_endHblank (hm : p.mode = .hblank) (ht : p.modeTicks = 203) :
    p.subTick vram oam sh = { p with modeTicks := 204 }.endHblank := by
  simp [subTick, hm, ht]

theorem subTick_endVblankLine (hm : p.mode = .vblank) (ht : p.modeTicks = 455) :
    p.subTick vram oam sh = { p with modeTicks := 456 }.endVblankLine := by
  simp [subTick, hm, ht]

/-- The sub-tick that enters pixel-transfer on a visible line (R470). -/
theorem subTick_render (hm : p.mode = .oamScan) (ht : p.modeTicks = 79) (hy : p.ly.toNat < 144) :
    p.subTick vram oam sh =
      { p with
        mode := .transfer, modeTicks := 0
        framebuffer := p.framebuffer.writeRow (160 * p.ly.toNat) (p.renderRow vram oam sh p.ly.toNat)
        windowLine := if p.windowDrawn p.ly.toNat then p.windowLine + 1 else p.windowLine } := by
  rw [subTick_endOamScan hm ht]
  exact renderLine_visible (p := { p with mode := .transfer, modeTicks := 0 }) hy

/-- A sub-tick that renders no line and ends no frame keeps the picture. -/
theorem subTick_samePicture (hn : ¬(p.mode = .oamScan ∧ p.modeTicks = 79 ∧ p.ly.toNat < 144))
    (hf : ¬(p.mode = .vblank ∧ p.modeTicks = 455 ∧ 153 ≤ p.ly.toNat)) :
    p.SamePicture (p.subTick vram oam sh) := by
  by_cases hend : p.modeTicks + 1 = p.mode.length
  · cases hm : p.mode <;> rw [hm] at hend <;> have ht := Nat.succ.inj hend
    case oamScan =>
      have hy : ¬p.ly.toNat < 144 := fun hy => hn ⟨hm, ht, hy⟩
      rw [subTick_endOamScan hm ht, renderLine_hidden (p := { p with mode := .transfer, modeTicks := 0 }) hy]
      exact ⟨rfl, rfl, rfl⟩
    case transfer =>
      rw [subTick_endTransfer hm ht]
      exact ⟨rfl, rfl, rfl⟩
    case hblank =>
      rw [subTick_endHblank hm ht]
      exact endHblank_samePicture p _
    case vblank =>
      rw [subTick_endVblankLine hm ht]
      exact endVblankLine_samePicture (Nat.lt_of_not_le fun hl => hf ⟨hm, ht, hl⟩) _
  · rw [subTick_count hend]
    exact ⟨rfl, rfl, rfl⟩

/-- A sub-tick that renders no line writes no word, at the end of a frame neither. -/
theorem subTick_framebuffer (hn : ¬(p.mode = .oamScan ∧ p.modeTicks = 79 ∧ p.ly.toNat < 144)) :
    (p.subTick vram oam sh).framebuffer = p.framebuffer := by
  by_cases hf : p.mode = .vblank ∧ p.modeTicks = 455 ∧ 153 ≤ p.ly.toNat
  · rw [subTick_endVblankLine hf.1 hf.2.1, endVblankLine_framebuffer]
  · exact (subTick_samePicture hn hf).framebuffer

theorem windowDrawn_iff (p : Ppu) (y : Nat) :
    p.windowDrawn y = true ↔
      p.lcdc.getLsbD 5 = true ∧ p.lcdc.getLsbD 0 = true ∧ p.wy.toNat ≤ y ∧ p.wx.toNat ≤ 166 := by
  simp only [windowDrawn, Bool.and_eq_true, decide_eq_true_eq, and_assoc]

end Ppu

/-- Settles O52: the sub-tick that renders, the end of the frame, and every other sub-tick, which keeps the picture. -/
theorem renderLine : Obligations.RenderLine := by
  intro vram oam sh p q y now frameEnd
  have hkeep (hy : y ≤ 153) (hf : ¬frameEnd) (hn : ¬now) : p.SamePicture q :=
    Ppu.subTick_samePicture hn fun ⟨hm, ht, hl⟩ => hf ⟨hm, ht, Nat.le_antisymm hy hl⟩
  refine ⟨?_, Ppu.subTick_framebuffer, ?_, fun hy hf => ⟨fun hn => (hkeep hy hf hn).windowLine, ?_⟩⟩
  · rintro ⟨hm, ht, hy⟩
    have hq : q = _ := Ppu.subTick_render hm ht hy
    have hlen : (p.renderRow vram oam sh y).length = 160 := Ppu.renderRow_length y
    rw [hq]
    refine ⟨rfl, fun x hx => ?_, fun i hi => ?_, ?_, ?_⟩
    · rw [← hlen] at hx
      refine (Frame.read_writeRow_row _ _ _ x hx).trans ?_
      simp [Ppu.renderRow]
    · exact Frame.read_writeRow_other _ _ _ i (by rw [hlen]; omega)
    · rw [← p.windowDrawn_iff y]
      by_cases hw : p.windowDrawn y = true <;> simp [y, hw]
    · exact (ite_eq_or_eq _ _ _).symm
  · rintro ⟨hm, ht, hy⟩
    have hq : q = _ := Ppu.subTick_endVblankLine hm ht
    rw [hq]
    exact Ppu.endVblankLine_last hy
  · by_cases hn : now
    · have hq : q = _ := Ppu.subTick_render hn.1 hn.2.1 hn.2.2
      rw [hq]
    · exact (hkeep hy hf hn).frameReady

end Sys2Proof.Machine

/-! # The routing of the bus -/

namespace Sys2Proof.Machine

/-! ## The address map by ranges (R75) -/

section
variable {a : Word}

theorem placeOf_eq_cart (h : a.toNat ≤ 0x7FFF) : placeOf a = .cart a.toNat := if_pos h

theorem placeOf_eq_vram (h : 0x8000 ≤ a.toNat) (h' : a.toNat ≤ 0x9FFF) : placeOf a = .vram (a.toNat - 0x8000) := by
  simp (disch := omega) only [placeOf, if_pos, if_neg]

theorem placeOf_eq_cartRam (h : 0xA000 ≤ a.toNat) (h' : a.toNat ≤ 0xBFFF) :
    placeOf a = .cartRam (a.toNat - 0xA000) := by
  simp (disch := omega) only [placeOf, if_pos, if_neg]

theorem placeOf_eq_wram (h : 0xC000 ≤ a.toNat) (h' : a.toNat ≤ 0xDFFF) : placeOf a = .wram (a.toNat - 0xC000) := by
  simp (disch := omega) only [placeOf, if_pos, if_neg]

/-- The mirror of work RAM (R86). -/
theorem placeOf_eq_mirror (h : 0xE000 ≤ a.toNat) (h' : a.toNat ≤ 0xFDFF) : placeOf a = .wram (a.toNat - 0xE000) := by
  simp (disch := omega) only [placeOf, if_pos, if_neg]

theorem placeOf_eq_oam (h : 0xFE00 ≤ a.toNat) (h' : a.toNat ≤ 0xFE9F) : placeOf a = .oam (a.toNat - 0xFE00) := by
  simp (disch := omega) only [placeOf, if_pos, if_neg]

theorem placeOf_eq_hole (h : 0xFEA0 ≤ a.toNat) (h' : a.toNat ≤ 0xFEFF) : placeOf a = .hole := by
  simp (disch := omega) only [placeOf, if_pos, if_neg]

theorem placeOf_eq_io (h : 0xFF00 ≤ a.toNat) (h' : a.toNat ≤ 0xFF7F) : placeOf a = .io (a.toNat - 0xFF00) := by
  simp (disch := omega) only [placeOf, if_pos, if_neg]

theorem placeOf_eq_hram (h : 0xFF80 ≤ a.toNat) (h' : a.toNat ≤ 0xFFFE) : placeOf a = .hram (a.toNat - 0xFF80) := by
  simp (disch := omega) only [placeOf, if_pos, if_neg]

theorem placeOf_eq_intEnable (h : a.toNat = 0xFFFF) : placeOf a = .intEnable := by
  simp (disch := omega) only [placeOf, if_neg]

end

namespace State

variable {s : State} {a : Word}

/-! ## A read, place by place (R80) -/

section
variable {i : Nat} (blockVram : Bool)

theorem routeRead_cart (h : placeOf a = .cart i) : s.routeRead blockVram a = s.romRead i := by
  simp only [routeRead, h]
theorem routeRead_vram (h : placeOf a = .vram i) :
    s.routeRead blockVram a = if blockVram && s.vramBlocked then 0xFF else s.vram.read i := by simp only [routeRead, h]
theorem routeRead_cartRam (h : placeOf a = .cartRam i) : s.routeRead blockVram a = s.cartRamRead i := by
  simp only [routeRead, h]
theorem routeRead_wram (h : placeOf a = .wram i) : s.routeRead blockVram a = s.wram.read i := by
  simp only [routeRead, h]
theorem routeRead_oam (h : placeOf a = .oam i) : s.routeRead blockVram a = s.oam.read i := by
  simp only [routeRead, h]
theorem routeRead_hole (h : placeOf a = .hole) : s.routeRead blockVram a = 0xFF := by simp only [routeRead, h]
theorem routeRead_io (h : placeOf a = .io i) : s.routeRead blockVram a = s.ioRead i := by simp only [routeRead, h]
theorem routeRead_hram (h : placeOf a = .hram i) : s.routeRead blockVram a = s.hram.read i := by
  simp only [routeRead, h]
theorem routeRead_intEnable (h : placeOf a = .intEnable) : s.routeRead blockVram a = s.intEnable := by
  simp only [routeRead, h]

end

/-- While the overlay is mapped its 256 bytes lie over the cartridge (R82). -/
theorem romRead_overlay {b : Memory} {n : Nat} (hb : s.launch.boot = some b) (hn : n ≤ 0xFF)
    (hd : s.bootDisabled = false) : s.romRead n = b.read n := by
  simp only [romRead, hb, hn, hd, and_self, if_true]

theorem romRead_cart {n : Nat} (h : s.launch.boot = none ∨ n > 0xFF ∨ s.bootDisabled = true) :
    s.romRead n = s.cartRead n := by
  unfold romRead
  split
  · next b hb =>
    refine if_neg fun ⟨hn, hd⟩ => ?_
    obtain h | h | h := h
    · simp [hb] at h
    · omega
    · simp [hd] at h
  · rfl

theorem vramBlocked_iff : s.vramBlocked = true ↔ s.ppu.mode = .transfer := by simp [vramBlocked]

/-! ## The read block of a DMA transfer (R103) -/

theorem dmaBlocks_eq_true (hc : 0 < s.dma.counter) (ha : a.toNat < 0xFF00) : s.dmaBlocks a = true := by
  simp [dmaBlocks, hc, ha]

theorem dmaBlocks_eq_false (h : s.dma.counter = 0 ∨ 0xFF00 ≤ a.toNat) : s.dmaBlocks a = false := by
  simp only [dmaBlocks, Bool.and_eq_false_iff, decide_eq_false_iff_not]
  omega

theorem memRead_blocked (h : s.dmaBlocks a = true) : s.memRead a = 0xFF := if_pos h

theorem memRead_open (h : s.dmaBlocks a = false) : s.memRead a = s.routeRead true a := by simp [memRead, h]

end State

/-- Settles O43: the place of each range, and what a read of that place gives. -/
theorem readRouting : Obligations.ReadRouting := by
  intro s a n
  refine ⟨fun ⟨hc, ha⟩ => State.memRead_blocked (State.dmaBlocks_eq_true hc ha), fun hc => ?_, ?_⟩
  · rw [State.memRead_open (State.dmaBlocks_eq_false (.inl hc))]
    refine ⟨fun b hb hn hd => ?_, fun hn hb => ?_, fun ⟨h, h'⟩ => ?_, fun ⟨h, h'⟩ => ?_, fun ⟨h, h'⟩ => ?_,
      fun ⟨h, h'⟩ => ?_, fun ⟨h, h'⟩ => ?_, fun ⟨h, h'⟩ => ?_⟩
    · rw [State.routeRead_cart _ (placeOf_eq_cart (by omega)), State.romRead_overlay hb hn hd]
    · rw [State.routeRead_cart _ (placeOf_eq_cart hn), State.romRead_cart hb]
      rfl
    · simp only [State.routeRead_vram _ (placeOf_eq_vram h h'), Bool.true_and, State.vramBlocked_iff]
      rfl
    · exact State.routeRead_cartRam _ (placeOf_eq_cartRam h h')
    · exact State.routeRead_wram _ (placeOf_eq_wram h h')
    · exact State.routeRead_wram _ (placeOf_eq_mirror h h')
    · exact State.routeRead_oam _ (placeOf_eq_oam h h')
    · exact State.routeRead_hole _ (placeOf_eq_hole h h')
  · have hopen (h : 0xFF00 ≤ a.toNat) : s.memRead a = s.routeRead true a :=
      State.memRead_open (State.dmaBlocks_eq_false (.inr h))
    refine ⟨fun ⟨h, h'⟩ => ?_, fun ⟨h, h'⟩ => ?_, fun h => ?_⟩
    · rw [hopen h, State.routeRead_io _ (placeOf_eq_io h h')]
    · rw [hopen (by omega), State.routeRead_hram _ (placeOf_eq_hram h h')]
    · rw [hopen (by omega), State.routeRead_intEnable _ (placeOf_eq_intEnable h)]

/-- Settles O44: no case looks at the DMA controller. -/
theorem writeRouting : Obligations.WriteRouting := by
  intro s a v n
  refine ⟨fun h => ?_, fun ⟨h, h'⟩ => ?_, fun ⟨h, h'⟩ => ?_, fun ⟨h, h'⟩ => ?_, fun ⟨h, h'⟩ => ?_, fun ⟨h, h'⟩ => ?_,
    fun ⟨h, h'⟩ => ?_, fun ⟨h, h'⟩ => ?_, fun ⟨h, h'⟩ => ?_, fun h => ?_⟩
  · exact State.memWrite_cart v (placeOf_eq_cart h)
  · simp only [State.memWrite_vram v (placeOf_eq_vram h h'), State.vramBlocked_iff]
    rfl
  · exact State.memWrite_cartRam v (placeOf_eq_cartRam h h')
  · exact State.memWrite_wram v (placeOf_eq_wram h h')
  · exact State.memWrite_wram v (placeOf_eq_mirror h h')
  · exact State.memWrite_oam v (placeOf_eq_oam h h')
  · exact State.memWrite_hole v (placeOf_eq_hole h h')
  · exact State.memWrite_io v (placeOf_eq_io h h')
  · exact State.memWrite_hram v (placeOf_eq_hram h h')
  · exact State.memWrite_intEnable v (placeOf_eq_intEnable h)

/-! # Reading what was written -/

namespace State

variable {s : State} {a b : Word}

/-- The place holds plain bytes of the machine that no bank controller stands in front of, and the picture unit does
not keep the CPU out. -/
def holdsByte (s : State) : Place → Bool
  | .vram _ => !s.vramBlocked
  | .wram _ | .oam _ | .hram _ | .intEnable => true
  | .cart _ | .cartRam _ | .hole | .io _ => false

/-- A byte written under one address of a place is read back under any address of it. -/
theorem memRead_memWrite_of_place (v : Byte) (hs : s.Sound) (hplace : placeOf b = placeOf a)
    (hbyte : s.holdsByte (placeOf a) = true) (hopen : s.dmaBlocks b = false) : (s.memWrite a v).memRead b = v := by
  have hm := hs.memories
  rw [← hplace] at hbyte
  cases hb : placeOf b with
  | cart | cartRam | hole | io => simp [holdsByte, hb] at hbyte
  | vram i =>
    have hv : ¬s.vramBlocked = true := by simpa [holdsByte, hb] using hbyte
    rw [memWrite_vram v (hplace.symm.trans hb), if_neg hv]
    exact Eq.trans (memRead_open hopen)
      (Eq.trans (routeRead_vram true hb) (Eq.trans (if_neg hv) (Memory.read_write_same i v hm.vram)))
  | wram i =>
    rw [memWrite_wram v (hplace.symm.trans hb)]
    exact Eq.trans (memRead_open hopen) (Eq.trans (routeRead_wram true hb) (Memory.read_write_same i v hm.wram))
  | oam i =>
    rw [memWrite_oam v (hplace.symm.trans hb)]
    exact Eq.trans (memRead_open hopen) (Eq.trans (routeRead_oam true hb) (Memory.read_write_same i v hm.oam))
  | hram i =>
    rw [memWrite_hram v (hplace.symm.trans hb)]
    exact Eq.trans (memRead_open hopen) (Eq.trans (routeRead_hram true hb) (Memory.read_write_same i v hm.hram))
  | intEnable =>
    rw [memWrite_intEnable v (hplace.symm.trans hb)]
    exact Eq.trans (memRead_open hopen) (routeRead_intEnable true hb)

/-- The addresses of such a place. -/
theorem holdsByte_placeOf
    (h : (0x8000 ≤ a.toNat ∧ a.toNat ≤ 0x9FFF ∧ s.ppu.mode ≠ .transfer) ∨
      (0xC000 ≤ a.toNat ∧ a.toNat ≤ 0xFE9F) ∨ 0xFF80 ≤ a.toNat) : s.holdsByte (placeOf a) = true := by
  obtain ⟨h1, h2, hmode⟩ | ⟨h1, h2⟩ | h1 := h
  · have hv : s.vramBlocked = false := by simp [vramBlocked, hmode]
    simp [placeOf_eq_vram h1 h2, holdsByte, hv]
  · obtain h3 | h3 | h3 : a.toNat ≤ 0xDFFF ∨ (0xE000 ≤ a.toNat ∧ a.toNat ≤ 0xFDFF) ∨ 0xFE00 ≤ a.toNat := by omega
    · rw [placeOf_eq_wram h1 h3]; rfl
    · rw [placeOf_eq_mirror h3.1 h3.2]; rfl
    · rw [placeOf_eq_oam h3 h2]; rfl
  · obtain h2 | h2 : a.toNat ≤ 0xFFFE ∨ a.toNat = 0xFFFF := by omega
    · rw [placeOf_eq_hram h1 h2]; rfl
    · rw [placeOf_eq_intEnable h2]; rfl

/-- Two addresses of work RAM 0x2000 apart are one place (R86). -/
theorem placeOf_mirror (h : 0xC000 ≤ a.toNat) (h' : a.toNat ≤ 0xDDFF) (hb : b.toNat = a.toNat + 0x2000) :
    placeOf b = placeOf a := by
  rw [placeOf_eq_wram h (by omega), placeOf_eq_mirror (by omega) (by omega)]
  exact congrArg Place.wram (by omega)

end State

/-- Settles O45: the address and its mirror name one place. -/
theorem readAfterWrite : Obligations.ReadAfterWrite := by
  intro s a v hs hopen
  refine ⟨fun h => ?_, fun ⟨h, h'⟩ => ?_, fun ⟨h, h'⟩ => ?_⟩
  · exact State.memRead_memWrite_of_place v hs rfl (State.holdsByte_placeOf h) (State.dmaBlocks_eq_false hopen)
  · have hidle : s.dma.counter = 0 := by omega
    have hplace : placeOf (a + 0x2000) = placeOf a := State.placeOf_mirror h h' (by bv_omega)
    exact State.memRead_memWrite_of_place v hs hplace (State.holdsByte_placeOf (.inr (.inl ⟨h, by omega⟩)))
      (State.dmaBlocks_eq_false (.inl hidle))
  · have hidle : s.dma.counter = 0 := by omega
    have hplace : placeOf (a - 0x2000) = placeOf a :=
      (State.placeOf_mirror (by bv_omega) (by bv_omega) (by bv_omega)).symm
    exact State.memRead_memWrite_of_place v hs hplace (State.holdsByte_placeOf (.inr (.inl ⟨by omega, by omega⟩)))
      (State.dmaBlocks_eq_false (.inl hidle))

end Sys2Proof.Machine

/-! # The cartridge -/

namespace Sys2Proof.Machine

/-! ## The controllers' registers (R123, R125, R127) -/

theorem unlocksRam_eq (v : Byte) : unlocksRam v = decide (v.toNat % 16 = 10) := by
  revert v
  decide

/-- A written bank number as a number: 0 is made 1. -/
theorem nonzeroBank_toNat {w : Nat} (hw : 0 < w) (b : BitVec w) :
    (nonzeroBank b).toNat = if b.toNat = 0 then 1 else b.toNat := by
  have hzero : b = 0 ↔ b.toNat = 0 := by simp [BitVec.toNat_eq]
  simp only [nonzeroBank, hzero]
  split
  · simp [hw]
  · rfl

theorem CtrlA.write_cases (c : CtrlA) (a : Nat) (v : Byte) :
    (a < 0x2000 → c.write a v = { c with ramEnable := unlocksRam v }) ∧
      (0x2000 ≤ a ∧ a < 0x4000 → c.write a v = { c with romBank5 := nonzeroBank (v.setWidth 5) }) ∧
      (0x4000 ≤ a ∧ a < 0x6000 → c.write a v = { c with bank2 := v.setWidth 2 }) ∧
      (0x6000 ≤ a → c.write a v = { c with mode := v.getLsbD 0 }) := by
  refine ⟨fun h => ?_, fun h => ?_, fun h => ?_, fun h => ?_⟩ <;>
    simp (disch := omega) only [write, if_pos, if_neg]

theorem CtrlB.write_cases (c : CtrlB) (a : Nat) (v : Byte) :
    (a < 0x2000 → c.write a v = { c with ramEnable := unlocksRam v }) ∧
      (0x2000 ≤ a ∧ a < 0x4000 → c.write a v = { c with romBank7 := nonzeroBank (v.setWidth 7) }) ∧
      (0x4000 ≤ a ∧ a < 0x6000 → c.write a v = { c with ramRtcSelect := v }) ∧
      (0x6000 ≤ a → c.write a v = { c with rtcLatch := v }) := by
  refine ⟨fun h => ?_, fun h => ?_, fun h => ?_, fun h => ?_⟩ <;>
    simp (disch := omega) only [write, if_pos, if_neg]

namespace State

variable {s : State}

/-! ## The high window (R122, R123, R125) -/

theorem hiBank_romOnly (h : s.launch.mbcKind = .romOnly) : s.hiBank = 1 := by simp only [hiBank, h]

/-- The two bank registers side by side, or in mode 1 the lower one alone. -/
theorem hiBank_ctrlA (h : s.launch.mbcKind = .ctrlA) :
    s.hiBank = (if s.ctrlA.mode then 0 else 32 * s.ctrlA.bank2.toNat) + s.ctrlA.romBank5.toNat := by
  have happend : (s.ctrlA.bank2 ++ s.ctrlA.romBank5 : BitVec 7).toNat
      = 32 * s.ctrlA.bank2.toNat + s.ctrlA.romBank5.toNat := by
    rw [BitVec.toNat_append, ← Nat.shiftLeft_add_eq_or_of_lt s.ctrlA.romBank5.isLt, Nat.shiftLeft_eq, Nat.mul_comm]
  simp only [hiBank, h, happend]
  split
  · rw [Nat.zero_add]
  · rfl

theorem hiBank_ctrlB (h : s.launch.mbcKind = .ctrlB) : s.hiBank = s.ctrlB.romBank7.toNat := by
  simp only [hiBank, h]

end State

/-- Settles O48: the writes by the range of the address and by the controller; the high window shows the registers
that R127 keeps from 0. -/
theorem cartridgeBanks : Obligations.CartridgeBanks := by
  refine ⟨fun c a v => ?_, fun c a v => ?_, fun s a v ha => ?_, fun s hs => ?_⟩
  · obtain ⟨henable, hbank5, hbank2, hmode⟩ := c.write_cases a v
    refine ⟨fun h => ?_, fun h => ?_, fun h => ?_, hmode⟩
    · rw [henable h, unlocksRam_eq]
    · rw [hbank5 h]
      exact ⟨by simp [nonzeroBank_toNat], rfl⟩
    · rw [hbank2 h]
      exact ⟨by simp, rfl⟩
  · obtain ⟨henable, hbank7, hselect, hlatch⟩ := c.write_cases a v
    refine ⟨fun h => ?_, fun h => ?_, hselect, hlatch⟩
    · rw [henable h, unlocksRam_eq]
    · rw [hbank7 h]
      exact ⟨by simp [nonzeroBank_toNat], rfl⟩
  · rw [State.memWrite_cart v (placeOf_eq_cart (by omega))]
    refine ⟨fun h => ?_, fun h => ?_, fun h => ?_⟩ <;> simp only [State.cartWrite, h]
  · have hA : s.launch.mbcKind = .ctrlA → s.hiBank % 32 ≠ 0 := fun h => by
      have hne : s.ctrlA.romBank5.toNat ≠ 0 := BitVec.toNat_ne.mp hs.bankA
      have hlt := s.ctrlA.romBank5.isLt
      rw [State.hiBank_ctrlA h]
      split <;> omega
    refine ⟨?_, State.hiBank_romOnly, fun h => ⟨State.hiBank_ctrlA h, hA h⟩, State.hiBank_ctrlB⟩
    cases h : s.launch.mbcKind with
    | romOnly => rw [State.hiBank_romOnly h]; exact Nat.one_ne_zero
    | ctrlA => exact fun h0 => hA h (by rw [h0])
    | ctrlB => rw [State.hiBank_ctrlB h]; exact BitVec.toNat_ne.mp hs.bankB

/-! ## The external RAM window (R85, R122 to R126) -/

namespace State

variable {s : State} {off bank : Nat}

theorem xramAt_absent (h : s.launch.xramLen = 0) : s.xramAt bank off = .nothing := if_pos h

theorem xramAt_present (h : s.launch.xramLen ≠ 0) :
    s.xramAt bank off = .xram ((bank * 0x2000 + off) % s.launch.xramLen) := if_neg h

theorem cartRamTarget_romOnly (h : s.launch.mbcKind = .romOnly) : s.cartRamTarget off = s.xramAt 0 off := by
  simp only [cartRamTarget, h]

theorem cartRamTarget_ctrlA (h : s.launch.mbcKind = .ctrlA) :
    s.cartRamTarget off =
      if s.ctrlA.ramEnable then s.xramAt (if s.ctrlA.mode then s.ctrlA.bank2.toNat else 0) off else .nothing := by
  simp only [cartRamTarget, h]

theorem cartRamTarget_ctrlB_locked (h : s.launch.mbcKind = .ctrlB) (he : s.ctrlB.ramEnable = false) :
    s.cartRamTarget off = .nothing := by
  simp [cartRamTarget, h, he]

theorem cartRamTarget_ctrlB (h : s.launch.mbcKind = .ctrlB) (he : s.ctrlB.ramEnable = true) :
    s.cartRamTarget off =
      if s.ctrlB.ramRtcSelect.toNat ≤ 7 then s.xramAt s.ctrlB.ramRtcSelect.toNat off
      else if s.ctrlB.ramRtcSelect.toNat ≤ 12 then .rtc s.ctrlB.ramRtcSelect.toNat else .nothing := by
  simp only [cartRamTarget, h, he, if_true]

/-- Where nothing answers, reads give 0xFF and writes are dropped (R85). -/
theorem cartRam_nothing (v : Byte) (h : s.cartRamTarget off = .nothing) :
    s.cartRamRead off = 0xFF ∧ s.cartRamWrite off v = s := by
  simp only [cartRamRead, cartRamWrite, h, and_self]

theorem cartRamRead_xram {i : Nat} (h : s.cartRamTarget off = .xram i) : s.cartRamRead off = s.xram.read i := by
  simp only [cartRamRead, h]

/-- A write of the window does not move the window. -/
theorem cartRamTarget_cartRamWrite (o : Nat) (v : Byte) : (s.cartRamWrite o v).cartRamTarget off = s.cartRamTarget off := by
  unfold cartRamWrite
  split <;> rfl

/-- What answers reads back what was written. -/
theorem cartRamRead_cartRamWrite (v : Byte) (hs : s.Sound) (h : s.cartRamTarget off ≠ .nothing) :
    (s.cartRamWrite off v).cartRamRead off = v := by
  unfold cartRamRead
  rw [cartRamTarget_cartRamWrite]
  cases ht : s.cartRamTarget off with
  | nothing => exact absurd ht h
  | xram i =>
    simp only [cartRamWrite, ht]
    exact Memory.read_write_same i v hs.memories.xram
  | rtc sel =>
    simp only [cartRamWrite, ht]
    exact Memory.read_write_same sel v hs.memories.rtc

/-- A protected or absent target. -/
theorem cartRamTarget_eq_nothing
    (h : s.launch.mbcKind = .ctrlA ∧ s.ctrlA.ramEnable = false ∨ s.launch.mbcKind = .ctrlB ∧ s.ctrlB.ramEnable = false ∨
      s.launch.mbcKind ≠ .ctrlB ∧ s.launch.xramLen = 0 ∨
      s.launch.mbcKind = .ctrlB ∧ s.ctrlB.ramRtcSelect.toNat ≤ 7 ∧ s.launch.xramLen = 0) :
    s.cartRamTarget off = .nothing := by
  obtain ⟨hk, he⟩ | ⟨hk, he⟩ | ⟨hk, hx⟩ | ⟨hk, hsel, hx⟩ := h
  · simp [cartRamTarget_ctrlA hk, he]
  · exact cartRamTarget_ctrlB_locked hk he
  · cases hkind : s.launch.mbcKind with
    | romOnly => rw [cartRamTarget_romOnly hkind, xramAt_absent hx]
    | ctrlA => rw [cartRamTarget_ctrlA hkind, xramAt_absent hx, ite_self]
    | ctrlB => exact absurd hkind hk
  · cases he : s.ctrlB.ramEnable with
    | false => exact cartRamTarget_ctrlB_locked hk he
    | true => rw [cartRamTarget_ctrlB hk he, if_pos hsel, xramAt_absent hx]

/-- The bank of external RAM that each controller shows. -/
theorem cartRamTarget_eq_xramAt
    (h : s.launch.mbcKind = .romOnly ∧ bank = 0 ∨
      s.launch.mbcKind = .ctrlA ∧ s.ctrlA.ramEnable = true ∧ bank = (if s.ctrlA.mode then s.ctrlA.bank2.toNat else 0) ∨
      s.launch.mbcKind = .ctrlB ∧ s.ctrlB.ramEnable = true ∧ s.ctrlB.ramRtcSelect.toNat ≤ 7 ∧
        bank = s.ctrlB.ramRtcSelect.toNat) :
    s.cartRamTarget off = s.xramAt bank off := by
  obtain ⟨hk, rfl⟩ | ⟨hk, he, rfl⟩ | ⟨hk, he, hsel, rfl⟩ := h
  · exact cartRamTarget_romOnly hk
  · rw [cartRamTarget_ctrlA hk, if_pos he]
  · rw [cartRamTarget_ctrlB hk he, if_pos hsel]

end State

/-- Settles O49: an access goes to its target, and a write does not move the target. -/
theorem externalRam : Obligations.ExternalRam := by
  intro s off v hs
  refine ⟨fun h => State.cartRam_nothing v (State.cartRamTarget_eq_nothing h), fun bank hx h => ?_, fun hk he hsel => ?_⟩
  · have ht : s.cartRamTarget off = .xram ((bank * 0x2000 + off) % s.launch.xramLen) :=
      (State.cartRamTarget_eq_xramAt h).trans (State.xramAt_present hx)
    exact ⟨State.cartRamRead_xram ht, State.cartRamRead_cartRamWrite v hs (by simp [ht])⟩
  · have ht := State.cartRamTarget_ctrlB (off := off) hk he
    rw [if_neg (by omega)] at ht
    refine ⟨fun h => State.cartRamRead_cartRamWrite v hs (by simp [ht, h]), fun h => State.cartRam_nothing v ?_⟩
    rw [ht, if_neg (by omega)]

end Sys2Proof.Machine

/-! # The I/O registers -/

namespace Sys2Proof.Machine

/-! ## The registers without a field of their own (R96, R97) -/

/-- The audio registers fill their range but for the sound-enable register. -/
theorem ioRegAt_eq_audio {off : Nat} (h : 0x10 ≤ off) (h' : off ≤ 0x3F) (hne : off ≠ 0x26) : ioRegAt off = .audio := by
  have hall : ∀ off < 0x40, 0x10 ≤ off → off ≠ 0x26 → ioRegAt off = .audio := by decide
  exact hall off (by omega) h hne

theorem ioRegAt_eq_other {off : Nat}
    (h : off = 0x03 ∨ (0x08 ≤ off ∧ off ≤ 0x0E) ∨ off = 0x4C ∨ off = 0x4E ∨ off = 0x4F ∨ (0x51 ≤ off ∧ off ≤ 0x7F)) :
    ioRegAt off = .other := by
  have hall : ∀ off < 0x80, (off = 0x03 ∨ (0x08 ≤ off ∧ off ≤ 0x0E) ∨ off = 0x4C ∨ off = 0x4E ∨ off = 0x4F ∨
      (0x51 ≤ off ∧ off ≤ 0x7F)) → ioRegAt off = .other := by decide
  exact hall off (by omega) h

/-! ## The registers whose byte is put together (R90, R478) -/

/-- A column of buttons shows where its selection bit is 0, active low. -/
theorem joypadRead_low (sel : BitVec 2) (b : Byte) {i : Nat} (hi : i < 4) :
    (joypadRead sel b).getLsbD i = !((!sel.getLsbD 0 && b.getLsbD i) || (!sel.getLsbD 1 && b.getLsbD (i + 4))) := by
  have hones : (0xF#4).getLsbD i = true := by interval_cases i <;> rfl
  simp only [joypadRead, BitVec.getLsbD_append, BitVec.getLsbD_and, BitVec.getLsbD_not, hi, if_true, hones]
  cases sel.getLsbD 0 <;> cases sel.getLsbD 1 <;> simp [hi, Nat.add_comm]

/-- The selection bits, under unused bits that read 1. -/
theorem joypadRead_high (sel : BitVec 2) (b : Byte) (i : Nat) :
    (joypadRead sel b).getLsbD (i + 4) = if i < 2 then sel.getLsbD i else (0b11#2).getLsbD (i - 2) := by
  simp only [joypadRead, BitVec.getLsbD_append, Nat.not_lt.mpr (Nat.le_add_left 4 i), if_false, Nat.add_sub_cancel]

theorem tac_bits (v : Byte) : 0b11111#5 ++ v.setWidth 3 = v ||| 0xF8 := by
  revert v
  decide

theorem intFlag_bits (v : Byte) : 0b111#3 ++ v.setWidth 5 = v ||| 0xE0 := by
  revert v
  decide

/-- STAT takes its four enable bits from a write, and keeps the coincidence and the mode. -/
theorem stat_bits (v : Byte) (enable : BitVec 4) (c : Bool) (mode : BitVec 2) :
    1#1 ++ v.extractLsb' 3 4 ++ bit1 c ++ mode =
      (v &&& 0x78) ||| 0x80 ||| ((1#1 ++ enable ++ bit1 c ++ mode) &&& 0x07) := by
  apply BitVec.eq_of_getLsbD_eq
  intro i hi
  simp only [BitVec.getLsbD_append, BitVec.getLsbD_or, BitVec.getLsbD_and]
  interval_cases i <;> simp

/-- KEY1 takes the armed bit from a write, and keeps the speed. -/
theorem key1_bits (v : Byte) (double armed : Bool) :
    bit1 double ++ 0b111111#6 ++ bit1 (v.getLsbD 0) =
      (v &&& 0x01) ||| 0x7E ||| ((bit1 double ++ 0b111111#6 ++ bit1 armed) &&& 0x80) := by
  revert v double armed
  decide

@[simp] theorem Timer.setCounter_counter (t : Timer) (new : Word) : (t.setCounter new).counter = new := by
  simp only [setCounter, incTima]
  repeat' split
  all_goals rfl

/-- DIV reads back: a write replaces the counter's high byte (R462). -/
theorem Timer.hiByte_writeDiv (t : Timer) (v : Byte) : hiByte (t.writeDiv v).counter = v := by simp [writeDiv]

namespace State

variable {s : State} {off : Nat}

theorem read_ioStore (hs : s.Sound) (off : Nat) (v : Byte) : (s.ioStore off v).io.read off = v :=
  Memory.read_write_same off v hs.memories.io

theorem ioRead_ioWrite_audio (hs : s.Sound) (v : Byte) (h : 0x10 ≤ off) (h' : off ≤ 0x3F) :
    (s.ioWrite off v).ioRead off = if off = 0x26 then v ||| 0x70 else v := by
  split
  · next he => subst he; exact read_ioStore hs 0x26 _
  · next hne =>
    simp only [ioWrite, ioRead, ioRegAt_eq_audio h h' hne]
    exact read_ioStore hs off v

theorem ioRead_ioWrite_other (hs : s.Sound) (v : Byte) (h : ioRegAt off = .other) :
    (s.ioWrite off v).ioRead off = (v &&& ~~~(s.launch.ioClear.read off)) ||| s.launch.ioOr.read off := by
  simp only [ioWrite, ioRead, h, read_ioStore hs]
  rfl

/-- The registers that read back every bit. -/
theorem ioRead_ioWrite_plain (hs : s.Sound) (v : Byte) :
    ∀ off ∈ [0x01, 0x02, 0x04, 0x05, 0x06, 0x40, 0x42, 0x43, 0x45, 0x46, 0x47, 0x48, 0x49, 0x4A, 0x4B, 0x50],
      (s.ioWrite off v).ioRead off = v := by
  simp only [List.forall_mem_cons]
  exact ⟨read_ioStore hs 0x01 v, read_ioStore hs 0x02 v, s.timer.hiByte_writeDiv v, rfl, rfl, rfl, rfl, rfl, rfl, rfl,
    rfl, rfl, rfl, rfl, rfl, read_ioStore hs 0x50 v, nofun⟩

end State

/-- Settles O46, register by register. -/
theorem ioRegisters : Obligations.IoRegisters := by
  intro s v hs back
  have hp1 (i : Nat) : (back 0x00).getLsbD (i + 4) = _ := joypadRead_high (v.extractLsb' 4 2) s.buttons i
  refine ⟨fun i hi => joypadRead_low _ _ hi, (hp1 0).trans (by simp), (hp1 1).trans (by simp), hp1 2, hp1 3,
    State.ioRead_ioWrite_plain hs v, tac_bits v, intFlag_bits v, rfl, stat_bits v _ _ _, key1_bits v _ _,
    fun off h h' => State.ioRead_ioWrite_audio hs v h h',
    fun off h => State.ioRead_ioWrite_other hs v (ioRegAt_eq_other h), rfl⟩

end Sys2Proof.Machine

/-! # OAM-DMA -/

namespace Sys2Proof.Machine

namespace State

variable {s t u : State} {p : Byte}

/-! ## The source of a transfer (R102) -/

/-- `t` shows the DMA controller what `s` does below OAM: the cartridge and the overlay, video RAM, work RAM. -/
structure SameSource (s t : State) : Prop where
  launch : t.launch = s.launch
  bootDisabled : t.bootDisabled = s.bootDisabled
  ctrlA : t.ctrlA = s.ctrlA
  ctrlB : t.ctrlB = s.ctrlB
  vram : t.vram = s.vram
  wram : t.wram = s.wram
  xram : t.xram = s.xram

theorem SameSource.trans (h : SameSource s t) (h' : SameSource t u) : SameSource s u :=
  ⟨h'.launch.trans h.launch, h'.bootDisabled.trans h.bootDisabled, h'.ctrlA.trans h.ctrlA, h'.ctrlB.trans h.ctrlB,
    h'.vram.trans h.vram, h'.wram.trans h.wram, h'.xram.trans h.xram⟩

/-- No agent writes a source. -/
theorem sameSource_cycles (s : State) (k : Nat) : SameSource s (s.cycles k) := by
  constructor <;> simp

/-- Nor do the agents that step before the DMA controller in its M-cycle (R440). -/
theorem sameSource_ppuTick (s : State) : SameSource s s.endCycle.hostInput.ppuTick :=
  ⟨hostInput_launch _, hostInput_bootDisabled _, hostInput_ctrlA _, hostInput_ctrlB _, hostInput_vram _,
    hostInput_wram _, hostInput_xram _⟩

theorem SameSource.romRead (h : SameSource s t) (i : Nat) : t.romRead i = s.romRead i := by
  cases s; cases t
  obtain ⟨⟨⟩, ⟨⟩, ⟨⟩, ⟨⟩, ⟨⟩, ⟨⟩, ⟨⟩⟩ := h
  rfl

theorem SameSource.cartRamRead (h : SameSource s t) (i : Nat) : t.cartRamRead i = s.cartRamRead i := by
  cases s; cases t
  obtain ⟨⟨⟩, ⟨⟩, ⟨⟩, ⟨⟩, ⟨⟩, ⟨⟩, ⟨⟩⟩ := h
  rfl

theorem SameSource.dmaSourceRead (h : SameSource s t) {a : Word} (ha : a.toNat < 0xFE00) :
    t.dmaSourceRead a = s.dmaSourceRead a := by
  simp only [State.dmaSourceRead]
  obtain h1 | ⟨h1, h2⟩ | ⟨h1, h2⟩ | ⟨h1, h2⟩ | ⟨h1, h2⟩ : a.toNat ≤ 0x7FFF ∨ (0x8000 ≤ a.toNat ∧ a.toNat ≤ 0x9FFF) ∨
      (0xA000 ≤ a.toNat ∧ a.toNat ≤ 0xBFFF) ∨ (0xC000 ≤ a.toNat ∧ a.toNat ≤ 0xDFFF) ∨
      (0xE000 ≤ a.toNat ∧ a.toNat ≤ 0xFDFF) := by omega
  · simp only [routeRead_cart _ (placeOf_eq_cart h1), h.romRead]
  · simp only [routeRead_vram _ (placeOf_eq_vram h1 h2), Bool.false_and, h.vram]
  · simp only [routeRead_cartRam _ (placeOf_eq_cartRam h1 h2), h.cartRamRead]
  · simp only [routeRead_wram _ (placeOf_eq_wram h1 h2), h.wram]
  · simp only [routeRead_wram _ (placeOf_eq_mirror h1 h2), h.wram]

/-! ## The counter (R100, R101) -/

theorem cycles_dma (s : State) (k : Nat) : (s.cycles k).dma = { s.dma with counter := s.dma.counter - k } := by
  induction k with
  | zero => rfl
  | succ k ih => rw [cycles_succ, cycle, beginCycle_dma, endCycle_dma, ih, Nat.sub_sub]

/-- A transfer that has just been started (R100). -/
def Triggered (s : State) (p : Byte) : Prop := s.dma = { counter := 162, source := p }

theorem triggered_memWrite (s : State) (p : Byte) : (s.memWrite 0xFF46 p).Triggered p := by
  rw [memWrite_io p (i := 0x46) (by decide)]
  rfl

theorem sameSource_trigger (s : State) (p : Byte) : SameSource s (s.memWrite 0xFF46 p) := by
  rw [memWrite_io p (i := 0x46) (by decide)]
  exact ⟨rfl, rfl, rfl, rfl, rfl, rfl, rfl⟩

theorem Triggered.counter (h : s.Triggered p) (k : Nat) : (s.cycles k).dma.counter = 162 - k := by
  rw [cycles_dma, h]

/-! ## The bytes copied (R101) -/

/-- Byte `i` of a page. -/
theorem pageAddr_eq (p : Byte) (i : Nat) :
    joinBytes p 0 + BitVec.ofNat 16 i = BitVec.ofNat 16 (256 * p.toNat + i) := by
  have hpage : joinBytes p 0 = BitVec.ofNat 16 (256 * p.toNat) := by
    apply BitVec.eq_of_toNat_eq
    have hp := p.isLt
    rw [joinBytes, BitVec.toNat_append, BitVec.toNat_ofNat, Nat.shiftLeft_eq]
    show p.toNat * 2 ^ 8 ||| 0 = _
    rw [Nat.or_zero]
    omega
  rw [hpage, BitVec.ofNat_add]

/-- The bytes copied from a page up to 0xFD lie below OAM. -/
theorem sourceAddr_lt (hp : p.toNat ≤ 0xFD) {i : Nat} (hi : i < 160) :
    (BitVec.ofNat 16 (256 * p.toNat + i)).toNat < 0xFE00 := by
  rw [BitVec.toNat_ofNat]
  omega

/-- The M-cycles of a transfer: the first and the last leave OAM, each of the others copies the next byte of the page
as it stood at the trigger. -/
theorem Triggered.oam_succ (h : s.Triggered p) (hp : p.toNat ≤ 0xFD) {k : Nat} (hk : k < 162) :
    (s.cycles (k + 1)).oam =
      if 1 ≤ k ∧ k ≤ 160 then
        (s.cycles k).oam.write (k - 1) (s.dmaSourceRead (BitVec.ofNat 16 (256 * p.toNat + (k - 1))))
      else (s.cycles k).oam := by
  -- the machine as the DMA controller finds it in its M-cycle
  have hsource := (s.sameSource_cycles k).trans (sameSource_ppuTick _)
  have hdma : (s.cycles k).endCycle.hostInput.ppuTick.dma = { counter := 162 - k, source := p } :=
    (hostInput_dma _).trans (by rw [endCycle_dma, cycles_dma, h])
  have hoam : (s.cycles k).endCycle.hostInput.ppuTick.oam = (s.cycles k).oam := hostInput_oam _
  have hindex : 162 - (162 - k) = k := by omega
  show (s.cycles k).endCycle.hostInput.ppuTick.dmaTick.oam = _
  simp only [dmaTick, hdma, hoam, hindex, pageAddr_eq, show 0 < 162 - k by omega, if_true]
  split
  · rw [hsource.dmaSourceRead (sourceAddr_lt hp (by omega))]
  · rfl

/-- Byte `i` is in OAM from the M-cycle `i + 2` on. -/
theorem Triggered.oam_read (h : s.Triggered p) (hs : s.Sound) (hp : p.toNat ≤ 0xFD) {i k : Nat}
    (hi : i < 160) (hik : i + 2 ≤ k) (hk : k ≤ 162) :
    (s.cycles k).oam.read i = s.dmaSourceRead (BitVec.ofNat 16 (256 * p.toNat + i)) := by
  induction k, hik using Nat.le_induction with
  | base =>
    rw [h.oam_succ hp (by omega), if_pos (by omega)]
    exact Memory.read_write_same i _ (hs.cycles (i + 1)).memories.oam
  | succ k hik ih =>
    rw [h.oam_succ hp (by omega), ← ih (by omega)]
    split
    · exact Memory.read_write_ne _ _ (by omega)
    · rfl

end State

/-- Settles O47: the counter and the bytes in OAM after each M-cycle of the transfer. -/
theorem dmaTransfer : Obligations.DmaTransfer := by
  intro s p hs s0
  have h0 : s0.Triggered p := s.triggered_memWrite p
  refine ⟨h0, fun k _ => h0.counter k, fun k a _ hk ha => ?_, fun hp i hi => ?_⟩
  · have hbusy : 0 < (s0.cycles k).dma.counter := by
      rw [h0.counter]
      omega
    exact State.memRead_blocked (State.dmaBlocks_eq_true hbusy ha)
  · rw [h0.oam_read (hs.memWrite _ p) hp hi (by omega) le_rfl]
    exact (s.sameSource_trigger p).dmaSourceRead (State.sourceAddr_lt hp hi)

end Sys2Proof.Machine

/-! # Decoding and encoding

From an instruction to its bytes and back the case split is over the instructions; from bytes to an instruction and back
it is over the quadrants of the opcode byte, the immediates standing for themselves. -/

namespace Sys2Proof

open Machine

/-! ## Fields, immediates and index tables -/

section
variable {x y z : Nat}

theorem opcode_toNat (hx : x < 4) (hy : y < 8) (hz : z < 8) : (opcode x y z).toNat = 64 * x + 8 * y + z := by
  rw [opcode, BitVec.toNat_ofNat, Nat.mod_eq_of_lt (by omega)]

@[simp] theorem fieldX_opcode (hx : x < 4) (hy : y < 8) (hz : z < 8) : fieldX (opcode x y z) = x := by
  rw [fieldX, opcode_toNat hx hy hz]
  omega

@[simp] theorem fieldY_opcode (hx : x < 4) (hy : y < 8) (hz : z < 8) : fieldY (opcode x y z) = y := by
  rw [fieldY, opcode_toNat hx hy hz]
  omega

@[simp] theorem fieldZ_opcode (hx : x < 4) (hy : y < 8) (hz : z < 8) : fieldZ (opcode x y z) = z := by
  rw [fieldZ, opcode_toNat hx hy hz]
  omega

end

/-- A byte is made of its three fields (R151). -/
theorem exists_opcode_eq (op : Byte) : ∃ x y z, x < 4 ∧ y < 8 ∧ z < 8 ∧ opcode x y z = op := by
  have hlt : op.toNat < 256 := op.isLt
  refine ⟨op.toNat / 64, op.toNat / 8 % 8, op.toNat % 8, by omega, by omega, by omega, BitVec.eq_of_toNat_eq ?_⟩
  rw [opcode_toNat (by omega) (by omega) (by omega)]
  omega

theorem immediateHigh_append_immediateLow (nn : Word) : immediateHigh nn ++ immediateLow nn = nn := join_hi_lo nn

@[simp] theorem immediateLow_immediate16 (lo hi : Byte) : immediateLow (immediate16 lo hi) = lo := loByte_join hi lo

@[simp] theorem immediateHigh_immediate16 (lo hi : Byte) : immediateHigh (immediate16 lo hi) = hi := hiByte_join hi lo

@[simp] theorem Reg8.index_lt (r : Reg8) : r.index < 8 := by cases r <;> decide

@[simp] theorem reg8Of_index (r : Reg8) : reg8Of r.index = some r := by cases r <;> rfl

@[simp] theorem reg8Of_six : reg8Of 6 = none := rfl

theorem index_of_reg8Of {i : Nat} {r : Reg8} (hi : i < 8) (h : reg8Of i = some r) : r.index = i := by
  interval_cases i <;> cases h <;> rfl

theorem eq_six_of_reg8Of {i : Nat} (hi : i < 8) (h : reg8Of i = none) : i = 6 := by
  unfold reg8Of at h
  split at h <;> cases h
  rfl

theorem Instr.wellFormed_of_ne {i : Instr} (h : i ≠ .popRr .af) : i.wellFormed = true := by
  unfold Instr.wellFormed
  split
  · exact absurd rfl h
  · rfl

/-! ## From an instruction to its bytes and back -/

/-- Format OP_NN, the immediate split into its bytes. -/
theorem encodes_withImmediate16 {op : Byte} {nn : Word} {i : Instr} (hp : op ≠ prefixByte) (h : operandCount op = 2)
    (hi : decodeFirst op 0 nn = i) : Encodes (withImmediate16 op nn) i :=
  encodes_op_nn hp h (by rw [immediateHigh_append_immediateLow, hi])

/-- Every well-formed instruction but the bare prefix decodes from its bytes, whatever follows them. -/
theorem encodes_encode {i : Instr} (hw : i.wellFormed = true) (hp : i ≠ .prefixCB) : Encodes (encode i) i := by
  cases i
  case prefixCB => exact absurd rfl hp
  case nop | ldBcA | ldABc | ldDeA | ldADe | ldHliA | ldAHli | ldHldA | ldAHld | incHl | decHl | rlca | rrca | rla | rra
      | daa | cpl | scf | ccf | halt | addAHl | adcAHl | subHl | sbcAHl | andHl | xorHl | orHl | cpHl | popAf | ret
      | reti | jpHl | ldSpHl | ldhCA | ldhAC | di | ei | illegalD3 | illegalDB | illegalDD | illegalE3 | illegalE4
      | illegalEB | illegalEC | illegalED | illegalF4 | illegalFC | illegalFD => exact encodes_op (by decide) rfl rfl
  case stop | jrE | ldHlN | addAN | adcAN | subN | sbcAN | andN | xorN | orN | cpN | ldhNA | addSpE | ldhAN
      | ldHlSpE => exact encodes_op_n (by decide) rfl rfl
  case ldNnSp | ldNnA | ldANn | jpNn | callNn => exact encodes_withImmediate16 (by decide) rfl rfl
  case incR r | decR r | ldRHl r | ldHlR r | addAR r | adcAR r | subR r | sbcAR r | andR r | xorR r | orR r
      | cpR r => cases r <;> exact encodes_op (by decide) rfl rfl
  case ldRR rd rs => cases rd <;> cases rs <;> exact encodes_op (by decide) rfl rfl
  case ldRN r n => cases r <;> exact encodes_op_n (by decide) rfl rfl
  case addHlRr rr | incRr rr | decRr rr | pushRr rr => cases rr <;> exact encodes_op (by decide) rfl rfl
  case popRr rr =>
    cases rr
    case af => cases hw
    case bc | de | hl => exact encodes_op (by decide) rfl rfl
  case ldRrNn rr nn => cases rr <;> exact encodes_withImmediate16 (by decide) rfl rfl
  case retCc cc => cases cc <;> exact encodes_op (by decide) rfl rfl
  case jrCcE cc e => cases cc <;> exact encodes_op_n (by decide) rfl rfl
  case jpCcNn cc nn | callCcNn cc nn => cases cc <;> exact encodes_withImmediate16 (by decide) rfl rfl
  case rstT t => fin_cases t <;> exact encodes_op (by decide) rfl rfl
  case rlcR | rlcHl | rrcR | rrcHl | rlR | rlHl | rrR | rrHl | slaR | slaHl | sraR | sraHl | swapR | swapHl | srlR
      | srlHl => exact encodes_cb (by simp [decodeExtended, decodeRotate])
  case bitBR | bitBHl | resBR | resBHl | setBR | setBHl => exact encodes_cb (by simp [decodeExtended])

/-- The same for bytes that are written out. -/
theorem encodes_of_encode {i : Instr} {bytes : List Byte} (hb : encode i = bytes) (hw : i.wellFormed = true)
    (hp : i ≠ .prefixCB) : Encodes bytes i := hb ▸ encodes_encode hw hp

/-- Settles O1, from the round trip of every instruction but the bare prefix, whose one byte decodes at the end only. -/
theorem decodeEncode : Obligations.DecodeEncode := fun _ hw =>
  ⟨encodes_encode hw, fun hp => hp ▸ rfl⟩

/-! ## From bytes to an instruction and back -/

/-- The bytes of the immediate that a first byte with `k` operand bytes calls for (R150, R152). -/
def immediateBytes (k : Nat) (n : Byte) (nn : Word) : List Byte :=
  match k with
  | 0 => []
  | 1 => [n]
  | _ => [immediateLow nn, immediateHigh nn]

/-- What decodes is the bare prefix at the end of the bytes, the prefix with an extended opcode, or another first byte
with its immediate (R154, R155). -/
theorem decode_cases {bytes rest : List Byte} {i : Instr} (h : decode bytes = .ok (i, rest)) :
    (bytes = [prefixByte] ∧ i = .prefixCB ∧ rest = []) ∨
      (∃ xop, bytes = prefixByte :: xop :: rest ∧ i = decodeExtended xop) ∨
      ∃ op n nn, op ≠ prefixByte ∧ bytes = op :: immediateBytes (operandCount op) n nn ++ rest ∧
        i = decodeFirst op n nn := by
  unfold decode at h
  split at h
  · cases h
  · split at h
    · next hp =>
      subst hp
      split at h <;> cases h
      · exact .inl ⟨rfl, rfl, rfl⟩
      · exact .inr (.inl ⟨_, rfl, rfl⟩)
    · next hp =>
      split at h <;> cases h
      all_goals
        next hk => exact .inr (.inr ⟨_, _, _, hp, by simp [hk, immediateBytes], rfl⟩)

section
variable {y z : Nat} (n : Byte) (nn : Word)

/-- The rows and columns of quadrant x = 0, entry by entry. -/
theorem encode_decodeX0 (hy : y < 8) (hz : z < 8) :
    encode (decodeX0 y z n nn) = opcode 0 y z :: immediateBytes (operandCount (opcode 0 y z)) n nn := by
  interval_cases z <;> interval_cases y <;> rfl

/-- Quadrant x = 1: the loads between the operands of two indexes, HALT where both are the byte at HL. -/
theorem encode_decodeX1 (hy : y < 8) (hz : z < 8) : encode (decodeX1 y z) = [opcode 1 y z] := by
  unfold decodeX1
  split
  · next hd hs => rw [encode, index_of_reg8Of hy hd, index_of_reg8Of hz hs]
  · next hd hs => rw [encode, index_of_reg8Of hy hd, eq_six_of_reg8Of hz hs]
  · next hd hs => rw [encode, index_of_reg8Of hz hs, eq_six_of_reg8Of hy hd]
  · next hd hs => rw [eq_six_of_reg8Of hy hd, eq_six_of_reg8Of hz hs]; rfl

/-- Quadrant x = 2: the eight operations on the operand of an index. -/
theorem encode_decodeX2 (hy : y < 8) (hz : z < 8) : encode (decodeX2 y z) = [opcode 2 y z] := by
  unfold decodeX2
  split
  · next hr => rw [← index_of_reg8Of hz hr]; interval_cases y <;> rfl
  · next hr => rw [eq_six_of_reg8Of hz hr]; interval_cases y <;> rfl

/-- The rows and columns of quadrant x = 3 but for the prefix, entry by entry. -/
theorem encode_decodeX3 (hy : y < 8) (hz : z < 8) (hp : opcode 3 y z ≠ prefixByte) :
    encode (decodeX3 y z n nn) = opcode 3 y z :: immediateBytes (operandCount (opcode 3 y z)) n nn := by
  interval_cases z
  pick_goal 4 -- the row z = 3, which holds the prefix in its column y = 1
  · interval_cases y
    · rfl
    · exact absurd rfl hp
    all_goals rfl
  all_goals interval_cases y <;> rfl

/-- The eight rotates and shifts on the operand of an index. -/
theorem encode_decodeRotate (hy : y < 8) (hz : z < 8) : encode (decodeRotate y z) = extended 0 y z := by
  unfold decodeRotate
  split
  · next hr => rw [← index_of_reg8Of hz hr]; interval_cases y <;> rfl
  · next hr => rw [eq_six_of_reg8Of hz hr]; interval_cases y <;> rfl

end

/-- A first byte other than the prefix, quadrant by quadrant (R156). -/
theorem encode_decodeFirst {op : Byte} (n : Byte) (nn : Word) (hp : op ≠ prefixByte) :
    encode (decodeFirst op n nn) = op :: immediateBytes (operandCount op) n nn := by
  obtain ⟨x, y, z, hx, hy, hz, rfl⟩ := exists_opcode_eq op
  interval_cases x
  · simpa [decodeFirst, hy, hz] using encode_decodeX0 n nn hy hz
  · simp [decodeFirst, hy, hz, encode_decodeX1, operandCount, immediateBytes]
  · simp [decodeFirst, hy, hz, encode_decodeX2, operandCount, immediateBytes]
  · simpa [decodeFirst, hy, hz] using encode_decodeX3 n nn hy hz hp

/-- The byte after the prefix: a rotate, or BIT, RES or SET of a bit of the operand of an index (R157). -/
theorem encode_decodeExtended (xop : Byte) : encode (decodeExtended xop) = [prefixByte, xop] := by
  obtain ⟨x, y, z, hx, hy, hz, rfl⟩ := exists_opcode_eq xop
  interval_cases x
  · simpa [decodeExtended, extended, hy, hz] using encode_decodeRotate hy hz
  all_goals
    cases hr : reg8Of z with
    | none =>
      obtain rfl := eq_six_of_reg8Of hz hr
      simp [decodeExtended, encode, extended, hy, Nat.mod_eq_of_lt hy]
    | some r =>
      obtain rfl := index_of_reg8Of hz hr
      simp [decodeExtended, encode, extended, hy, Nat.mod_eq_of_lt hy]

/-- Settles O2: each way to decode is undone by the encoder. POP AF is never written as POP rr, because the bytes of
both are one and the decoder reads them as `popAf` (R235, R236). -/
theorem encodeDecode : Obligations.EncodeDecode := by
  intro bytes i rest h
  have hbytes : encode i ++ rest = bytes := by
    obtain ⟨rfl, rfl, rfl⟩ | ⟨xop, rfl, rfl⟩ | ⟨op, n, nn, hp, rfl, rfl⟩ := decode_cases h
    · rfl
    · rw [encode_decodeExtended]; rfl
    · rw [encode_decodeFirst n nn hp]
  refine ⟨hbytes, Instr.wellFormed_of_ne ?_⟩
  rintro rfl
  have hpop : decode bytes = .ok (.popAf, rest) := hbytes ▸ encodes_of_encode (i := .popAf) rfl rfl (by decide) rest
  rw [hpop] at h
  cases h

/-! ## Lengths -/

/-- A first byte with as many bytes as it calls for is an instruction, whatever follows (R150, R154). -/
theorem encodes_of_length {op : Byte} {operands : List Byte} (h : operands.length = operandCount op) :
    ∃ i, Encodes (op :: operands) i := by
  obtain ⟨i, hi⟩ := decode_of_length h
  obtain ⟨hbytes, hw⟩ := encodeDecode _ _ _ hi
  rw [List.append_nil] at hbytes
  have hprefix : i ≠ .prefixCB := by
    rintro rfl
    cases hbytes
    cases h
  exact ⟨i, hbytes ▸ encodes_encode hw hprefix⟩

/-- Settles O3: the first byte's operand count says how many bytes are taken; what follows the prefix encodes to two
bytes, so it is not the bare prefix. -/
theorem decoderTotal : Obligations.DecoderTotal := by
  refine ⟨fun op => ⟨operandCount op, operandCount_le_two op, fun a b rest => ?_⟩, fun xop rest => ?_, encodes_cb rfl⟩
  · have hlen : ((a :: b :: rest).take (operandCount op)).length = operandCount op := by
      have := operandCount_le_two op
      simp
      omega
    obtain ⟨i, hi⟩ := encodes_of_length hlen
    have hdecode := hi ((a :: b :: rest).drop (operandCount op))
    rw [List.cons_append, List.take_append_drop] at hdecode
    exact ⟨i, hdecode⟩
  · have hbytes := encode_decodeExtended xop
    refine ⟨decodeExtended xop, encodes_cb rfl rest, fun hi => ?_, hbytes⟩
    rw [hi] at hbytes
    cases hbytes

/-- Settles O4: each word is the encoding of its instruction, so O1's round trip reads it back. -/
theorem specWordsDecode : Obligations.SpecWordsDecode := by
  unfold Obligations.SpecWordsDecode
  and_intros <;> exact encodes_of_encode rfl rfl (by decide)

end Sys2Proof

/-! # Illegal opcodes, and the step that fetches -/

namespace Sys2Proof.Machine

/-- Raising the fault sets the latch with the opcode and its address, and does nothing else (R400). -/
theorem completes_raiseIllegal (op : Byte) (s : State) :
    Completes (.next (s.raiseIllegal op)) fun t =>
      t.cpu = { s.cpu with faulted := true, faultOp := op, faultPc := s.cpu.opcodeAddr } ∧ OnlyCpu 0 s t :=
  ⟨_, rfl, rfl, State.onlyCpu_zero _⟩

/-- Settles O32: row by row, the encoder gives the byte and the meaning is the fault latch for that byte. -/
theorem illegalOpcodes : Obligations.IllegalOpcodes := by
  unfold Obligations.IllegalOpcodes
  simp only [List.forall_mem_cons]
  refine ⟨?_, ?_, ?_, ?_, ?_, ?_, ?_, ?_, ?_, ?_, ?_, nofun⟩
  all_goals exact ⟨encodes_of_encode rfl rfl (by decide), completes_raiseIllegal _⟩

/-- Where the sampling point lets an instruction be fetched, the step is that instruction (R420). -/
theorem step_of_fetches {s : State} (h : s.fetches = true) : step s = s.atFetch.runInstr := by
  simp only [State.fetches, Bool.and_eq_true, Bool.not_eq_true', Option.isNone_iff_eq_none] at h
  obtain ⟨⟨hf, hwait⟩, hirq⟩ := h
  have hready : ((s.cpu.halted || s.cpu.stopped) && s.beginCycle.pend == 0) = false := by
    rw [← Bool.not_eq_true', Bool.not_and]
    exact hwait
  have hwoken : s.beginCycle.wake.interrupt = none := hirq
  simp only [step, State.beginCycle_cpu, hf, hready, Bool.false_eq_true, if_false, hwoken, State.atFetch]

/-- Settles O35: the step is `runInstr` of the state at the fetch, and `exec` always completes. -/
theorem stepRunsDecoded : Obligations.StepRunsDecoded := by
  intro s i rest hf hd
  obtain ⟨t, ht, -⟩ := State.exec_updates (.refl (s := s.atFetch.fetchInstr.2)) i
  simp only [step_of_fetches hf, State.runInstr, hd, ht, State.atFetch_cpu]

end Sys2Proof.Machine

/-! # The 8-bit loads -/

namespace Sys2Proof.Machine

/-- An opcode byte by its three fields, and the same byte as one number (R151). -/
theorem opcode_eq_op8 {x y z n : Nat} (h : 64 * x + 8 * y + z = n) : opcode x y z = op8 n :=
  congrArg (BitVec.ofNat 8) h

namespace State

variable (s : State)

/-- Loading A is writing register A one M-cycle on, with the byte that the bus reads in that M-cycle. -/
theorem regLoaded_loadA (addr : Word) : RegLoaded s .a (s.cycle.memRead addr) 1 (s.loadA addr) :=
  regLoaded_setReg8 .a _ 1 rfl

theorem loadA_eq (addr : Word) :
    s.loadA addr = s.cycle.setCpu { s.cpu with a := s.cycle.memRead addr } := by
  simp [loadA, busRead, setReg8]

theorem storeA_cpu (addr : Word) : (s.storeA addr).cpu = s.cpu := (stored_busWrite addr s.cpu.a).2

/-- What becomes of the CPU's registers after a store is no part of the store. -/
theorem stored_storeA_setHl (addr v : Word) : Stored s addr s.cpu.a ((s.storeA addr).setHl v) :=
  stored_memWrite addr s.cpu.a _

theorem hl_setHl (v : Word) : (s.setHl v).hl = v := join_hi_lo v

/-- A load of A with HL moved to `v` after it: A, HL, and the frame of both. -/
theorem completes_loadA_setHl (addr v : Word) :
    Completes (.next ((s.loadA addr).setHl v)) fun t =>
      t.cpu.a = s.cycle.memRead addr ∧ t.hl = v ∧
        t.cpu = { s.cpu with a := t.cpu.a, h := t.cpu.h, l := t.cpu.l } ∧ OnlyCpu 1 s t := by
  refine ⟨_, rfl, ?_, hl_setHl _ v, ?_, ?_⟩ <;> rw [loadA_eq, setHl_eq, setCpu_setCpu]
  · rfl
  · rfl
  · exact onlyCpu_one _

/-- A store of A with HL moved to `v` after it: the byte, HL, and the frame of both. -/
theorem completes_storeA_setHl (addr v : Word) :
    Completes (.next ((s.storeA addr).setHl v)) fun t =>
      Stored s addr s.cpu.a t ∧ t.hl = v ∧ t.cpu = { s.cpu with h := t.cpu.h, l := t.cpu.l } := by
  refine ⟨_, rfl, stored_storeA_setHl s addr v, hl_setHl _ v, ?_⟩
  rw [setHl_eq, setCpu_cpu, storeA_cpu]

end State

open State

/-- Settles O5: each form writes its register with the byte of its operand, LD r,(HL) one M-cycle on. -/
theorem loadRegister : Obligations.LoadRegister := by
  refine ⟨fun rd rs => ⟨?_, fun s => ?_⟩, fun r n => ⟨?_, fun s => ?_⟩, fun r => ⟨?_, fun s => ?_⟩⟩
  · exact encodes_of_encode (congrArg ([·]) (opcode_eq_op8 rfl)) rfl nofun
  · exact ⟨_, rfl, regLoaded_setReg8 rd (s.reg8 rs) 0 rfl⟩
  · exact encodes_of_encode (congrArg ([·, n]) (opcode_eq_op8 (by omega))) rfl nofun
  · exact ⟨_, rfl, regLoaded_setReg8 r n 0 rfl⟩
  · exact encodes_of_encode (congrArg ([·]) (opcode_eq_op8 (by omega))) rfl nofun
  · exact ⟨_, rfl, regLoaded_setReg8 r (s.cycle.memRead s.hl) 1 rfl⟩

/-- Settles O6: five forms are a load of A from their address; the (HL-) and (HL+) forms then move HL. -/
theorem loadA : Obligations.LoadA := by
  refine ⟨⟨?_, fun s => ?bc⟩, ⟨?_, fun s => ?de⟩, fun lo hi => ?nnBytes, fun nn s => ?nn, ⟨?_, fun s => ?highC⟩,
    fun n => ⟨?_, fun s => ?highN⟩, ⟨?_, fun s => ?hld⟩, ⟨?_, fun s => ?hli⟩⟩
  case bc => exact ⟨_, rfl, regLoaded_loadA s s.bc⟩
  case de => exact ⟨_, rfl, regLoaded_loadA s s.de⟩
  case nn => exact ⟨_, rfl, regLoaded_loadA s nn⟩
  case highC => rw [← highPage_eq]; exact ⟨_, rfl, regLoaded_loadA s (highPage s.cpu.c)⟩
  case highN => rw [← highPage_eq]; exact ⟨_, rfl, regLoaded_loadA s (highPage n)⟩
  case hld => exact completes_loadA_setHl s s.hl (s.hl - 1)
  case hli => exact completes_loadA_setHl s s.hl (s.hl + 1)
  case nnBytes => exact encodes_op_nn (by decide) rfl rfl
  all_goals exact encodes_of_encode rfl rfl nofun

/-- Settles O7: seven forms are one write of the bus to their address; the (HL-) and (HL+) forms then move HL. -/
theorem storeByte : Obligations.StoreByte := by
  refine ⟨fun r => ⟨?hlRBytes, fun s => ?hlR⟩, fun n => ⟨?_, fun s => ?hlN⟩, ⟨?_, fun s => ?bc⟩, ⟨?_, fun s => ?de⟩,
    fun lo hi => ?nnBytes, fun nn s => ?nn, ⟨?_, fun s => ?highC⟩, fun n => ⟨?_, fun s => ?highN⟩,
    ⟨?_, fun s => ?hld⟩, ⟨?_, fun s => ?hli⟩⟩
  case hlR => exact ⟨_, rfl, stored_busWrite s.hl (s.reg8 r)⟩
  case hlN => exact ⟨_, rfl, stored_busWrite s.hl n⟩
  case bc => exact ⟨_, rfl, stored_busWrite s.bc s.cpu.a⟩
  case de => exact ⟨_, rfl, stored_busWrite s.de s.cpu.a⟩
  case nn => exact ⟨_, rfl, stored_busWrite nn s.cpu.a⟩
  case highC => rw [← highPage_eq]; exact ⟨_, rfl, stored_busWrite (highPage s.cpu.c) s.cpu.a⟩
  case highN => rw [← highPage_eq]; exact ⟨_, rfl, stored_busWrite (highPage n) s.cpu.a⟩
  case hld => exact completes_storeA_setHl s s.hl (s.hl - 1)
  case hli => exact completes_storeA_setHl s s.hl (s.hl + 1)
  case hlRBytes => exact encodes_of_encode (congrArg ([·]) (opcode_eq_op8 rfl)) rfl nofun
  case nnBytes => exact encodes_op_nn (by decide) rfl rfl
  all_goals exact encodes_of_encode rfl rfl nofun

end Sys2Proof.Machine

/-! # The 16-bit loads and the stack -/

namespace Sys2Proof.Machine

/-! ## Words and their bytes -/

/-- An instruction with a 16-bit immediate is its opcode, the low byte, the high byte (R150). -/
theorem withImmediate16_append (op lo hi : Byte) : withImmediate16 op (hi ++ lo) = [op, lo, hi] := by
  rw [withImmediate16]
  exact congrArg₂ ([op, ·, ·]) (loByte_join hi lo) (hiByte_join hi lo)

theorem joinBytes_and (h l h' l' : Byte) : joinBytes h l &&& joinBytes h' l' = joinBytes (h &&& h') (l &&& l') :=
  BitVec.and_append

/-- A word whose low byte goes through the mask of R23. -/
theorem joinBytes_masked (v : Word) : joinBytes (hiByte v) (loByte v &&& 0xF0) = v &&& 0xFFF0 := by
  have hv : v &&& 0xFFF0 = joinBytes (hiByte v) (loByte v) &&& joinBytes 0xFF 0xF0 := by rw [join_hi_lo]; rfl
  rw [hv, joinBytes_and]
  exact congrArg (joinBytes · _) BitVec.and_allOnes.symm

/-- The mask of R23 keeps a byte whose low nibble is 0. -/
theorem masked_of_low {v : Byte} (h : v &&& 0x0F = 0) : v &&& 0xF0 = v := by
  have hsplit : v &&& (0xF0 ||| 0x0F) = v := BitVec.and_allOnes
  rw [BitVec.and_or_distrib_left, h] at hsplit
  exact BitVec.or_zero.symm.trans hsplit

/-- SP and a signed offset add up modulo 2^16 (R233, R293). -/
theorem add_sext16_toNat (sp : Word) (e : Byte) : ((sp + sext16 e).toNat : Int) = (sp.toNat + e.toInt) % 65536 := by
  simp only [sext16, BitVec.signExtend, BitVec.toNat_add, BitVec.toNat_ofInt]
  omega

namespace State

variable {s : State}

/-! ## The pairs of the stack instructions (R12, R236) -/

theorem stackPair_setStackPair (rr : StackPair) (v : Word) :
    (s.setStackPair rr v).stackPair rr = if rr = .af then v &&& 0xFFF0 else v := by
  cases rr
  case af => exact joinBytes_masked v
  case bc | de | hl => exact join_hi_lo v

theorem stackPair_setStackPair_of_ne {rr rr' : StackPair} (v : Word) (h : rr' ≠ rr) :
    (s.setStackPair rr v).stackPair rr' = s.stackPair rr' := by
  cases rr <;> cases rr'
  case bc.bc | de.de | hl.hl | af.af => exact absurd rfl h
  all_goals rfl

theorem stackPair_of_cpu_eq {t : State} (h : t.cpu = s.cpu) (rr : StackPair) : t.stackPair rr = s.stackPair rr := by
  cases rr <;> simp only [stackPair, bc, de, hl, af, h]

/-- A pair written with what it holds changes nothing, the low nibble of F being 0 (R23). -/
theorem setStackPair_of_cpu_eq {t : State} (h : t.cpu = s.cpu) (hs : s.cpu.Sound) (rr : StackPair) :
    t.setStackPair rr (s.stackPair rr) = t := by
  have hf : t.cpu.f &&& 0xF0 = t.cpu.f := by rw [h, masked_of_low hs.lowNibble]
  rw [← stackPair_of_cpu_eq h]
  cases rr <;> simp only [setStackPair, setBc, setDe, setHl, setAf, stackPair, bc, de, hl, af, hiByte_join,
    loByte_join, hf] <;> rfl

/-! ## Pushing and popping (R13) -/

theorem push16_cpu (v : Word) : (s.push16 v).cpu = { s.cpu with sp := s.cpu.sp - 2 } := by
  rw [push16_eq, setCpu_cpu, show s.cpu.sp - 1 - 1 = s.cpu.sp - 2 by bv_omega]

theorem pop16_eq_add_two :
    s.pop16 = (s.popped s.cpu.sp, (s.cycles 2).setCpu { s.cpu with sp := s.cpu.sp + 2 }) := by
  rw [pop16_eq, show s.cpu.sp + 1 + 1 = s.cpu.sp + 2 by bv_omega]

theorem exec_popRr_of_pop16 {t : State} {v : Word} (rr : StackPair) (h : s.pop16 = (v, t)) :
    exec (.popRr rr) s = .next (t.setStackPair rr v) := by
  show Host.Outcome.next (s.pop16.2.setStackPair rr s.pop16.1) = _
  rw [h]

theorem exec_ret_of_pop16 {t : State} {v : Word} (h : s.pop16 = (v, t)) : exec .ret s = .next (t.setPc v).internal := by
  show Host.Outcome.next (s.pop16.2.setPc s.pop16.1).internal = _
  rw [h]

/-- POP AF has the meaning of POP rr with AF for rr (R235, R236). -/
theorem exec_pop (rr : StackPair) : exec (if rr = .af then .popAf else .popRr rr) s = exec (.popRr rr) s := by
  cases rr <;> rfl

/-- During a transfer that outlasts both reads, a pop from below 0xFF00 finds the bus blocked (R103). -/
theorem popped_blocked (hdma : 2 < s.dma.counter) {sp : Word} (hsp : sp.toNat < 0xFEFF) : s.popped sp = 0xFFFF := by
  have hread (k : Nat) (hk : k ≤ 2) {a : Word} (ha : a.toNat < 0xFF00) : (s.cycles k).memRead a = 0xFF :=
    memRead_blocked (dmaBlocks_eq_true (by rw [cycles_dma]; exact Nat.sub_pos_of_lt (by omega)) ha)
  rw [popped, hread 2 le_rfl (by bv_omega), hread 1 (by omega) (by omega)]
  rfl

end State

open State

/-- Settles O8: each form is one register update, LD SP,HL followed by an M-cycle. -/
theorem loadPair : Obligations.LoadPair := by
  refine ⟨fun rr => ⟨fun lo hi => ?bytes, fun nn s => ?_⟩, encodes_of_encode rfl rfl nofun, fun s => ?_⟩
  case bytes =>
    refine encodes_of_encode (.trans (withImmediate16_append _ lo hi) ?_) rfl nofun
    exact congrArg ([·, lo, hi]) (opcode_eq_op8 (by omega))
  · refine ⟨_, rfl, pair_setPair s rr nn, fun rr' h => pair_setPair_of_ne s nn h, by cases rr <;> rfl, ?_⟩
    rw [setPair_eq]
    exact onlyCpu_zero _
  · exact ⟨_, congrArg Host.Outcome.next (cycle_setCpu s _), rfl, onlyCpu_one _⟩

/-- Settles O9: both forms write the sum and the flags of the low bytes, and pass one or two M-cycles. -/
theorem stackPointerOffset : Obligations.StackPointerOffset := by
  refine ⟨fun e => ⟨encodes_of_encode rfl rfl nofun, fun s => ?hl⟩,
    fun e => ⟨encodes_of_encode rfl rfl nofun, fun s => ?sp⟩⟩
  case hl =>
    refine ⟨_, congrArg Host.Outcome.next (cycle_setCpu s _), ?_, ?_, rfl, onlyCpu_one _⟩
    · exact (congrArg _ (congrArg BitVec.toNat (hl_setHl s _))).trans (add_sext16_toNat _ e)
    · exact flagsAre_setCpu _ _ _ _ _ rfl
  case sp =>
    refine ⟨_, congrArg Host.Outcome.next (cycles_setCpu s _ 2), ?_, ?_, rfl, onlyCpu_setCpu 2 _⟩
    · exact add_sext16_toNat _ e
    · exact flagsAre_setCpu _ _ _ _ _ rfl

/-- Settles O10: LD (nn),SP is two bus writes, PUSH rr an M-cycle and a push. -/
theorem storeWord : Obligations.StoreWord := by
  refine ⟨fun lo hi => encodes_of_encode (withImmediate16_append _ lo hi) rfl nofun, fun nn s => ?store,
    fun rr => ⟨?pushBytes, fun s => ?push⟩, fun s hs => ?low⟩
  case store =>
    obtain ⟨hlo, hcpu⟩ := stored_busWrite (s := s) nn (loByte s.cpu.sp)
    obtain ⟨hhi, hcpu'⟩ := stored_busWrite (s := s.busWrite nn (loByte s.cpu.sp)) (nn + 1) (hiByte s.cpu.sp)
    exact ⟨_, rfl, ⟨_, hlo, hhi⟩, hcpu'.trans hcpu⟩
  case pushBytes => exact encodes_of_encode (congrArg ([·]) (opcode_eq_op8 (by omega))) rfl nofun
  case push =>
    have hpushed := pushed_push16 (s := s.cycle) (s.stackPair rr) (s.cycle.push16 (s.stackPair rr)).cpu
    rw [setCpu_self, cycle_cpu] at hpushed
    exact ⟨_, rfl, hpushed, by rw [internal, push16_cpu, cycle_cpu]⟩
  case low =>
    show joinBytes s.cpu.a s.cpu.f &&& joinBytes 0x00 0x0F = 0
    rw [joinBytes_and, hs.cpu.lowNibble]
    exact congrArg (joinBytes · 0) BitVec.and_zero

/-- Settles O11: POP rr writes the pair with the word two M-cycles on, and POP AF is the same for AF. -/
theorem popWord : Obligations.PopWord := by
  refine ⟨fun rr h => ?bytes, fun rr s => ?pop, ⟨encodes_of_encode rfl rfl nofun, fun s => ?popAf⟩,
    fun s hdma hsp => popped_blocked hdma hsp⟩
  case bytes =>
    have hw : (Instr.popRr rr).wellFormed = true := Instr.wellFormed_of_ne (by simpa using h)
    exact encodes_of_encode (congrArg ([·]) (opcode_eq_op8 (by omega))) hw nofun
  case pop =>
    refine ⟨_, exec_popRr_of_pop16 rr pop16_eq_add_two, stackPair_setStackPair rr _, fun rr' h => ?_,
      by cases rr <;> rfl, ?_⟩
    · rw [stackPair_setStackPair_of_ne _ h]
      cases rr' <;> rfl
    · rw [setStackPair_eq, setCpu_setCpu]
      exact onlyCpu_setCpu 2 _
  case popAf =>
    refine ⟨_, exec_popRr_of_pop16 .af pop16_eq_add_two, ?_, ?_, rfl, onlyCpu_setCpu 2 _⟩
    · exact hiByte_join _ _
    · exact congrArg (· &&& 0xF0) (loByte_join _ _)

/-! ## What is pushed is popped -/

/-- The machine is sound, no DMA transfer runs, and the word below SP lies in work RAM. -/
structure State.StackInWram (s : State) : Prop where
  sound : s.Sound
  idle : s.dma.counter = 0
  low : 0xC002 ≤ s.cpu.sp.toNat
  high : s.cpu.sp.toNat ≤ 0xE000

namespace State

variable {s : State}

theorem cycles_dma_of_idle (h : s.dma.counter = 0) (k : Nat) : (s.cycles k).dma = s.dma := by
  rw [cycles_dma, h, Nat.zero_sub, ← h]

theorem StackInWram.cycle (h : s.StackInWram) : s.cycle.StackInWram where
  sound := h.sound.cycle
  idle := (congrArg Dma.counter (cycles_dma_of_idle h.idle 1)).trans h.idle
  low := by rw [cycle_cpu]; exact h.low
  high := by rw [cycle_cpu]; exact h.high

/-- With no DMA transfer a read of work RAM is the byte of the array. -/
theorem memRead_wram (hidle : s.dma.counter = 0) {a : Word} (h : 0xC000 ≤ a.toNat) (h' : a.toNat ≤ 0xDFFF) :
    s.memRead a = s.wram.read (a.toNat - 0xC000) :=
  (memRead_open (dmaBlocks_eq_false (.inl hidle))).trans (routeRead_wram true (placeOf_eq_wram h h'))

theorem popped_wram (hidle : s.dma.counter = 0) {sp : Word} (h : 0xC000 ≤ sp.toNat) (h' : sp.toNat < 0xDFFF) :
    s.popped sp = joinBytes (s.wram.read (sp.toNat + 1 - 0xC000)) (s.wram.read (sp.toNat - 0xC000)) := by
  have hidle' (k : Nat) : (s.cycles k).dma.counter = 0 := by rw [cycles_dma_of_idle hidle, hidle]
  have hnext : (sp + 1).toNat = sp.toNat + 1 := by bv_omega
  rw [popped, memRead_wram (hidle' 1) h (by omega), memRead_wram (hidle' 2) (by omega) (by omega), cycles_wram,
    cycles_wram, hnext]
  rfl

/-- A push onto a stack in work RAM writes two bytes of the array and starts no DMA transfer. -/
theorem StackInWram.push16_wram_and_idle (h : s.StackInWram) (v : Word) :
    (s.push16 v).wram =
        (s.wram.write (s.cpu.sp.toNat - 1 - 0xC000) (hiByte v)).write (s.cpu.sp.toNat - 2 - 0xC000) (loByte v) ∧
      (s.push16 v).dma.counter = 0 := by
  obtain ⟨-, hidle, hlow, hhigh⟩ := h
  have hplace {a : Word} {k : Nat} (ha : a.toNat = s.cpu.sp.toNat - k) (hk : 1 ≤ k) (hk' : k ≤ 2) :
      placeOf a = .wram (s.cpu.sp.toNat - k - 0xC000) := by rw [placeOf_eq_wram (by omega) (by omega), ha]
  have hhi := hplace (a := s.cpu.sp - 1) (k := 1) (by bv_omega) (by omega) (by omega)
  have hlo := hplace (a := s.cpu.sp - 1 - 1) (k := 2) (by bv_omega) (by omega) (by omega)
  rw [push16_eq, memWrite_wram _ hlo, memWrite_wram _ hhi]
  constructor
  · simp
  · simp [← cycles_one, cycles_dma, hidle]

/-- A pop right after a push finds the word pushed. -/
theorem StackInWram.popped_push16 (h : s.StackInWram) (v : Word) : (s.push16 v).popped (s.cpu.sp - 2) = v := by
  obtain ⟨hwram, hidle⟩ := h.push16_wram_and_idle v
  obtain ⟨hs, -, hlow, hhigh⟩ := h
  have hsp : (s.cpu.sp - 2).toNat = s.cpu.sp.toNat - 2 := by bv_omega
  have hwf := Memory.wf_write (i := s.cpu.sp.toNat - 1 - 0xC000) (hiByte v) hs.memories.wram (by omega)
  rw [popped_wram hidle (by omega) (by omega), hwram, hsp, Memory.read_write_same _ _ hwf,
    Memory.read_write_ne _ _ (by omega), show s.cpu.sp.toNat - 2 + 1 - 0xC000 = s.cpu.sp.toNat - 1 - 0xC000 by omega,
    Memory.read_write_same _ _ hs.memories.wram, join_hi_lo]

/-- A pop right after a push brings the word and SP back, whatever else has become of the CPU in between. -/
theorem StackInWram.pop16_push16 (h : s.StackInWram) (v : Word) {c : Cpu} (hc : c.sp = s.cpu.sp - 2) :
    ((s.push16 v).setCpu c).pop16 = (v, ((s.push16 v).cycles 2).setCpu { c with sp := s.cpu.sp }) := by
  have hpopped : ((s.push16 v).setCpu c).popped (s.cpu.sp - 2) = v := by
    simpa [popped] using h.popped_push16 v
  rw [pop16_eq_add_two, setCpu_cpu, hc, hpopped, cycles_setCpu, setCpu_setCpu, BitVec.sub_add_cancel]

theorem StackInWram.pop16_push16_self (h : s.StackInWram) (v : Word) :
    (s.push16 v).pop16 = (v, ((s.push16 v).cycles 2).setCpu s.cpu) := by
  have hpop := h.pop16_push16 v (congrArg Cpu.sp (push16_cpu v))
  rwa [setCpu_self, push16_cpu] at hpop

end State

/-- Settles O12: the second instruction pops what the first has pushed; writing it where it came from changes nothing
further. -/
theorem stackRoundTrip : Obligations.StackRoundTrip := by
  intro s hs hidle hlow hhigh
  have hstack : s.cycle.StackInWram := StackInWram.cycle ⟨hs, hidle, hlow, hhigh⟩
  refine ⟨fun rr => ?push, fun nn => ?call⟩
  case push =>
    have hpop := exec_popRr_of_pop16 rr (hstack.pop16_push16_self (s.stackPair rr))
    rw [cycle_cpu, setStackPair_of_cpu_eq (setCpu_cpu _ _) hs.cpu] at hpop
    refine ⟨s.cycle.push16 (s.stackPair rr), _, rfl, (exec_pop rr).trans hpop, setCpu_cpu _ _, ?_⟩
    exact stackPair_of_cpu_eq (setCpu_cpu _ _) rr
  case call =>
    have hcall : exec (.callNn nn) s =
        .next ((s.cycle.push16 s.cpu.pc).setCpu { s.cpu with sp := s.cpu.sp - 2, pc := nn }) := by
      show Host.Outcome.next ((s.cycle.push16 s.cpu.pc).setPc nn) = _
      rw [setPc_eq, push16_cpu, cycle_cpu]
    have hpop := hstack.pop16_push16 s.cpu.pc (c := { s.cpu with sp := s.cpu.sp - 2, pc := nn }) (by rw [cycle_cpu])
    rw [cycle_cpu] at hpop
    exact ⟨_, _, hcall, rfl, exec_ret_of_pop16 hpop, by rw [internal, cycle_cpu, setPc_eq, setCpu_cpu, setCpu_cpu]⟩

end Sys2Proof.Machine

/-! # 8-bit arithmetic and logic -/

namespace Sys2Proof.Machine

/-! ## The ALU's results (R251 to R263) -/

theorem beq_zero_eq_decide_toNat (v : Byte) : (v == 0) = decide (v.toNat = 0) := by
  simp [BitVec.toNat_eq, Bool.beq_eq_decide_eq]

theorem carryNat_eq_toNat (c : Bool) : carryNat c = c.toNat := by
  cases c <;> rfl

theorem aluAdd_value_toNat (a v : Byte) (c : Bool) :
    (aluAdd a v c).value.toNat = (a.toNat + v.toNat + carryNat c) % 256 :=
  BitVec.toNat_ofNat _ 8

theorem aluSub_value_toNat (a v : Byte) (c : Bool) :
    ((aluSub a v c).value.toNat : Int) = ((a.toNat : Int) - v.toNat - carryNat c) % 256 :=
  (congrArg _ (BitVec.toNat_ofInt _)).trans (Int.toNat_of_nonneg (Int.emod_nonneg _ (by decide)))

/-- The difference is 0 where the operands are equal (R258). -/
theorem aluSub_z_eq_decide (a v : Byte) : (aluSub a v false).z = decide (a = v) := by
  have hvalue := aluSub_value_toNat a v false
  have hzero : (aluSub a v false).value.toNat = 0 ↔ a = v := by
    simp only [BitVec.toNat_eq, carryNat, Bool.false_eq_true, if_false] at hvalue ⊢
    omega
  exact (beq_zero_eq_decide_toNat _).trans (decide_eq_decide.mpr hzero)

theorem aluInc_value_toNat (v : Byte) (c : Bool) : (aluInc v c).value.toNat = (v.toNat + 1) % 256 :=
  BitVec.toNat_add v 1

theorem aluDec_value_toNat (v : Byte) (c : Bool) : (aluDec v c).value.toNat = (v.toNat + 255) % 256 := by
  rw [Nat.add_comm]
  exact BitVec.toNat_sub v 1

/-- The adjustment of DAA as R263 has it: one number for both digits, whichever way it is applied. -/
def daaAdjustment (a : Byte) (n h c : Bool) : Byte :=
  (if h = true ∨ (n = false ∧ a.toNat % 16 > 9) then 0x06 else 0) |||
    (if c = true ∨ (n = false ∧ a.toNat > 0x99) then 0x60 else 0)

theorem aluDaa_value (a : Byte) (n h c : Bool) :
    (aluDaa a n h c).value = if n then a - daaAdjustment a n h c else a + daaAdjustment a n h c := by
  cases n <;> simp [aluDaa, daaAdjustment]

/-- The two digits' parts share no bit. -/
theorem daaAdjustment_toNat (a : Byte) (n h c : Bool) :
    (daaAdjustment a n h c).toNat =
      (if h = true ∨ (n = false ∧ a.toNat % 16 > 9) then 0x06 else 0) +
        (if c = true ∨ (n = false ∧ a.toNat > 0x99) then 0x60 else 0) := by
  unfold daaAdjustment
  split <;> split <;> rfl

theorem aluDaa_value_toNat (a : Byte) (n h c : Bool) :
    (aluDaa a n h c).value.toNat =
      (if n then a.toNat + 256 - (daaAdjustment a n h c).toNat else a.toNat + (daaAdjustment a n h c).toNat) %
        256 := by
  rw [aluDaa_value]
  cases n
  case false => exact BitVec.toNat_add a _
  case true =>
    have hlt := (daaAdjustment a true h c).isLt
    simp only [if_true, BitVec.toNat_sub]
    omega

theorem aluDaa_flags (a : Byte) (n h c : Bool) :
    let r := aluDaa a n h c
    r.z = (r.value == 0) ∧ r.n = n ∧ r.h = false ∧ r.c = (c || (!n && decide (a.toNat > 0x99))) := by
  cases n
  · exact ⟨rfl, rfl, rfl, rfl⟩
  · exact ⟨rfl, rfl, rfl, (Bool.or_false c).symm⟩

namespace State

variable (s : State)

/-! ## A result written to A and F, `k` M-cycles on -/

section
variable (r : Alu) (k : Nat)

theorem putAlu_a : (s.putAlu r).cpu.a = r.value := rfl

theorem flagsAre_putAlu : FlagsAre (s.putAlu r) r.z r.n r.h r.c :=
  flagsAre_setCpu _ _ _ _ _ rfl

theorem onlyAF_putAlu : OnlyAF s ((s.cycles k).putAlu r) := by
  rw [OnlyAF, putAlu_eq, cycles_cpu]
  rfl

theorem onlyCpu_putAlu : OnlyCpu k s ((s.cycles k).putAlu r) :=
  onlyCpu_setCpu k _

/-- Where Z is computed from the result, it is computed from the new A. -/
theorem flagsAre_putAlu_of_z {r : Alu} (hz : r.z = (r.value == 0)) :
    FlagsAre (s.putAlu r) (decide ((s.putAlu r).cpu.a.toNat = 0)) r.n r.h r.c := by
  rw [putAlu_a, ← beq_zero_eq_decide_toNat, ← hz]
  exact flagsAre_putAlu s r

end

theorem flagC_cycles (k : Nat) : (s.cycles k).flagC = s.flagC := by
  rw [flagC, cycles_cpu]
  rfl

/-! ## The operations on A -/

variable (v : Byte) (k : Nat)

theorem added_putAlu (c : Bool) :
    Added s v (carryNat c) k ((s.cycles k).putAlu (aluAdd (s.cycles k).cpu.a v c)) := by
  rw [cycles_cpu]
  exact ⟨aluAdd_value_toNat _ v c, flagsAre_putAlu_of_z _ rfl, onlyAF_putAlu s _ k, onlyCpu_putAlu s _ k⟩

theorem added_putAlu_flagC :
    Added s v s.flagC.toNat k ((s.cycles k).putAlu (aluAdd (s.cycles k).cpu.a v (s.cycles k).flagC)) := by
  rw [flagC_cycles, ← carryNat_eq_toNat]
  exact added_putAlu s v k s.flagC

theorem subtracted_putAlu (c : Bool) :
    Subtracted s v (carryNat c) k ((s.cycles k).putAlu (aluSub (s.cycles k).cpu.a v c)) := by
  rw [cycles_cpu]
  exact ⟨aluSub_value_toNat _ v c, flagsAre_putAlu_of_z _ rfl, onlyAF_putAlu s _ k, onlyCpu_putAlu s _ k⟩

theorem subtracted_putAlu_flagC :
    Subtracted s v s.flagC.toNat k ((s.cycles k).putAlu (aluSub (s.cycles k).cpu.a v (s.cycles k).flagC)) := by
  rw [flagC_cycles, ← carryNat_eq_toNat]
  exact subtracted_putAlu s v k s.flagC

theorem compared_putAluFlags :
    Compared s v k ((s.cycles k).putAluFlags (aluSub (s.cycles k).cpu.a v false)) := by
  rw [putAluFlags_eq, cycles_cpu]
  refine ⟨?_, rfl, onlyCpu_setCpu k _⟩
  rw [← aluSub_z_eq_decide]
  exact flagsAre_setCpu _ _ _ _ _ rfl

/-- A logic operation: its result bit by bit, and H as the operation has it. -/
theorem combined_putAlu {r : Alu} {f : Bool → Bool → Bool}
    (hbits : ∀ i, i < 8 → r.value.getLsbD i = f (s.cpu.a.getLsbD i) (v.getLsbD i))
    (hz : r.z = (r.value == 0)) (hn : r.n = false) (hc : r.c = false) :
    Combined s v f r.h k ((s.cycles k).putAlu r) := by
  refine ⟨hbits, ?_, onlyAF_putAlu s r k, onlyCpu_putAlu s r k⟩
  have hflags := flagsAre_putAlu_of_z (s.cycles k) hz
  rwa [hn, hc] at hflags

theorem combined_and : Combined s v and true k ((s.cycles k).putAlu (aluAnd (s.cycles k).cpu.a v)) := by
  rw [cycles_cpu]
  exact combined_putAlu (r := aluAnd _ v) s v k (fun _ _ => BitVec.getLsbD_and) rfl rfl rfl

theorem combined_xor : Combined s v xor false k ((s.cycles k).putAlu (aluXor (s.cycles k).cpu.a v)) := by
  rw [cycles_cpu]
  exact combined_putAlu (r := aluXor _ v) s v k (fun _ _ => BitVec.getLsbD_xor) rfl rfl rfl

theorem combined_or : Combined s v or false k ((s.cycles k).putAlu (aluOr (s.cycles k).cpu.a v)) := by
  rw [cycles_cpu]
  exact combined_putAlu (r := aluOr _ v) s v k (fun _ _ => BitVec.getLsbD_or) rfl rfl rfl

/-! ## A result written to a register or to the byte at HL -/

/-- Where Z is computed from the result, it is computed from the register's new value. -/
theorem regFlagged_modifyReg8_of_z (r : Reg8) {f : Byte → Alu} (hz : (f (s.reg8 r)).z = ((f (s.reg8 r)).value == 0)) :
    RegFlagged s r (decide (((s.modifyReg8 r f).reg8 r).toNat = 0)) (f (s.reg8 r)).n (f (s.reg8 r)).h (f (s.reg8 r)).c 0
      (s.modifyReg8 r f) := by
  rw [reg8_modifyReg8, ← beq_zero_eq_decide_toNat, ← hz]
  exact regFlagged_modifyReg8 r f

/-- The same for the byte at HL. -/
theorem byteFlagged_modifyAtHl_of_z {v : Byte} (f : Byte → Alu) (hv : s.cycle.memRead s.hl = v)
    (hz : (f v).z = ((f v).value == 0)) :
    ByteFlagged s s.hl (f v).value (decide ((f v).value.toNat = 0)) (f v).n (f v).h (f v).c (s.modifyAtHl f) := by
  subst hv
  rw [← beq_zero_eq_decide_toNat, ← hz]
  exact byteFlagged_modifyAtHl f

end State

open State

/-! ## The instructions -/

/-- An instruction of one byte, which is known by its number (R151). -/
theorem encodes_op8 {i : Instr} {x y z n : Nat} (hi : encode i = [opcode x y z]) (hw : i.wellFormed = true)
    (hp : i ≠ .prefixCB) (hn : 64 * x + 8 * y + z = n) : Encodes [op8 n] i :=
  opcode_eq_op8 hn ▸ encodes_of_encode hi hw hp

/-- Settles O13: every form writes the sum with its flags, the (HL) forms one M-cycle on. -/
theorem addWithCarry : Obligations.AddWithCarry := by
  refine ⟨fun r => ⟨?addR, fun s => ⟨_, rfl, added_putAlu s (s.reg8 r) 0 false⟩⟩,
    ⟨?_, fun s => ⟨_, rfl, added_putAlu s (s.cycle.memRead s.hl) 1 false⟩⟩,
    fun n => ⟨?_, fun s => ⟨_, rfl, added_putAlu s n 0 false⟩⟩,
    fun r => ⟨?adcR, fun s => ⟨_, rfl, added_putAlu_flagC s (s.reg8 r) 0⟩⟩,
    ⟨?_, fun s => ⟨_, rfl, added_putAlu_flagC s (s.cycle.memRead s.hl) 1⟩⟩,
    fun n => ⟨?_, fun s => ⟨_, rfl, added_putAlu_flagC s n 0⟩⟩⟩
  case addR | adcR => exact encodes_op8 rfl rfl nofun (by omega)
  all_goals exact encodes_of_encode rfl rfl nofun

/-- Settles O14: SUB and SBC write the difference with its flags, CP the flags of SUB alone. -/
theorem subtractAndCompare : Obligations.SubtractAndCompare := by
  refine ⟨fun r => ⟨?subR, fun s => ⟨_, rfl, subtracted_putAlu s (s.reg8 r) 0 false⟩⟩,
    ⟨?_, fun s => ⟨_, rfl, subtracted_putAlu s (s.cycle.memRead s.hl) 1 false⟩⟩,
    fun n => ⟨?_, fun s => ⟨_, rfl, subtracted_putAlu s n 0 false⟩⟩,
    fun r => ⟨?sbcR, fun s => ⟨_, rfl, subtracted_putAlu_flagC s (s.reg8 r) 0⟩⟩,
    ⟨?_, fun s => ⟨_, rfl, subtracted_putAlu_flagC s (s.cycle.memRead s.hl) 1⟩⟩,
    fun n => ⟨?_, fun s => ⟨_, rfl, subtracted_putAlu_flagC s n 0⟩⟩,
    fun r => ⟨?cpR, fun s => ⟨_, rfl, compared_putAluFlags s (s.reg8 r) 0⟩⟩,
    ⟨?_, fun s => ⟨_, rfl, compared_putAluFlags s (s.cycle.memRead s.hl) 1⟩⟩,
    fun n => ⟨?_, fun s => ⟨_, rfl, compared_putAluFlags s n 0⟩⟩⟩
  case subR | sbcR | cpR => exact encodes_op8 rfl rfl nofun (by omega)
  all_goals exact encodes_of_encode rfl rfl nofun

/-- Settles O15: each form combines A with its operand bit by bit, the (HL) forms one M-cycle on. -/
theorem logic : Obligations.Logic := by
  refine ⟨fun r => ⟨?andR, fun s => ⟨_, rfl, combined_and s (s.reg8 r) 0⟩⟩,
    ⟨?_, fun s => ⟨_, rfl, combined_and s (s.cycle.memRead s.hl) 1⟩⟩,
    fun n => ⟨?_, fun s => ⟨_, rfl, combined_and s n 0⟩⟩,
    fun r => ⟨?xorR, fun s => ⟨_, rfl, combined_xor s (s.reg8 r) 0⟩⟩,
    ⟨?_, fun s => ⟨_, rfl, combined_xor s (s.cycle.memRead s.hl) 1⟩⟩,
    fun n => ⟨?_, fun s => ⟨_, rfl, combined_xor s n 0⟩⟩,
    fun r => ⟨?orR, fun s => ⟨_, rfl, combined_or s (s.reg8 r) 0⟩⟩,
    ⟨?_, fun s => ⟨_, rfl, combined_or s (s.cycle.memRead s.hl) 1⟩⟩,
    fun n => ⟨?_, fun s => ⟨_, rfl, combined_or s n 0⟩⟩⟩
  case andR | xorR | orR => exact encodes_op8 rfl rfl nofun (by omega)
  all_goals exact encodes_of_encode rfl rfl nofun

/-- Settles O16: each form replaces its operand by the result and keeps C, the (HL) forms by a read and a write. -/
theorem incrementDecrement : Obligations.IncrementDecrement := by
  refine ⟨fun r => ⟨?incR, fun s => ⟨_, rfl, ?incValue, regFlagged_modifyReg8_of_z s r rfl⟩⟩,
    ⟨?_, fun s => ⟨_, rfl, _, aluInc_value_toNat _ s.flagC,
      byteFlagged_modifyAtHl_of_z s (aluInc · s.flagC) rfl rfl⟩⟩,
    fun r => ⟨?decR, fun s => ⟨_, rfl, ?decValue, regFlagged_modifyReg8_of_z s r rfl⟩⟩,
    ⟨?_, fun s => ⟨_, rfl, _, aluDec_value_toNat _ s.flagC,
      byteFlagged_modifyAtHl_of_z s (aluDec · s.flagC) rfl rfl⟩⟩⟩
  case incValue => rw [reg8_modifyReg8, aluInc_value_toNat]
  case decValue => rw [reg8_modifyReg8, aluDec_value_toNat]
  case incR | decR => exact encodes_op8 rfl rfl nofun (by omega)
  all_goals exact encodes_of_encode rfl rfl nofun

/-- Settles O17: DAA writes the adjusted A with its flags; the two digits' adjustments add up. -/
theorem decimalAdjust : Obligations.DecimalAdjust := by
  refine ⟨encodes_of_encode rfl rfl nofun, fun s => ?_⟩
  obtain ⟨hz, hn, hh, hc⟩ := aluDaa_flags s.cpu.a s.flagN s.flagH s.flagC
  have hvalue := aluDaa_value_toNat s.cpu.a s.flagN s.flagH s.flagC
  have hflags := flagsAre_putAlu_of_z s hz
  rw [daaAdjustment_toNat] at hvalue
  rw [hn, hh, hc] at hflags
  exact ⟨_, rfl, hvalue, hflags, rfl, onlyCpu_zero _⟩

/-! ## Decimal arithmetic -/

theorem bcd_toNat {n : Nat} (h : n < 100) : (bcd n).toNat = 16 * (n / 10) + n % 10 := by
  rw [bcd, BitVec.toNat_ofNat]
  omega

section
variable {x y : Nat} (hx : x < 100) (hy : y < 100)
include hx hy

/-- In a sum of two BCD numbers DAA finds the low digits' decimal carry. -/
theorem low_digit_carries_iff :
    ((bcd x).toNat % 16 + (bcd y).toNat % 16 > 15 ∨ ((bcd x).toNat + (bcd y).toNat) % 256 % 16 > 9) ↔
      x % 10 + y % 10 ≥ 10 := by
  rw [bcd_toNat hx, bcd_toNat hy]
  omega

theorem high_digit_carries_iff :
    ((bcd x).toNat + (bcd y).toNat > 255 ∨ ((bcd x).toNat + (bcd y).toNat) % 256 > 0x99) ↔ x + y ≥ 100 := by
  have hsum (n : Nat) : n > 255 ∨ n % 256 > 0x99 ↔ n > 0x99 := by omega
  rw [hsum, bcd_toNat hx, bcd_toNat hy]
  omega

theorem bcd_sum_toNat :
    (((bcd x).toNat + (bcd y).toNat) % 256 +
      ((if x % 10 + y % 10 ≥ 10 then 0x06 else 0) + (if x + y ≥ 100 then 0x60 else 0))) % 256 =
      (bcd ((x + y) % 100)).toNat := by
  rw [bcd_toNat hx, bcd_toNat hy, bcd_toNat (Nat.mod_lt _ (by decide))]
  split <;> split <;> omega

theorem low_digit_borrows_iff : (bcd x).toNat % 16 < (bcd y).toNat % 16 ↔ x % 10 < y % 10 := by
  rw [bcd_toNat hx, bcd_toNat hy]
  omega

theorem bcd_lt_iff : (bcd x).toNat < (bcd y).toNat ↔ x < y := by
  rw [bcd_toNat hx, bcd_toNat hy]
  omega

theorem bcd_difference_toNat {d : Nat} (hd : (d : Int) = ((bcd x).toNat - (bcd y).toNat : Int) % 256) :
    (d + 256 - ((if x % 10 < y % 10 then 0x06 else 0) + (if x < y then 0x60 else 0))) % 256 =
      (bcd ((x + 100 - y) % 100)).toNat := by
  rw [bcd_toNat hx, bcd_toNat hy] at hd
  rw [bcd_toNat (Nat.mod_lt _ (by decide))]
  split <;> split <;> omega

variable {s : State} (ha : s.cpu.a = bcd x)
include ha

/-- ADD then DAA: H, C and the digits above 9 together are the decimal carries. -/
theorem exec_daa_addAN_bcd :
    ∃ t u, exec (.addAN (bcd y)) s = .next t ∧ exec .daa t = .next u ∧
      u.cpu.a = bcd ((x + y) % 100) ∧ u.flagC = decide (x + y ≥ 100) := by
  obtain ⟨-, -, hadd, -⟩ := addWithCarry
  obtain ⟨-, hdaa⟩ := decimalAdjust
  obtain ⟨t, ht, hsum, hflags, -, -⟩ := (hadd (bcd y)).2 s
  obtain ⟨u, hu, hvalue, hflags', -, -⟩ := hdaa t
  have hcarry := hflags'.c
  rw [ha, Nat.add_zero] at hsum
  simp only [hflags.n, hflags.h, hflags.c, hsum, ha, Nat.add_zero, decide_eq_true_eq, true_and, Bool.false_eq_true,
    if_false, low_digit_carries_iff hx hy, high_digit_carries_iff hx hy, bcd_sum_toNat hx hy] at hvalue
  simp only [hflags.n, hflags.c, hsum, ha, Nat.add_zero, Bool.not_false, Bool.true_and, ← Bool.decide_or,
    high_digit_carries_iff hx hy] at hcarry
  exact ⟨t, u, ht, hu, BitVec.eq_of_toNat_eq hvalue, hcarry⟩

/-- SUB then DAA: H and C are the decimal borrows. -/
theorem exec_daa_subN_bcd :
    ∃ t u, exec (.subN (bcd y)) s = .next t ∧ exec .daa t = .next u ∧
      u.cpu.a = bcd ((x + 100 - y) % 100) ∧ u.flagC = decide (x < y) := by
  obtain ⟨-, -, hsub, -⟩ := subtractAndCompare
  obtain ⟨-, hdaa⟩ := decimalAdjust
  obtain ⟨t, ht, hdifference, hflags, -, -⟩ := (hsub (bcd y)).2 s
  obtain ⟨u, hu, hvalue, hflags', -, -⟩ := hdaa t
  have hborrow := hflags'.c
  rw [ha, Nat.cast_zero, Int.sub_zero] at hdifference
  simp only [hflags.n, hflags.h, hflags.c, ha, Nat.add_zero, decide_eq_true_eq, Bool.true_eq_false, false_and, or_false,
    if_true, low_digit_borrows_iff hx hy, bcd_lt_iff hx hy, bcd_difference_toNat hx hy hdifference] at hvalue
  simp only [hflags.n, hflags.c, ha, Nat.add_zero, Bool.not_true, Bool.false_and, Bool.or_false,
    bcd_lt_iff hx hy] at hborrow
  exact ⟨t, u, ht, hu, BitVec.eq_of_toNat_eq hvalue, hborrow⟩

end

/-- Settles O18: from the values and flags of ADD, SUB (O13, O14) and DAA (O17). -/
theorem decimalArithmetic : Obligations.DecimalArithmetic :=
  fun _ _ _ hx hy ha => ⟨exec_daa_addAN_bcd hx hy ha, exec_daa_subN_bcd hx hy ha⟩

/-- Settles O19: CPL writes the complement to A, and all three write flags that are given outright. -/
theorem flagSingletons : Obligations.FlagSingletons := by
  refine ⟨⟨?_, fun s => ?cpl⟩, ⟨?_, fun s => ?scf⟩, ⟨?_, fun s => ?ccf⟩⟩
  case cpl =>
    refine ⟨_, rfl, fun i hi => ?_, flagsAre_setCpu _ _ _ _ _ rfl, rfl, onlyCpu_zero _⟩
    exact BitVec.getLsbD_not.trans (by simp [hi])
  case scf | ccf => exact ⟨_, rfl, flagsAre_setCpu _ _ _ _ _ rfl, rfl, onlyCpu_zero _⟩
  all_goals exact encodes_of_encode rfl rfl nofun

end Sys2Proof.Machine

/-! # 16-bit arithmetic -/

namespace Sys2Proof.Machine

namespace State

variable {s : State}

theorem pair_of_cpu_eq {t : State} (h : t.cpu = s.cpu) (rr : Pair) : t.pair rr = s.pair rr := by
  cases rr <;> simp only [pair, bc, de, hl, h]

/-- A pair written before an M-cycle without bus access: the pair, the others, and the frame of both. -/
theorem completes_setPair_internal (s : State) (rr : Pair) (v : Word) :
    Completes (.next (s.setPair rr v).internal) fun t =>
      t.pair rr = v ∧ (∀ rr', rr' ≠ rr → t.pair rr' = s.pair rr') ∧
        t.cpu =
          { s.cpu with
            b := t.cpu.b, c := t.cpu.c, d := t.cpu.d, e := t.cpu.e, h := t.cpu.h, l := t.cpu.l, sp := t.cpu.sp } ∧
        OnlyCpu 1 s t := by
  have hcpu : (s.setPair rr v).internal.cpu = (s.setPair rr v).cpu := cycle_cpu _
  refine ⟨_, rfl, ?_, fun rr' h => ?_, ?_, ?_⟩
  · rw [pair_of_cpu_eq hcpu, pair_setPair]
  · rw [pair_of_cpu_eq hcpu, pair_setPair_of_ne s v h]
  · rw [hcpu]
    cases rr <;> rfl
  · rw [setPair_eq, internal, cycle_setCpu]
    exact onlyCpu_one _

end State

open State

/-- Settles O20: ADD HL,rr writes HL and F one M-cycle on, INC rr and DEC rr are the write of a pair. -/
theorem pairArithmetic : Obligations.PairArithmetic := by
  refine ⟨fun rr => ⟨?addBytes, fun s => ?add⟩, fun rr => ⟨?incBytes, fun s => ?inc⟩,
    fun rr => ⟨?decBytes, fun s => ?dec⟩⟩
  case add =>
    refine ⟨_, congrArg Host.Outcome.next (cycle_setCpu s _), ?_, flagsAre_setCpu _ _ _ _ _ rfl, rfl, onlyCpu_one _⟩
    exact (congrArg BitVec.toNat (hl_setHl s _)).trans (BitVec.toNat_add _ _)
  case inc =>
    obtain ⟨t, ht, hvalue, hframe⟩ := s.completes_setPair_internal rr (s.pair rr + 1)
    refine ⟨t, ht, ?_, hframe⟩
    rw [hvalue]
    exact BitVec.toNat_add _ 1
  case dec =>
    obtain ⟨t, ht, hvalue, hframe⟩ := s.completes_setPair_internal rr (s.pair rr - 1)
    refine ⟨t, ht, ?_, hframe⟩
    rw [hvalue, Nat.add_comm]
    exact BitVec.toNat_sub _ 1
  all_goals exact encodes_op8 rfl rfl nofun (by omega)

end Sys2Proof.Machine

/-! # Rotates, shifts and bits -/

namespace Sys2Proof.Machine

/-- An instruction of the extended table, whose second byte is known by its number (R157). -/
theorem encodes_extended {i : Instr} {x y z n : Nat} (hi : encode i = extended x y z) (hw : i.wellFormed = true)
    (hp : i ≠ .prefixCB) (hn : 64 * x + 8 * y + z = n) : Encodes [0xCB, op8 n] i :=
  opcode_eq_op8 hn ▸ encodes_of_encode hi hw hp

/-! ## The results of the rotates and shifts (R300 to R311) -/

/-- A result with the bits `bit`, Z computed from them, N and H 0, and C the bit shifted out. -/
structure Alu.IsShift (r : Alu) (bit : Nat → Bool) (out : Bool) : Prop where
  bits : ∀ i, i < 8 → r.value.getLsbD i = bit i
  z : r.z = (r.value == 0)
  n : r.n = false
  h : r.h = false
  c : r.c = out

theorem shiftResult_isShift {v : Byte} {bit : Nat → Bool} (out : Bool) (hbits : ∀ i, i < 8 → v.getLsbD i = bit i) :
    (shiftResult v out).IsShift bit out :=
  ⟨hbits, rfl, rfl, rfl, rfl⟩

/-- The same result, its bits told another way. -/
theorem Alu.IsShift.congr {r : Alu} {bit bit' : Nat → Bool} {out : Bool} (h : r.IsShift bit out)
    (hbits : ∀ i, i < 8 → bit i = bit' i) : r.IsShift bit' out :=
  { h with bits := fun i hi => (h.bits i hi).trans (hbits i hi) }

/-- To the left through the carry: each bit from the one below it. -/
theorem aluRl_isShift (t : Byte) (c : Bool) :
    (aluRl t c).IsShift (fun i => if i = 0 then c else t.getLsbD (i - 1)) (t.getLsbD 7) := by
  refine shiftResult_isShift _ fun i hi => ?_
  rw [BitVec.getLsbD_append]
  cases i with
  | zero => simp [bit1]
  | succ i => simp [show i < 7 by omega]

/-- To the right through the carry: each bit from the one above it. -/
theorem aluRr_isShift (t : Byte) (c : Bool) :
    (aluRr t c).IsShift (fun i => if i = 7 then c else t.getLsbD (i + 1)) (t.getLsbD 0) := by
  refine shiftResult_isShift _ fun i hi => ?_
  rw [BitVec.getLsbD_append]
  by_cases h7 : i = 7
  · simp [h7, bit1]
  · simp [h7, show i < 7 by omega, Nat.add_comm]

/-- RLC is RL with bit 7 for the carry (R304). -/
theorem aluRlc_isShift (t : Byte) : (aluRlc t).IsShift (fun i => t.getLsbD ((i + 7) % 8)) (t.getLsbD 7) := by
  refine (aluRl_isShift t (t.getLsbD 7)).congr fun i hi => ?_
  split
  · next h0 => rw [h0]
  · next h0 => rw [show (i + 7) % 8 = i - 1 by omega]

/-- RRC is RR with bit 0 for the carry (R305). -/
theorem aluRrc_isShift (t : Byte) : (aluRrc t).IsShift (fun i => t.getLsbD ((i + 1) % 8)) (t.getLsbD 0) := by
  refine (aluRr_isShift t (t.getLsbD 0)).congr fun i hi => ?_
  split
  · next h7 => rw [h7]
  · next h7 => rw [show (i + 1) % 8 = i + 1 by omega]

/-- SLA is RL with 0 for the carry (R308). -/
theorem aluSla_isShift (t : Byte) :
    (aluSla t).IsShift (fun i => if i = 0 then false else t.getLsbD (i - 1)) (t.getLsbD 7) :=
  aluRl_isShift t false

/-- SRA is RR with bit 7 for the carry (R309). -/
theorem aluSra_isShift (t : Byte) :
    (aluSra t).IsShift (fun i => if i = 7 then t.getLsbD 7 else t.getLsbD (i + 1)) (t.getLsbD 0) :=
  aluRr_isShift t (t.getLsbD 7)

/-- SRL is RR with 0 for the carry (R311). -/
theorem aluSrl_isShift (t : Byte) :
    (aluSrl t).IsShift (fun i => if i = 7 then false else t.getLsbD (i + 1)) (t.getLsbD 0) :=
  aluRr_isShift t false

theorem aluSwap_isShift (t : Byte) : (aluSwap t).IsShift (fun i => t.getLsbD ((i + 4) % 8)) false := by
  refine shiftResult_isShift _ fun i hi => ?_
  rw [BitVec.getLsbD_append]
  by_cases h4 : i < 4
  · simp [h4, show (i + 4) % 8 = 4 + i by omega]
  · simp [h4, show i - 4 < 4 by omega, show (i + 4) % 8 = i - 4 by omega]

/-! ## One bit made 0 or 1 (R313, R314) -/

/-- The mask of bit `b` has that bit alone. -/
theorem getLsbD_one_shiftLeft (b : Nat) {i : Nat} (hi : i < 8) : (1#8 <<< b).getLsbD i = decide (i = b) := by
  rw [BitVec.getLsbD_shiftLeft, BitVec.getLsbD_one, Bool.eq_iff_iff]
  simp only [Bool.and_eq_true, Bool.not_eq_true', decide_eq_true_eq, decide_eq_false_iff_not]
  omega

theorem withBit_false_getLsbD (v : Byte) (b : Nat) {i : Nat} (hi : i < 8) :
    (withBit v b false).getLsbD i = (decide (i ≠ b) && v.getLsbD i) := by
  rw [withBit, if_neg Bool.false_ne_true, BitVec.getLsbD_and, BitVec.getLsbD_not, getLsbD_one_shiftLeft b hi,
    Bool.and_comm]
  simp [hi]

theorem withBit_true_getLsbD (v : Byte) (b : Nat) {i : Nat} (hi : i < 8) :
    (withBit v b true).getLsbD i = (decide (i = b) || v.getLsbD i) := by
  rw [withBit, if_pos rfl, BitVec.getLsbD_or, getLsbD_one_shiftLeft b hi, Bool.or_comm]

namespace State

variable {s : State} {bit : Nat → Bool} {out : Bool}

/-! ## A shifted value written to A, to a register, or to the byte at HL -/

/-- Z is forced to 0, whatever the result's Z is (R300 to R303). -/
theorem completes_rotateA {r : Alu} (h : r.IsShift bit out) :
    Completes (.next (s.rotateA r)) fun t =>
      (∀ i, i < 8 → t.cpu.a.getLsbD i = bit i) ∧ FlagsAre t false false false out ∧ OnlyAF s t ∧ OnlyCpu 0 s t := by
  have hflags : FlagsAre (s.rotateA r) false r.n r.h r.c := flagsAre_setCpu _ _ _ _ _ rfl
  rw [h.n, h.h, h.c] at hflags
  exact ⟨_, rfl, h.bits, hflags, rfl, onlyCpu_zero _⟩

theorem completes_modifyReg8_shift (r : Reg8) {f : Byte → Alu} (h : (f (s.reg8 r)).IsShift bit out) :
    Completes (.next (s.modifyReg8 r f)) (ShiftedReg s r bit out) := by
  have hflagged := regFlagged_modifyReg8_of_z s r h.z
  rw [h.n, h.h, h.c] at hflagged
  refine ⟨_, rfl, fun i hi => ?_, hflagged⟩
  rw [reg8_modifyReg8, h.bits i hi]

theorem completes_modifyAtHl_shift {f : Byte → Alu} (h : (f (s.cycle.memRead s.hl)).IsShift bit out) :
    Completes (.next (s.modifyAtHl f)) (ShiftedHl s bit out) := by
  have hflagged := byteFlagged_modifyAtHl_of_z s f rfl h.z
  rw [h.n, h.h, h.c] at hflagged
  exact ⟨_, rfl, _, h.bits, hflagged⟩

/-! ## The operand of BIT, RES and SET -/

/-- BIT writes F alone, `k` M-cycles on (R312). -/
theorem completes_testBit (s : State) (v : Byte) (b : Fin 8) (k : Nat) :
    Completes (.next ((s.cycles k).testBit v b)) fun t =>
      FlagsAre t (!v.getLsbD b.val) false true s.flagC ∧ OnlyF s t ∧ OnlyCpu k s t := by
  rw [testBit, flagC_cycles, setFlags_eq, cycles_cpu]
  exact ⟨_, rfl, flagsAre_setCpu _ _ _ _ _ rfl, rfl, onlyCpu_setCpu k _⟩

theorem completes_setReg8_bits (r : Reg8) {v : Byte} (hbits : ∀ i, i < 8 → v.getLsbD i = bit i) :
    Completes (.next (s.setReg8 r v)) fun t =>
      (∀ i, i < 8 → (t.reg8 r).getLsbD i = bit i) ∧ RegLoaded s r (t.reg8 r) 0 t := by
  have hvalue := reg8_setReg8 s r v
  exact ⟨_, rfl, hvalue.symm ▸ hbits, hvalue.symm ▸ regLoaded_setReg8 r v 0 rfl⟩

theorem rewriteAtHl_eq (f : Byte → Byte) :
    s.rewriteAtHl f = s.cycle.busWrite s.hl (f (s.cycle.memRead s.hl)) := by
  simp [rewriteAtHl, readAtHl, busRead, hl]

/-- The byte at HL is read in one M-cycle and written in the next; no CPU register changes (R313, R314). -/
theorem completes_rewriteAtHl_bits {f : Byte → Byte}
    (hbits : ∀ i, i < 8 → (f (s.cycle.memRead s.hl)).getLsbD i = bit i) :
    Completes (.next (s.rewriteAtHl f)) fun t =>
      (∃ v : Byte, (∀ i, i < 8 → v.getLsbD i = bit i) ∧ Stored s.cycle s.hl v t) ∧ t.cpu = s.cpu := by
  obtain ⟨hstored, hcpu⟩ := stored_busWrite (s := s.cycle) s.hl (f (s.cycle.memRead s.hl))
  exact ⟨_, congrArg Host.Outcome.next (rewriteAtHl_eq f), ⟨_, hbits, hstored⟩, hcpu.trans (cycle_cpu s)⟩

end State

open State

/-! ## The instructions -/

/-- Settles O21: A gets the value of the rotate with its carry, and Z is not taken from it. -/
theorem rotateA : Obligations.RotateA := by
  refine ⟨⟨?_, fun s => completes_rotateA (aluRlc_isShift _)⟩, ⟨?_, fun s => completes_rotateA (aluRrc_isShift _)⟩,
    ⟨?_, fun s => completes_rotateA (aluRl_isShift _ _)⟩, ⟨?_, fun s => completes_rotateA (aluRr_isShift _ _)⟩⟩
  all_goals exact encodes_of_encode rfl rfl nofun

/-- Settles O22: each form replaces its operand by the rotate's result, the (HL) forms by a read and a write. -/
theorem rotates : Obligations.Rotates := by
  refine ⟨fun r => ⟨?rlcR, fun s => completes_modifyReg8_shift r (aluRlc_isShift _)⟩,
    ⟨?_, fun s => completes_modifyAtHl_shift (aluRlc_isShift _)⟩,
    fun r => ⟨?rrcR, fun s => completes_modifyReg8_shift r (aluRrc_isShift _)⟩,
    ⟨?_, fun s => completes_modifyAtHl_shift (aluRrc_isShift _)⟩,
    fun r => ⟨?rlR, fun s => completes_modifyReg8_shift r (aluRl_isShift _ s.flagC)⟩,
    ⟨?_, fun s => completes_modifyAtHl_shift (aluRl_isShift _ s.flagC)⟩,
    fun r => ⟨?rrR, fun s => completes_modifyReg8_shift r (aluRr_isShift _ s.flagC)⟩,
    ⟨?_, fun s => completes_modifyAtHl_shift (aluRr_isShift _ s.flagC)⟩⟩
  case rlcR | rrcR | rlR | rrR => exact encodes_extended rfl rfl nofun (by omega)
  all_goals exact encodes_of_encode rfl rfl nofun

/-- Settles O23: each form replaces its operand by the shift's result, the (HL) forms by a read and a write. -/
theorem shifts : Obligations.Shifts := by
  refine ⟨fun r => ⟨?slaR, fun s => completes_modifyReg8_shift r (aluSla_isShift _)⟩,
    ⟨?_, fun s => completes_modifyAtHl_shift (aluSla_isShift _)⟩,
    fun r => ⟨?sraR, fun s => completes_modifyReg8_shift r (aluSra_isShift _)⟩,
    ⟨?_, fun s => completes_modifyAtHl_shift (aluSra_isShift _)⟩,
    fun r => ⟨?swapR, fun s => completes_modifyReg8_shift r (aluSwap_isShift _)⟩,
    ⟨?_, fun s => completes_modifyAtHl_shift (aluSwap_isShift _)⟩,
    fun r => ⟨?srlR, fun s => completes_modifyReg8_shift r (aluSrl_isShift _)⟩,
    ⟨?_, fun s => completes_modifyAtHl_shift (aluSrl_isShift _)⟩⟩
  case slaR | sraR | swapR | srlR => exact encodes_extended rfl rfl nofun (by omega)
  all_goals exact encodes_of_encode rfl rfl nofun

/-- Settles O24: BIT writes flags only; RES and SET write their operand with one bit changed, and no flag. -/
theorem bitOperations : Obligations.BitOperations := by
  refine ⟨fun b r => ⟨?_, fun s => completes_testBit s (s.reg8 r) b 0⟩,
    fun b => ⟨?_, fun s => completes_testBit s (s.cycle.memRead s.hl) b 1⟩,
    fun b r => ⟨?_, fun s => completes_setReg8_bits r fun i => withBit_false_getLsbD _ b.val⟩,
    fun b => ⟨?_, fun s => completes_rewriteAtHl_bits fun i => withBit_false_getLsbD _ b.val⟩,
    fun b r => ⟨?_, fun s => completes_setReg8_bits r fun i => withBit_true_getLsbD _ b.val⟩,
    fun b => ⟨?_, fun s => completes_rewriteAtHl_bits fun i => withBit_true_getLsbD _ b.val⟩⟩
  all_goals exact encodes_extended rfl rfl nofun (by omega)

end Sys2Proof.Machine

/-! # Control transfer -/

namespace Sys2Proof.Machine

/-- An opcode byte known by its number, with a 16-bit immediate, low byte first (R150). -/
theorem encodes_op8_immediate16 {i : Instr} {x y z n : Nat} {lo hi : Byte}
    (he : encode i = withImmediate16 (opcode x y z) (hi ++ lo)) (hw : i.wellFormed = true) (hp : i ≠ .prefixCB)
    (hn : 64 * x + 8 * y + z = n) : Encodes [op8 n, lo, hi] i :=
  encodes_of_encode (he.trans (opcode_eq_op8 hn ▸ withImmediate16_append _ lo hi)) hw hp

/-- A conditional form does one thing or the other, and what is claimed of it is claimed of each. -/
theorem completes_ite {c : Bool} {taken notTaken : Host.Outcome State Fault Refusal} {P Q : State → Prop}
    (ht : Completes taken P) (hn : Completes notTaken Q) :
    Completes (if c then taken else notTaken) fun t => (c = true → P t) ∧ (c = false → Q t) := by
  cases c
  case true =>
    obtain ⟨t, hnext, hP⟩ := ht
    exact ⟨t, hnext, fun _ => hP, nofun⟩
  case false =>
    obtain ⟨t, hnext, hQ⟩ := hn
    exact ⟨t, hnext, nofun, fun _ => hQ⟩

namespace State

variable {s : State}

/-! ## Jumps, calls and returns -/

/-- `k` M-cycles alone leave PC where it is. -/
theorem jumped_cycles (k : Nat) : Jumped s s.cpu.pc k (s.cycles k) :=
  ⟨cycles_cpu s k, onlyCpu_setCpu k (s.cycles k).cpu⟩

theorem setPc_internal_eq (pc : Word) : (s.setPc pc).internal = s.cycle.setCpu { s.cpu with pc := pc } :=
  cycle_setCpu s _

theorem jumped_setPc_internal (pc : Word) : Jumped s pc 1 (s.setPc pc).internal := by
  rw [setPc_internal_eq]
  exact ⟨rfl, onlyCpu_one _⟩

/-- JR e moves PC by a signed offset, modulo 2^16 (R333). -/
theorem completes_jrE (e : Byte) :
    Completes (exec (.jrE e) s) fun t =>
      (t.cpu.pc.toNat : Int) = ((s.cpu.pc.toNat : Int) + e.toInt) % 65536 ∧ Jumped s t.cpu.pc 1 t :=
  ⟨_, congrArg Host.Outcome.next (setPc_internal_eq _), add_sext16_toNat s.cpu.pc e, rfl, onlyCpu_one _⟩

/-- The push after the M-cycle without bus access, PC then set: what CALL and RST do (R335, R340). -/
theorem called_push16_setPc (pc : Word) : Called s pc ((s.internal.push16 s.cpu.pc).setPc pc) := by
  have hpushed := pushed_push16 (s := s.cycle) s.cpu.pc { (s.cycle.push16 s.cpu.pc).cpu with pc := pc }
  rw [cycle_cpu] at hpushed
  refine ⟨hpushed, ?_⟩
  rw [setPc_eq, setCpu_cpu, internal, push16_cpu, cycle_cpu]

theorem exec_ret_eq :
    exec .ret s = .next ((s.cycles 3).setCpu { s.cpu with pc := s.popped s.cpu.sp, sp := s.cpu.sp + 2 }) := by
  rw [exec_ret_of_pop16 pop16_eq_add_two, setPc_eq, setCpu_setCpu, internal, cycle_setCpu]
  rfl

theorem returnFromInterrupt_eq :
    s.returnFromInterrupt =
      (s.cycles 3).setCpu
        { s.cpu with pc := s.popped s.cpu.sp, sp := s.cpu.sp + 2, ime := true, imePending := false } := by
  simp only [returnFromInterrupt, pop16_eq_add_two, internal, cycle_setCpu, setCpu_setCpu, setCpu_cpu]
  rfl

/-! ## A conditional form is the plain one when taken -/

theorem exec_jpCcNn (cc : Cond) (nn : Word) :
    exec (.jpCcNn cc nn) s = if s.holds cc then exec (.jpNn nn) s else .next s := apply_ite Host.Outcome.next _ _ _

theorem exec_jrCcE (cc : Cond) (e : Byte) :
    exec (.jrCcE cc e) s = if s.holds cc then exec (.jrE e) s else .next s := apply_ite Host.Outcome.next _ _ _

theorem exec_callCcNn (cc : Cond) (nn : Word) :
    exec (.callCcNn cc nn) s = if s.holds cc then exec (.callNn nn) s else .next s := apply_ite Host.Outcome.next _ _ _

/-- RET cc tests in an M-cycle of its own. -/
theorem exec_retCc (cc : Cond) :
    exec (.retCc cc) s = if s.holds cc then exec .ret s.cycle else .next s.cycle := rfl

end State

open State

/-! ## The instructions -/

/-- Settles O25: each form sets PC, one M-cycle on but for JP HL; the conditional forms do it or do nothing. -/
theorem jumps : Obligations.Jumps := by
  refine ⟨fun _ => ⟨rfl, rfl, rfl, rfl⟩, fun lo hi => ?jpBytes, fun nn s => ⟨_, rfl, jumped_setPc_internal nn⟩,
    fun cc => ⟨fun lo hi => ?jpCcBytes, fun nn s => ?jpCc⟩, ⟨?hlBytes, fun s => ⟨_, rfl, rfl, onlyCpu_zero _⟩⟩,
    fun e => ⟨?jrBytes, fun s => completes_jrE e⟩, fun cc e => ⟨?jrCcBytes, fun s => ?jrCc⟩⟩
  case jpCc =>
    rw [exec_jpCcNn]
    exact completes_ite ⟨_, rfl, jumped_setPc_internal nn⟩ ⟨_, rfl, jumped_cycles 0⟩
  case jrCc =>
    rw [exec_jrCcE]
    exact completes_ite (completes_jrE e) ⟨_, rfl, jumped_cycles 0⟩
  case jpBytes => exact encodes_of_encode (withImmediate16_append _ lo hi) rfl nofun
  case jpCcBytes => exact encodes_op8_immediate16 rfl rfl nofun (by omega)
  case jrCcBytes => exact encodes_of_encode (congrArg ([·, e]) (opcode_eq_op8 (by omega))) rfl nofun
  case hlBytes | jrBytes => exact encodes_of_encode rfl rfl nofun

/-- Settles O26: each form pushes PC after an M-cycle and then sets it; CALL cc,nn does it or does nothing. -/
theorem calls : Obligations.Calls := by
  refine ⟨fun lo hi => ?callBytes, fun nn s => ⟨_, rfl, called_push16_setPc nn⟩,
    fun cc => ⟨fun lo hi => ?callCcBytes, fun nn s => ?callCc⟩,
    fun y => ⟨?rstBytes, fun s => ⟨_, rfl, called_push16_setPc _⟩⟩⟩
  case callCc =>
    rw [exec_callCcNn]
    exact completes_ite ⟨_, rfl, called_push16_setPc nn⟩ ⟨_, rfl, jumped_cycles 0⟩
  case callBytes => exact encodes_of_encode (withImmediate16_append _ lo hi) rfl nofun
  case callCcBytes => exact encodes_op8_immediate16 rfl rfl nofun (by omega)
  case rstBytes => exact encodes_op8 rfl rfl nofun (by omega)

/-- Settles O27: each form pops PC and passes an M-cycle; RET cc does it one M-cycle later, or only passes that. -/
theorem returns : Obligations.Returns := by
  refine ⟨⟨?_, fun s => ⟨_, exec_ret_eq, rfl, onlyCpu_setCpu 3 _⟩⟩, fun cc => ⟨?retCcBytes, fun s => ?retCc⟩,
    ⟨?_, fun s => ⟨_, congrArg Host.Outcome.next returnFromInterrupt_eq, rfl, onlyCpu_setCpu 3 _⟩⟩,
    fun s t hdma hsp ht => ?blocked⟩
  case retCc =>
    rw [exec_retCc, exec_ret_eq, cycles_cycle, cycle_cpu]
    exact completes_ite ⟨_, rfl, rfl, onlyCpu_setCpu 4 _⟩ ⟨_, rfl, jumped_cycles 1⟩
  case blocked =>
    obtain rfl := Host.Outcome.next.inj (exec_ret_eq.symm.trans ht)
    exact popped_blocked hdma hsp
  case retCcBytes => exact encodes_op8 rfl rfl nofun (by omega)
  all_goals exact encodes_of_encode rfl rfl nofun

end Sys2Proof.Machine

/-! # System instructions -/

namespace Sys2Proof.Machine

open State

/-- Settles O28: NOP leaves the state as it is, DI is one update of the CPU. -/
theorem nopAndDi : Obligations.NopAndDi := by
  refine ⟨⟨?_, fun s => ⟨_, rfl, jumped_cycles 0⟩⟩, ?_, fun s => ⟨_, rfl, rfl, onlyCpu_zero _⟩⟩
  all_goals exact encodes_of_encode rfl rfl nofun

/-! ## The prefix -/

section
variable (y : Nat) {z : Nat} (s : State)

/-- The decoder's row of rotates and shifts on a register is the meaning's row (R157). -/
theorem exec_decodeRotate_of_some {r : Reg8} (h : reg8Of z = some r) :
    exec (decodeRotate y z) s = execRotateReg y r s := by
  unfold decodeRotate
  rw [h]
  match y with
  | 0 | 1 | 2 | 3 | 4 | 5 | 6 | _ + 7 => rfl

/-- The same on the byte at HL. -/
theorem exec_decodeRotate_of_none (h : reg8Of z = none) : exec (decodeRotate y z) s = execRotateHl y s := by
  unfold decodeRotate
  rw [h]
  match y with
  | 0 | 1 | 2 | 3 | 4 | 5 | 6 | _ + 7 => rfl

end

/-- An extended instruction means what its opcode selects: both tables go by quadrant and operand (R157, R366). -/
theorem exec_decodeExtended (xop : Byte) (s : State) : exec (decodeExtended xop) s = execExtended xop s := by
  unfold decodeExtended execExtended
  cases hr : reg8Of (fieldZ xop) with
  | some r =>
    match fieldX xop with
    | 0 => exact exec_decodeRotate_of_some _ s hr
    | 1 | 2 | _ + 3 => rfl
  | none =>
    match fieldX xop with
    | 0 => exact exec_decodeRotate_of_none _ s hr
    | 1 | 2 | _ + 3 => rfl

/-- Settles O34: the prefix fetches one byte in the next M-cycle, and that byte's instruction completes. -/
theorem prefixRunsExtended : Obligations.PrefixRunsExtended := by
  intro s
  obtain ⟨t, ht, -⟩ := exec_updates (.refl (s := s)) .prefixCB
  refine ⟨decodeExtended (s.cycle.memRead s.cpu.pc), t, encodes_cb rfl, ht, ?_⟩
  rw [exec_decodeExtended, ← ht]
  simp only [exec, execPrefixCB, fetch8_eq, cycle_cpu]

namespace State

variable {s : State}

/-! ## The completion rule -/

/-- A faulted machine is left as it is (R400). -/
theorem complete_of_faulted (h : s.cpu.faulted = true) (i : Instr) (armed : Bool) : s.complete i armed = s :=
  if_pos h

/-- The completion rule of R364: DI keeps IME from being set, EI keeps its arming. -/
theorem complete_of_not_faulted (h : s.cpu.faulted = false) (i : Instr) (armed : Bool) :
    s.complete i armed =
      s.setCpu
        { s.cpu with
          ime := s.cpu.ime || (armed && decide (i ≠ .di))
          imePending := s.cpu.imePending && decide (i = .ei) } := by
  rw [complete, if_neg (by simp [h])]
  simp [Bool.or_comm, Bool.and_comm]

/-! ## The fetch of an opcode that stands alone -/

theorem fetchInstr_of_operandCount_eq_zero (h : operandCount (s.memRead s.cpu.pc) = 0) :
    s.fetchInstr =
      ([s.memRead s.cpu.pc],
        s.setCpu
          { s.cpu with
            pc := if s.cpu.haltBug then s.cpu.pc else s.cpu.pc + 1, haltBug := false, opcodeAddr := s.cpu.pc }) := by
  rw [fetchInstr_eq, h, BitVec.add_zero]
  rfl

end State

/-- Settles O31: the step is the instruction followed by the completion rule, and `DriverOr` leaves the CPU. -/
theorem enableInterrupts : Obligations.EnableInterrupts := by
  refine ⟨⟨encodes_of_encode rfl rfl nofun, fun s => ⟨_, rfl, rfl, onlyCpu_zero _⟩⟩, ?_⟩
  intro s i rest t hfetches hdecode hexec hfaulted
  refine ⟨(t.complete i s.cpu.imePending).endCycle, ?_, ?_⟩
  · rw [stepRunsDecoded s i rest hfetches hdecode, hexec]
  · rw [complete_of_not_faulted hfaulted]
    exact ⟨rfl, rfl, rfl⟩

/-! ## The illegal opcodes -/

theorem operandCount_illegal : ∀ op ∈ illegalBytes, operandCount op = 0 := by decide

/-- What O32 says of an illegal opcode leaves one answer: the state in which its fault is raised. -/
theorem eq_raiseIllegal_of_completes {o : Host.Outcome State Fault Refusal} {op : Byte} {s : State}
    (h : Completes o fun t =>
      t.cpu = { s.cpu with faulted := true, faultOp := op, faultPc := s.cpu.opcodeAddr } ∧ OnlyCpu 0 s t) :
    o = .next (s.raiseIllegal op) := by
  obtain ⟨t, rfl, hcpu, hrest⟩ := h
  rw [hrest.machine, hcpu]
  rfl

/-- Each of the eleven bytes is an instruction that raises the fault for that byte (R158, R365). -/
theorem exists_exec_illegal :
    ∀ op ∈ illegalBytes, ∃ i, Encodes [op] i ∧ ∀ s, exec i s = .next (s.raiseIllegal op) :=
  List.forall_mem_map (f := Prod.fst) |>.mpr fun (p : Byte × Instr) hp =>
    have ⟨hbytes, hexec⟩ := illegalOpcodes p hp
    ⟨p.2, hbytes, fun s => eq_raiseIllegal_of_completes (hexec s)⟩

/-- A faulted machine takes no step (R400). -/
theorem step_of_faulted {s : State} (h : s.cpu.faulted = true) :
    step s = .fault (.illegalOpcode s.cpu.faultOp s.cpu.faultPc) := if_pos h

/-- The step that fetches an illegal opcode: the M-cycle of the fetch, PC past the byte, and the latch. -/
theorem step_of_illegal {s : State} (hfetches : s.fetches = true)
    (hop : s.atFetch.memRead s.cpu.pc ∈ illegalBytes) :
    step s =
      .next (s.beginCycle.endCycle.setCpu
        { s.cpu with
          halted := false, stopped := false, haltBug := false
          pc := if s.cpu.haltBug then s.cpu.pc else s.cpu.pc + 1
          faulted := true, faultOp := s.atFetch.memRead s.cpu.pc, faultPc := s.cpu.pc, opcodeAddr := s.cpu.pc }) := by
  have hpc : s.atFetch.cpu.pc = s.cpu.pc := by rw [atFetch_cpu]
  obtain ⟨i, hbytes, hexec⟩ := exists_exec_illegal _ hop
  have hfetch := fetchInstr_of_operandCount_eq_zero (s := s.atFetch) (by rw [hpc]; exact operandCount_illegal _ hop)
  rw [hpc] at hfetch
  rw [stepRunsDecoded s i [] hfetches (by rw [hfetch]; exact hbytes []), hexec, hfetch]
  dsimp only
  rw [complete_of_faulted rfl]
  simp [atFetch]

/-- Settles O33: all that is claimed of the next state is read off it, and with its latch set it takes no step. -/
theorem illegalOpcodeStops : Obligations.IllegalOpcodeStops := fun _ hfetches hop =>
  ⟨_, step_of_illegal hfetches hop, rfl, rfl, rfl, rfl, rfl, rfl, step_of_faulted rfl⟩

end Sys2Proof.Machine

/-! # Interrupts -/

namespace Sys2Proof.Machine

/-! ## The winner (R411, R412) -/

theorem Irq.bit_lt (w : Irq) : w.bit < 5 := by cases w <;> decide

/-- The vectors stand eight bytes apart, in the order of the bits (R32, R410). -/
theorem Irq.vector_eq (w : Irq) : w.vector = BitVec.ofNat 16 (0x40 + 8 * w.bit) := by cases w <;> rfl

theorem winnerOf_eq_some_iff (pend : BitVec 5) (w : Irq) :
    winnerOf pend = some w ↔ pend.getLsbD w.bit = true ∧ ∀ j < w.bit, pend.getLsbD j = false := by
  revert pend
  cases w <;> decide

theorem winnerOf_eq_none_iff (pend : BitVec 5) : winnerOf pend = none ↔ pend = 0 := by
  revert pend
  decide

namespace State

variable {s : State} {w : Irq}

theorem pend_getLsbD (s : State) {i : Nat} (hi : i < 5) :
    s.pend.getLsbD i = (s.intEnable.getLsbD i && s.intFlag.getLsbD i) := by
  simp [pend, hi]

/-- The winner's bit of IE and IF is set, and that of no source before it (R412). -/
theorem winnerOf_pend_eq_some_iff :
    winnerOf s.pend = some w ↔
      s.intEnable.getLsbD w.bit = true ∧ s.intFlag.getLsbD w.bit = true ∧
        ∀ j, j < w.bit → ¬(s.intEnable.getLsbD j = true ∧ s.intFlag.getLsbD j = true) := by
  have hlower : (∀ j < w.bit, s.pend.getLsbD j = false) ↔
      ∀ j < w.bit, ¬(s.intEnable.getLsbD j = true ∧ s.intFlag.getLsbD j = true) :=
    forall₂_congr fun j hj => by
      rw [s.pend_getLsbD (hj.trans w.bit_lt), ← Bool.and_eq_true, Bool.not_eq_true]
  rw [winnerOf_eq_some_iff, hlower, s.pend_getLsbD w.bit_lt, Bool.and_eq_true, and_assoc]

theorem interrupt_eq_some_iff : s.interrupt = some w ↔ s.cpu.ime = true ∧ winnerOf s.pend = some w := by
  cases h : s.cpu.ime <;> simp [interrupt, h]

theorem interrupt_eq_none_iff : s.interrupt = none ↔ ¬(s.cpu.ime = true ∧ s.Pending) := by
  rw [← s.pend_ne_zero_iff, ne_eq, ← winnerOf_eq_none_iff]
  cases h : s.cpu.ime <;> simp [interrupt, h]

/-! ## The sampling point (R420, R421) -/

theorem atFetch_eq (s : State) :
    s.atFetch = s.beginCycle.setCpu { s.cpu with halted := false, stopped := false } := by
  simp [atFetch]

theorem pending_beginCycle_iff : s.beginCycle.Pending ↔ s.Pending := by
  simp only [Pending, beginCycle_intEnable, beginCycle_intFlag]

/-- Waking changes neither what is pending nor IME. -/
theorem interrupt_atFetch (s : State) : s.atFetch.interrupt = s.interrupt := by
  simp [interrupt, atFetch_eq, pend, beginCycle_intFlag]

/-- The test of `step` for an idle M-cycle (R421). -/
theorem idles_iff :
    ((s.cpu.halted || s.cpu.stopped) && s.beginCycle.pend == 0) = true ↔
      (s.cpu.halted = true ∨ s.cpu.stopped = true) ∧ ¬s.beginCycle.Pending := by
  rw [← pend_ne_zero_iff, not_not, Bool.and_eq_true, Bool.or_eq_true, beq_iff_eq]

theorem step_of_idle (hf : s.cpu.faulted = false)
    (hidle : (s.cpu.halted = true ∨ s.cpu.stopped = true) ∧ ¬s.beginCycle.Pending) :
    step s = .next s.beginCycle.endCycle := by
  simp only [step, hf, Bool.false_eq_true, if_false, beginCycle_cpu, idles_iff.mpr hidle, if_true]

theorem step_of_interrupt (hf : s.cpu.faulted = false) (hirq : s.interrupt = some w) :
    step s = .next (s.atFetch.dispatch w).endCycle := by
  have hsome : s.interrupt ≠ none := by rw [hirq]; exact nofun
  have hpending : s.beginCycle.Pending :=
    pending_beginCycle_iff.mpr (not_not.mp (interrupt_eq_none_iff.not.mp hsome)).2
  have hidle : ¬((s.cpu.halted || s.cpu.stopped) && s.beginCycle.pend == 0) = true := fun h =>
    (idles_iff.mp h).2 hpending
  have hwoken : s.beginCycle.wake.interrupt = some w := (interrupt_atFetch s).trans hirq
  simp only [step, hf, Bool.false_eq_true, if_false, beginCycle_cpu, hidle, hwoken, atFetch]

theorem fetches_iff :
    s.fetches = true ↔
      s.cpu.faulted = false ∧ ¬((s.cpu.halted = true ∨ s.cpu.stopped = true) ∧ ¬s.beginCycle.Pending) ∧
        s.interrupt = none := by
  have hready : (!(s.cpu.halted || s.cpu.stopped) || s.beginCycle.pend != 0) = true ↔
      ¬((s.cpu.halted = true ∨ s.cpu.stopped = true) ∧ ¬s.beginCycle.Pending) := by
    rw [← idles_iff, bne, ← Bool.not_and, Bool.not_eq_true', Bool.not_eq_true]
  have hirq : s.beginCycle.interrupt = s.interrupt := interrupt_atFetch s
  simp only [fetches, Bool.and_eq_true, Bool.not_eq_true', hready, hirq, Option.isNone_iff_eq_none, and_assoc]

end State

open State

/-- Settles O37: the three cases of the sampling point, each one of the lemmas on `step` and `fetches`. -/
theorem samplingPoint : Obligations.SamplingPoint := by
  intro s hf waiting s1
  refine ⟨fun hidle => ⟨_, step_of_idle hf hidle, rfl, beginCycle_cpu s⟩, fun hirq => ?_, fun ⟨hidle, hirq⟩ => ?_⟩
  · obtain ⟨w, hw⟩ : ∃ w, s.interrupt = some w := by
      rw [← Option.ne_none_iff_exists', ne_eq, interrupt_eq_none_iff, not_not]
      exact ⟨hirq.1, pending_beginCycle_iff.mp hirq.2⟩
    exact ⟨w, step_of_interrupt hf hw, winnerOf_pend_eq_some_iff.mp (interrupt_eq_some_iff.mp hw).2⟩
  · rw [pending_beginCycle_iff] at hirq
    exact ⟨fetches_iff.mpr ⟨hf, hidle, interrupt_eq_none_iff.mpr hirq⟩, atFetch_eq s⟩

/-! ## Taking an interrupt (R423, R424) -/

namespace State

variable {s : State} {w : Irq}

theorem push16_setCpu (v : Word) {c : Cpu} (hsp : c.sp = s.cpu.sp) :
    (s.setCpu c).push16 v = (s.push16 v).setCpu { c with sp := s.cpu.sp - 2 } := by
  have htwo : s.cpu.sp - 1 - 1 = s.cpu.sp - 2 := by bv_omega
  simp only [push16_eq, setCpu_cpu, hsp, cycle_setCpu, memWrite_setCpu, setCpu_setCpu, htwo]

/-- The machine after the pushes of a dispatch from `s`: the check of R423 is made here. -/
def afterPushes (s : State) : State := s.cycle.push16 s.cpu.pc

theorem dispatch_eq (s : State) (w : Irq) :
    s.dispatch w =
      ((s.afterPushes.setCpu { s.cpu with imePending := false, sp := s.cpu.sp - 2 }).decideDispatch w).cycle := by
  simp only [dispatch, internal, setImePending_eq, cycle_setCpu, setCpu_cpu, afterPushes]
  rw [push16_setCpu _ (by rw [cycle_cpu]), cycle_cpu]

/-- The check after the pushes, passed: with the CPU's registers at `c`. -/
theorem decideDispatch_taken (c : Cpu) (h : s.pend.getLsbD w.bit = true) :
    (s.setCpu c).decideDispatch w =
      State.setCpu { s with intFlag := s.intFlag &&& ~~~(1#5 <<< w.bit) }
        { c with ime := false, pc := BitVec.ofNat 16 (0x40 + 8 * w.bit) } := by
  rw [decideDispatch, pend_setCpu, if_pos h, ← w.vector_eq]
  rfl

theorem decideDispatch_cancelled (c : Cpu) (h : ¬s.pend.getLsbD w.bit = true) :
    (s.setCpu c).decideDispatch w = s.setCpu { c with pc := 0x0000 } := by
  rw [decideDispatch, pend_setCpu, if_neg h]
  rfl

theorem dispatch_taken (h : s.afterPushes.pend.getLsbD w.bit = true) :
    s.dispatch w =
      (State.setCpu { s.afterPushes with intFlag := s.afterPushes.intFlag &&& ~~~(1#5 <<< w.bit) }
        { s.cpu with
          imePending := false, sp := s.cpu.sp - 2, ime := false, pc := BitVec.ofNat 16 (0x40 + 8 * w.bit) }).cycle := by
  rw [dispatch_eq, decideDispatch_taken _ h]

theorem dispatch_cancelled (h : ¬s.afterPushes.pend.getLsbD w.bit = true) :
    s.dispatch w =
      (s.afterPushes.setCpu { s.cpu with imePending := false, sp := s.cpu.sp - 2, pc := 0x0000 }).cycle := by
  rw [dispatch_eq, decideDispatch_cancelled _ h]

end State

/-- Settles O38: the winner from `winnerOf`, the dispatch from the two outcomes of the check after the pushes. -/
theorem dispatch : Obligations.Dispatch := by
  refine ⟨fun s w => interrupt_eq_some_iff.trans (and_congr_right fun _ => winnerOf_pend_eq_some_iff), fun s w => ?_⟩
  have hpushed : Pushed s.cycle s.cpu.sp s.cpu.pc s.afterPushes := by
    have h := pushed_push16 (s := s.cycle) s.cpu.pc (s.cycle.push16 s.cpu.pc).cpu
    rwa [setCpu_self, cycle_cpu] at h
  refine ⟨s.afterPushes, hpushed, ?_⟩
  rw [← Bool.and_eq_true, ← pend_getLsbD _ w.bit_lt]
  exact ⟨dispatch_taken, dispatch_cancelled⟩

namespace State

variable {s : State} {w : Irq} {a : Word}

/-! ## What the pushes leave of IE and IF (R424, R515) -/

/-- A byte written to work RAM or high RAM leaves IE and IF. -/
theorem memWrite_ram_interrupts (v : Byte)
    (ha : (∃ i, placeOf a = .wram i) ∨ ∃ i, placeOf a = .hram i) :
    (s.memWrite a v).intEnable = s.intEnable ∧ (s.memWrite a v).intFlag = s.intFlag := by
  obtain ⟨i, h⟩ | ⟨i, h⟩ := ha
  · rw [memWrite_wram v h]; exact ⟨rfl, rfl⟩
  · rw [memWrite_hram v h]; exact ⟨rfl, rfl⟩

/-- `DriverOr` clears no bit of IF, and no other agent writes it (R441). -/
theorem cycle_intFlag_of_set {i : Nat} (h : s.intFlag.getLsbD i = true) : s.cycle.intFlag.getLsbD i = true := by
  rw [cycle, beginCycle_intFlag, endCycle, BitVec.getLsbD_or, h, Bool.true_or]

theorem afterPushes_eq (s : State) :
    s.afterPushes =
      ((s.cycle.cycle.memWrite (s.cpu.sp - 1) (hiByte s.cpu.pc)).cycle.memWrite (s.cpu.sp - 2)
        (loByte s.cpu.pc)).setCpu { s.cpu with sp := s.cpu.sp - 2 } := by
  have htwo : s.cpu.sp - 1 - 1 = s.cpu.sp - 2 := by bv_omega
  rw [afterPushes, push16_eq, cycle_cpu, htwo]

/-- An address of a stack in work RAM or high RAM. -/
theorem placeOf_stack (h : 0xC000 ≤ a.toNat ∧ a.toNat ≤ 0xDFFF ∨ 0xFF80 ≤ a.toNat ∧ a.toNat ≤ 0xFFFE) :
    (∃ i, placeOf a = .wram i) ∨ ∃ i, placeOf a = .hram i :=
  h.imp (fun h => ⟨_, placeOf_eq_wram h.1 h.2⟩) fun h => ⟨_, placeOf_eq_hram h.1 h.2⟩

/-- With the stack in RAM the pushes leave the winner's bits set. -/
theorem afterPushes_pend_of_ram
    (hsp : 0xC002 ≤ s.cpu.sp.toNat ∧ s.cpu.sp.toNat ≤ 0xE000 ∨ 0xFF82 ≤ s.cpu.sp.toNat ∧ s.cpu.sp.toNat ≤ 0xFFFF)
    (he : s.intEnable.getLsbD w.bit = true) (hf : s.intFlag.getLsbD w.bit = true) :
    s.afterPushes.pend.getLsbD w.bit = true := by
  obtain ⟨hhiE, hhiF⟩ := memWrite_ram_interrupts (s := s.cycle.cycle) (hiByte s.cpu.pc)
    (placeOf_stack (a := s.cpu.sp - 1) (by bv_omega))
  obtain ⟨hloE, hloF⟩ := memWrite_ram_interrupts (s := (s.cycle.cycle.memWrite (s.cpu.sp - 1) (hiByte s.cpu.pc)).cycle)
    (loByte s.cpu.pc) (placeOf_stack (a := s.cpu.sp - 2) (by bv_omega))
  rw [pend_getLsbD _ w.bit_lt, Bool.and_eq_true, afterPushes_eq, setCpu_intEnable, setCpu_intFlag, hloE, hloF,
    cycle_intEnable, hhiE, cycle_intEnable, cycle_intEnable]
  refine ⟨he, cycle_intFlag_of_set ?_⟩
  rw [hhiF]
  exact cycle_intFlag_of_set (cycle_intFlag_of_set hf)

/-- With SP at 0x0000 the high byte of PC goes to IE and the low byte to high RAM. -/
theorem afterPushes_of_sp_zero (hsp : s.cpu.sp = 0) :
    s.afterPushes.intEnable = hiByte s.cpu.pc ∧
      (s.intFlag.getLsbD w.bit = true → s.afterPushes.intFlag.getLsbD w.bit = true) := by
  have hhi (t : State) (v : Byte) : t.memWrite (0 - 1) v = { t with intEnable := v } :=
    memWrite_intEnable v (placeOf_eq_intEnable rfl)
  obtain ⟨hloE, hloF⟩ := memWrite_ram_interrupts (s := (s.cycle.cycle.memWrite (0 - 1) (hiByte s.cpu.pc)).cycle)
    (loByte s.cpu.pc) (placeOf_stack (a := 0 - 2) (by decide))
  rw [afterPushes_eq, hsp, setCpu_intEnable, setCpu_intFlag, hloE, hloF, cycle_intEnable, hhi]
  exact ⟨rfl, fun hf => cycle_intFlag_of_set (cycle_intFlag_of_set (cycle_intFlag_of_set hf))⟩

end State

theorem hiByte_eq (v : Word) : hiByte v = (v >>> 8).setWidth 8 := by
  apply BitVec.eq_of_getLsbD_eq
  intro i hi
  simp [hiByte, hi]

/-- Settles O39: whether the pushes leave the winner's bit of IE and IF set decides the dispatch. -/
theorem dispatchCancellation : Obligations.DispatchCancellation := by
  intro s w he hf
  refine ⟨fun hsp => ?_, fun hsp => ?_⟩
  · rw [dispatch_taken (afterPushes_pend_of_ram hsp he hf), cycle_cpu]
    rfl
  · obtain ⟨hE, hF⟩ := afterPushes_of_sp_zero (w := w) hsp
    have hpend : s.afterPushes.pend.getLsbD w.bit = (s.cpu.pc >>> 8).getLsbD w.bit := by
      rw [pend_getLsbD _ w.bit_lt, hE, hF hf, Bool.and_true, hiByte_eq]
      simp [w.bit_lt.trans (by decide : 5 < 8)]
    rw [← hiByte_eq, ← hpend]
    by_cases hbit : s.afterPushes.pend.getLsbD w.bit = true
    · rw [dispatch_taken hbit, cycle_intEnable, cycle_cpu, setCpu_intEnable, setCpu_cpu]
      exact ⟨hE, by simp [hsp], fun h => by simp [hbit] at h, fun _ => ⟨rfl, rfl⟩⟩
    · rw [dispatch_cancelled hbit, cycle_intEnable, cycle_cpu, setCpu_intEnable, setCpu_cpu]
      exact ⟨hE, by simp [hsp], fun _ => ⟨rfl, rfl⟩, fun h => absurd h hbit⟩

end Sys2Proof.Machine

/-! # Faults -/

namespace Sys2Proof.Machine

open State

/-- What is fetched decodes, and every instruction completes. -/
theorem exists_step_of_fetches {s : State} (h : s.fetches = true) : ∃ t, step s = .next t := by
  obtain ⟨-, -, -, i, hi⟩ := fetchReadsBytes s.atFetch
  obtain ⟨u, hu, -⟩ := exec_updates (.refl (s := s.atFetch.fetchInstr.2)) i
  exact ⟨(u.complete i s.cpu.imePending).endCycle, by rw [stepRunsDecoded s i [] h hi, hu]⟩

/-- A machine that has not faulted takes a step, whichever of the three the sampling point chooses (R420). -/
theorem exists_step {s : State} (hf : s.cpu.faulted = false) : ∃ t, step s = .next t := by
  by_cases hidle : (s.cpu.halted = true ∨ s.cpu.stopped = true) ∧ ¬s.beginCycle.Pending
  · exact ⟨_, step_of_idle hf hidle⟩
  · cases hirq : s.interrupt with
    | some w => exact ⟨_, step_of_interrupt hf hirq⟩
    | none => exact exists_step_of_fetches (fetches_iff.mpr ⟨hf, hidle, hirq⟩)

/-- Of the instructions only the eleven illegal opcodes set the fault latch, and each is one byte (R158). -/
theorem latchesAfter_faulted {s : State} {i : Instr} (hf : s.cpu.faulted = false)
    (h : (s.latchesAfter i).faulted = true) : ∃ op ∈ illegalBytes, encode i = [op] := by
  unfold latchesAfter at h
  split at h
  case h_2 => split at h <;> simp [hf] at h
  case h_1 | h_3 | h_4 | h_5 | h_17 => simp [hf] at h
  all_goals exact ⟨_, by decide, rfl⟩

theorem complete_faulted (s : State) (i : Instr) (armed : Bool) :
    (s.complete i armed).cpu.faulted = s.cpu.faulted := by
  unfold State.complete
  split <;> rfl

theorem dispatch_faulted (s : State) (w : Irq) : (s.dispatch w).cpu.faulted = s.cpu.faulted := by
  by_cases h : s.afterPushes.pend.getLsbD w.bit = true
  · rw [dispatch_taken h, cycle_cpu]; rfl
  · rw [dispatch_cancelled h, cycle_cpu]; rfl

/-- A step that sets the latch has fetched an illegal opcode (R400). -/
theorem illegal_of_faulted {s t : State} (h : step s = .next t) (ht : t.cpu.faulted = true) :
    s.fetches = true ∧ s.atFetch.memRead s.cpu.pc ∈ illegalBytes := by
  obtain ⟨hf, ⟨-, -, rfl⟩ | ⟨w, -, rfl⟩ | ⟨i, u, hfetches, hdecode, hexec, rfl⟩⟩ := step_cases h
  · rw [endCycle_cpu, beginCycle_cpu, hf] at ht
    cases ht
  · rw [endCycle_cpu, dispatch_faulted, atFetch_cpu, hf] at ht
    cases ht
  · rw [endCycle_cpu, complete_faulted, ((exec_latched i _).holds hexec).faulted] at ht
    obtain ⟨op, hop, hencode⟩ := latchesAfter_faulted (by rw [fetched_cpu]; exact hf) ht
    have hbytes := (encodeDecode _ _ _ hdecode).1
    rw [hencode, fetchInstr_eq, atFetch_cpu] at hbytes
    obtain rfl : op = s.atFetch.memRead s.cpu.pc := (List.cons.inj hbytes).1
    exact ⟨hfetches, hop⟩

/-- Settles O58: a machine that has not faulted takes a step, and the step that sets the latch is the one of
`step_of_illegal`. -/
theorem faultOnlyByIllegalOpcode : Obligations.FaultOnlyByIllegalOpcode := by
  refine fun s => ⟨step_of_faulted, fun hf => ?_⟩
  obtain ⟨t, ht⟩ := exists_step hf
  refine ⟨t, ht, fun hfault => ?_⟩
  obtain ⟨hfetches, hop⟩ := illegal_of_faulted ht hfault
  rw [step_of_illegal hfetches hop] at ht
  cases ht
  exact ⟨hfetches, hop, rfl, rfl⟩

end Sys2Proof.Machine

/-! # The other agents and the driver -/

namespace Sys2Proof.Machine

namespace State

variable (s : State)

/-- An idle DMA controller leaves OAM in a whole M-cycle too (R104). -/
theorem cycle_oam_of_idle (h : s.dma.counter = 0) : s.cycle.oam = s.oam := beginCycle_oam_of_idle s.endCycle h

/-- The request outputs by their bits of IF (R33, R34). -/
def request (s : State) : Nat → Bool
  | 0 => s.ppu.vblankReq
  | 1 => s.ppu.statReq
  | 2 => s.timer.req
  | _ => false

/-- `DriverOr` takes the request outputs into IF and clears no bit of it (R441). -/
theorem endCycle_intFlag_getLsbD (i : Nat) :
    s.endCycle.intFlag.getLsbD i = (s.intFlag.getLsbD i || s.request i) := by
  rw [endCycle, BitVec.getLsbD_or]
  congr 1
  match i with
  | 0 | 1 | 2 =>
    simp only [request]
    cases s.timer.req <;> cases s.ppu.statReq <;> cases s.ppu.vblankReq <;> rfl
  | i + 3 => simp [request]

end State

/-- Settles O40: what each agent leaves, and the bits that `DriverOr` sets. -/
theorem agentsAndDriver : Obligations.AgentsAndDriver := by
  refine ⟨fun s => ?_, fun s => ?_⟩
  · simp only [State.cycle_cpu, State.cycle_intEnable, State.cycle_key1, State.cycle_ctrlA, State.cycle_ctrlB,
      State.cycle_io, State.cycle_vram, State.cycle_wram, State.cycle_hram, State.cycle_xram, true_and]
    exact s.cycle_oam_of_idle
  · simp only [s.endCycle_intFlag_getLsbD, State.request, Bool.or_false, true_and]
    rfl

end Sys2Proof.Machine

/-! # The interval timer -/

namespace Sys2Proof.Machine

namespace Timer

variable (t : Timer) (new : Word)

/-- The watched bit falls while the timer is enabled, so that TIMA ticks (R461). -/
def falls : Bool := t.enable && t.counter.getLsbD t.selBit && !new.getLsbD t.selBit

/-- A new value of the counter ticks TIMA where the watched bit falls; the overflow requests the interrupt and arms the
reload (R460 to R463). -/
theorem setCounter_eq :
    t.setCounter new =
      { t with
        counter := new
        tima := if t.falls new then t.tima + 1 else t.tima
        req := t.req || (t.falls new && decide (t.tima = 0xFF))
        reloadPending := t.reloadPending || (t.falls new && decide (t.tima = 0xFF)) } := by
  show (if t.falls new then Timer.incTima { t with counter := new } else { t with counter := new }) = _
  cases t.falls new
  case false => simp
  case true =>
    by_cases h : t.tima = 0xFF#8
    · simp [incTima, h]
    · simp [incTima, if_neg h, decide_eq_false h]

theorem reload_eq :
    t.reload = { t with tima := if t.reloadPending then t.tma else t.tima, reloadPending := false } := by
  by_cases h : t.reloadPending = true
  · simp only [reload, h, if_true]
  · rw [reload, if_neg h, if_neg h, ← eq_false_of_ne_true h]

/-- The step: the delayed reload first, then the counter moves by 4 (R460, R464). -/
theorem tick_eq :
    t.tick =
      Timer.setCounter
        { t with tima := if t.reloadPending then t.tma else t.tima, reloadPending := false } (t.counter + 4) := by
  simp only [tick, reload_eq]

theorem tac_select_lt : t.tac.toNat % 4 < 4 := Nat.mod_lt _ (by decide)

/-- The bit that TAC selects (R461). -/
theorem selBit_eq : t.selBit = [9, 3, 5, 7].getD (t.tac.toNat % 4) 0 := by
  have hsel : (t.tac.extractLsb' 0 2).toNat = t.tac.toNat % 4 := by simp
  rw [selBit, hsel]
  match t.tac.toNat % 4, t.tac_select_lt with
  | 0, _ | 1, _ | 2, _ | 3, _ => rfl

/-- The falling edge in numbers (R461). -/
theorem falls_eq :
    t.falls new =
      (t.tac.getLsbD 2 &&
        (decide (t.counter.toNat / 2 ^ t.selBit % 2 = 1) && decide (new.toNat / 2 ^ t.selBit % 2 = 0))) := by
  simp only [falls, enable, BitVec.getLsbD, Nat.testBit_eq_decide_div_mod_eq, Bool.and_assoc]
  rw [← decide_not]
  simp

theorem toNat_ite_add_one (c : Bool) (v : Byte) :
    (if c then v + 1 else v).toNat = if c then (v.toNat + 1) % 256 else v.toNat := by
  cases c <;> simp

end Timer

theorem hiByte_toNat (v : Word) : (hiByte v).toNat = v.toNat / 256 := by
  have hlt : v.toNat / 256 < 256 := by omega
  simp [hiByte, BitVec.extractLsb'_toNat, Nat.shiftRight_eq_div_pow, Nat.mod_eq_of_lt hlt]

/-- Settles O41: a tick and a write of DIV are a new value of the counter, the tick after the reload; the rest is what
each register's write does. -/
theorem timerTick : Obligations.TimerTick := by
  refine ⟨?_, fun s v => ⟨s.beginCycle_timer, rfl, rfl, rfl, rfl, hiByte_toNat s.timer.counter⟩⟩
  intro t sel ticks after
  have hticks (new : Word) : ticks new = t.falls new := by rw [t.falls_eq, t.selBit_eq]
  have hset (u : Timer) (new : Word) (hu : u = { t with tima := u.tima, reloadPending := u.reloadPending }) :
      after (u.setCounter new) u.tima u.reloadPending new := by
    have hfalls : u.falls new = t.falls new := by rw [hu]; rfl
    have hreq : u.req = t.req := by rw [hu]
    simp only [after, hticks, u.setCounter_eq, hfalls, hreq, Timer.toNat_ite_add_one, true_and, and_self, and_true]
    rw [hu]
    exact ⟨rfl, rfl⟩
  refine ⟨?_, fun v => hset t _ rfl⟩
  rw [t.tick_eq]
  exact hset { t with tima := if t.reloadPending then t.tma else t.tima, reloadPending := false } _ rfl

/-! ## The rate of the timer (R461) -/

namespace Timer

variable {t : Timer}

/-- The M-cycles in which TIMA counts one. -/
def period (t : Timer) : Nat := [256, 4, 16, 64].getD (t.tac.toNat % 4) 0

/-- The watched bit and the period it makes: 2^(bit + 1) steps of the counter, 4 in each M-cycle. -/
theorem selBit_period_cases (t : Timer) :
    (t.selBit = 9 ∧ t.period = 256) ∨ (t.selBit = 3 ∧ t.period = 4) ∨ (t.selBit = 5 ∧ t.period = 16) ∨
      (t.selBit = 7 ∧ t.period = 64) := by
  rw [selBit_eq, period]
  match t.tac.toNat % 4, t.tac_select_lt with
  | 0, _ | 1, _ | 2, _ | 3, _ => decide

/-- In a step of an enabled timer the watched bit falls where the counter ends a period. -/
theorem falls_add_four_iff (he : t.enable = true) :
    t.falls (t.counter + 4) = true ↔ 4 * t.period ≤ t.counter.toNat % (4 * t.period) + 4 := by
  have hnew : (t.counter + 4).toNat = (t.counter.toNat + 4) % 65536 := BitVec.toNat_add ..
  rw [enable] at he
  rw [falls_eq, he, hnew, Bool.true_and, Bool.and_eq_true, decide_eq_true_eq, decide_eq_true_eq]
  obtain ⟨hs, hp⟩ | ⟨hs, hp⟩ | ⟨hs, hp⟩ | ⟨hs, hp⟩ := t.selBit_period_cases <;> rw [hs, hp] <;> omega

/-- How often TIMA ticks in `k` M-cycles. -/
def ticksIn (t : Timer) (k : Nat) : Nat := (t.counter.toNat % (4 * t.period) + 4 * k) / (4 * t.period)

/-- The counter of `u` is that of `t` moved on by `k` M-cycles, with the same period; one more M-cycle adds a tick where
the counter ends a period. -/
theorem ticksIn_succ {u : Timer} {k : Nat} (htac : u.tac = t.tac)
    (hc : u.counter.toNat = (t.counter.toNat + 4 * k) % 65536) :
    t.ticksIn (k + 1) =
      t.ticksIn k + if 4 * u.period ≤ u.counter.toNat % (4 * u.period) + 4 then 1 else 0 := by
  have hperiod : u.period = t.period := by rw [period, htac]; rfl
  simp only [ticksIn, hperiod, hc]
  obtain ⟨-, hp⟩ | ⟨-, hp⟩ | ⟨-, hp⟩ | ⟨-, hp⟩ := t.selBit_period_cases <;> rw [hp] <;> split <;> omega

/-- `u` is `t` after `k` M-cycles in which TIMA did not overflow. -/
structure RunFrom (t : Timer) (k : Nat) (u : Timer) : Prop where
  tac : u.tac = t.tac
  counter : u.counter.toNat = (t.counter.toNat + 4 * k) % 65536
  tima : u.tima.toNat = t.tima.toNat + t.ticksIn k
  reloadPending : u.reloadPending = false

/-- A step of a timer that has no reload pending. -/
theorem tick_of_not_pending (u : Timer) (h : u.reloadPending = false) : u.tick = u.setCounter (u.counter + 4) := by
  simp only [tick, reload, h, Bool.false_eq_true, if_false]

/-- One more M-cycle: TIMA counts one more tick where the watched bit falls, and stays below its overflow. -/
theorem RunFrom.tick {k : Nat} {u : Timer} (h : t.RunFrom k u) (he : t.enable = true)
    (hmax : t.tima.toNat + t.ticksIn (k + 1) ≤ 255) : t.RunFrom (k + 1) u.tick := by
  have hfalls : (u.falls (u.counter + 4) = true ↔ _) := falls_add_four_iff (by rw [enable, h.tac]; exact he)
  have hticks := ticksIn_succ h.tac h.counter
  have hcounter : (u.counter + 4).toNat = (t.counter.toNat + 4 * (k + 1)) % 65536 := by
    have hadd : (u.counter + 4).toNat = (u.counter.toNat + 4) % 65536 := BitVec.toNat_add ..
    rw [hadd, h.counter]
    omega
  have htima := h.tima
  rw [tick_of_not_pending u h.reloadPending, setCounter_eq]
  by_cases hf : u.falls (u.counter + 4) = true
  · rw [if_pos (hfalls.mp hf)] at hticks
    have hlt : u.tima.toNat < 255 := by omega
    have hne : u.tima ≠ 0xFF := fun hfull => absurd (hfull ▸ hlt) (by decide)
    have hadd : (u.tima + 1).toNat = u.tima.toNat + 1 := by bv_omega
    have hpending : (u.reloadPending || (u.falls (u.counter + 4) && decide (u.tima = 0xFF))) = false := by
      rw [h.reloadPending, decide_eq_false hne, Bool.and_false, Bool.or_false]
    refine ⟨h.tac, hcounter, ?_, hpending⟩
    rw [if_pos hf, hadd, htima, hticks, Nat.add_assoc]
  · rw [if_neg (hfalls.not.mp hf)] at hticks
    have hpending : (u.reloadPending || (u.falls (u.counter + 4) && decide (u.tima = 0xFF))) = false := by
      rw [h.reloadPending, eq_false_of_ne_true hf, Bool.false_and, Bool.or_false]
    refine ⟨h.tac, hcounter, ?_, hpending⟩
    rw [if_neg hf, htima, hticks, Nat.add_zero]

theorem ticksIn_le_succ (t : Timer) (k : Nat) : t.ticksIn k ≤ t.ticksIn (k + 1) := Nat.div_le_div_right (by omega)

end Timer

/-- The timer's part of an M-cycle: the driver takes the request output, then the timer steps (R440, R441). -/
theorem State.cycle_timer (s : State) : s.cycle.timer = Timer.tick { s.timer with req := false } :=
  s.endCycle.beginCycle_timer

/-- The timer after `k` M-cycles, as long as TIMA does not overflow. -/
theorem State.cycles_timer_runFrom {s : State} (he : s.timer.enable = true) (hp : s.timer.reloadPending = false)
    (k : Nat) (hmax : s.timer.tima.toNat + s.timer.ticksIn k ≤ 255) : s.timer.RunFrom k (s.cycles k).timer := by
  induction k with
  | zero =>
    have hcounter := s.timer.counter.isLt
    have hnone : s.timer.ticksIn 0 = 0 := by
      obtain ⟨-, h⟩ | ⟨-, h⟩ | ⟨-, h⟩ | ⟨-, h⟩ := s.timer.selBit_period_cases <;> rw [Timer.ticksIn, h] <;> omega
    exact ⟨rfl, (Nat.mod_eq_of_lt hcounter).symm, by rw [hnone]; rfl, hp⟩
  | succ k ih =>
    have hle := s.timer.ticksIn_le_succ k
    obtain ⟨htac, hcounter, htima, hpending⟩ := ih (by omega)
    have htaken : s.timer.RunFrom k { (s.cycles k).timer with req := false } := ⟨htac, hcounter, htima, hpending⟩
    rw [cycles_succ, cycle_timer]
    exact htaken.tick he hmax

/-- Settles O42: TIMA and the counter of the run. -/
theorem timerRate : Obligations.TimerRate := by
  intro s k he hp period n hmax
  have h := State.cycles_timer_runFrom he hp k hmax
  exact ⟨h.tima, h.counter, h.reloadPending⟩

end Sys2Proof.Machine

/-! # The modes of the picture unit and its requests -/

namespace Sys2Proof.Machine

namespace Ppu

variable {vram oam : Memory} {sh : Shades} {p : Ppu}

/-! ## The sub-tick that ends a mode (R466 to R468) -/

/-- Event (d) of R467. -/
theorem compareEvent_eq_statReq (p : Ppu) :
    p.compareEvent = { p with statReq := p.statReq || (decide (p.ly = p.lyc) && p.statEnable.getLsbD 3) } := by
  unfold compareEvent
  split <;> simp [statEvent, *]

/-- Rendering writes the framebuffer and the window-line counter. -/
theorem renderLine_eq (p : Ppu) :
    p.renderLine vram oam sh =
      { p with
        framebuffer := (p.renderLine vram oam sh).framebuffer
        windowLine := (p.renderLine vram oam sh).windowLine } := by
  by_cases h : p.ly.toNat < 144
  · rw [renderLine_visible h]
  · rw [renderLine_hidden h]

/-- From OAM-scan to pixel-transfer. -/
theorem subTick_enterTransfer (hm : p.mode = .oamScan) (ht : p.modeTicks = 79) :
    ∃ framebuffer windowLine,
      p.subTick vram oam sh =
        { p with mode := .transfer, modeTicks := 0, framebuffer := framebuffer, windowLine := windowLine } :=
  ⟨_, _, (subTick_endOamScan hm ht).trans (renderLine_eq _)⟩

/-- From pixel-transfer to HBlank. -/
theorem subTick_enterHblank (hm : p.mode = .transfer) (ht : p.modeTicks = 171) :
    p.subTick vram oam sh =
      { p with mode := .hblank, modeTicks := 0, statReq := p.statReq || p.statEnable.getLsbD 0 } :=
  subTick_endTransfer hm ht

/-- From HBlank to the next visible line. -/
theorem subTick_nextLine (hm : p.mode = .hblank) (ht : p.modeTicks = 203) (hly : p.ly + 1 ≠ 144) :
    p.subTick vram oam sh =
      { p with
        mode := .oamScan, modeTicks := 0, ly := p.ly + 1
        statReq :=
          p.statReq || p.statEnable.getLsbD 2 || (decide (p.ly + 1 = p.lyc) && p.statEnable.getLsbD 3) } := by
  simp only [subTick_endHblank hm ht, endHblank, compareEvent_eq_statReq, hly, if_false, statEvent, Bool.or_right_comm]

/-- From HBlank to VBlank. -/
theorem subTick_enterVblank (hm : p.mode = .hblank) (ht : p.modeTicks = 203) (hly : p.ly + 1 = 144) :
    p.subTick vram oam sh =
      { p with
        mode := .vblank, modeTicks := 0, ly := 144, vblankReq := true
        statReq := p.statReq || p.statEnable.getLsbD 1 || (decide (144 = p.lyc) && p.statEnable.getLsbD 3) } := by
  simp only [subTick_endHblank hm ht, endHblank, compareEvent_eq_statReq, hly, if_true, statEvent, Bool.or_right_comm]

/-- From a line of VBlank to the next. -/
theorem subTick_nextVblankLine (hm : p.mode = .vblank) (ht : p.modeTicks = 455) (hly : ¬153 < (p.ly + 1).toNat) :
    p.subTick vram oam sh =
      { p with
        modeTicks := 0, ly := p.ly + 1
        statReq := p.statReq || (decide (p.ly + 1 = p.lyc) && p.statEnable.getLsbD 3) } := by
  simp only [subTick_endVblankLine hm ht, endVblankLine, compareEvent_eq_statReq, hly, if_false]

/-- From VBlank to the next frame (R475). -/
theorem subTick_nextFrame (hm : p.mode = .vblank) (ht : p.modeTicks = 455) (hly : 153 < (p.ly + 1).toNat) :
    p.subTick vram oam sh =
      { p with
        mode := .oamScan, modeTicks := 0, ly := 0, windowLine := 0, frameReady := true
        statReq := p.statReq || p.statEnable.getLsbD 2 || (decide (0 = p.lyc) && p.statEnable.getLsbD 3) } := by
  simp only [subTick_endVblankLine hm ht, endVblankLine, compareEvent_eq_statReq, hly, if_true, statEvent]

/-! ## The requests (R466, R467) -/

theorem readStat_coincidence (p : Ppu) : p.readStat.getLsbD 2 = decide (p.ly = p.lyc) := by
  rw [readStat, BitVec.getLsbD_append]
  simp only [Nat.reduceLT, if_false, Nat.reduceSub, BitVec.getLsbD_append, Nat.zero_lt_one, if_true]
  exact BitVec.getLsbD_ofBool _ 0

end Ppu

/-- Settles O51: a sub-tick only counts, or is one of the six that end a mode or a line of VBlank. -/
theorem ppuRequests : Obligations.PpuRequests := by
  refine ⟨?_, fun s v => ?_, fun s => s.ppu.readStat_coincidence⟩
  · intro vram oam sh p q enters newLine
    have hq : q = p.subTick vram oam sh := rfl
    simp only [enters, newLine]
    by_cases hend : p.modeTicks + 1 = p.mode.length
    · cases hm : p.mode <;> rw [hm] at hend <;> have ht := Nat.succ.inj hend
      case oamScan =>
        obtain ⟨framebuffer, windowLine, h⟩ := Ppu.subTick_enterTransfer (vram := vram) (oam := oam) (sh := sh) hm ht
        rw [hq, h]
        simp
      case transfer =>
        rw [hq, Ppu.subTick_enterHblank hm ht]
        simp
      case hblank =>
        by_cases hly : p.ly + 1 = 144
        · rw [hq, Ppu.subTick_enterVblank hm ht hly]
          simp
        · rw [hq, Ppu.subTick_nextLine hm ht hly]
          simp
      case vblank =>
        by_cases hly : 153 < (p.ly + 1).toNat
        · rw [hq, Ppu.subTick_nextFrame hm ht hly]
          simp
        · rw [hq, Ppu.subTick_nextVblankLine hm ht hly]
          simp [hm]
    · rw [hq, Ppu.subTick_count hend]
      simp
  · simp only [List.forall_mem_cons]
    exact ⟨⟨rfl, rfl⟩, ⟨rfl, rfl⟩, ⟨rfl, rfl⟩, nofun⟩

namespace Ppu

variable {vram oam : Memory} {sh : Shades} {p : Ppu} {mode : PpuMode} {ticks ly n : Nat}

/-! ## The phase (R468, R475) -/

/-- Where the picture unit stands in its frame. -/
structure Stands (p : Ppu) (mode : PpuMode) (ticks ly : Nat) : Prop where
  mode : p.mode = mode
  ticks : p.modeTicks = ticks
  ly : p.ly.toNat = ly

theorem Stands.congr (h : p.Stands mode ticks ly) {ticks' ly' : Nat} (ht : ticks = ticks') (hl : ly = ly') :
    p.Stands mode ticks' ly' := ht ▸ hl ▸ h

/-- The four parts of a frame: OAM-scan, pixel-transfer and HBlank of the visible lines, and VBlank. -/
theorem atPhase_iff :
    p.AtPhase n ↔
      (n / 114 < 144 ∧ n % 114 < 20 ∧ p.Stands .oamScan (4 * (n % 114)) (n / 114)) ∨
        (n / 114 < 144 ∧ 20 ≤ n % 114 ∧ n % 114 < 63 ∧ p.Stands .transfer (4 * (n % 114 - 20)) (n / 114)) ∨
        (n / 114 < 144 ∧ 63 ≤ n % 114 ∧ p.Stands .hblank (4 * (n % 114 - 63)) (n / 114)) ∨
        (144 ≤ n / 114 ∧ p.Stands .vblank (4 * (n % 114)) (n / 114)) := by
  unfold AtPhase
  constructor
  · rintro ⟨hly, h⟩
    split at h
    case isTrue hv =>
      split at h
      case isTrue ho => exact .inl ⟨hv, ho, h.1, h.2, hly⟩
      case isFalse ho =>
        split at h
        case isTrue ht => exact .inr (.inl ⟨hv, Nat.le_of_not_lt ho, ht, h.1, h.2, hly⟩)
        case isFalse ht => exact .inr (.inr (.inl ⟨hv, Nat.le_of_not_lt ht, h.1, h.2, hly⟩))
    case isFalse hv => exact .inr (.inr (.inr ⟨Nat.le_of_not_lt hv, h.1, h.2, hly⟩))
  · rintro (⟨hv, ho, hm, ht, hly⟩ | ⟨hv, ho, hx, hm, ht, hly⟩ | ⟨hv, hx, hm, ht, hly⟩ | ⟨hv, hm, ht, hly⟩)
    · exact ⟨hly, by rw [if_pos hv, if_pos ho]; exact ⟨hm, ht⟩⟩
    · exact ⟨hly, by rw [if_pos hv, if_neg (by omega), if_pos hx]; exact ⟨hm, ht⟩⟩
    · exact ⟨hly, by rw [if_pos hv, if_neg (by omega), if_neg (by omega)]; exact ⟨hm, ht⟩⟩
    · exact ⟨hly, by rw [if_neg (by omega)]; exact ⟨hm, ht⟩⟩

/-! ### One M-cycle, inside a mode and at the end of each -/

/-- An M-cycle from whole M-cycles is its last sub-tick, with the frame-ready output cleared. -/
theorem Stands.tick_eq (h : p.Stands mode ticks ly) (hw : ticks % 4 = 0) (hl : ticks < mode.length) :
    p.tick vram oam sh = { p with frameReady := false, modeTicks := ticks + 3 }.subTick vram oam sh := by
  obtain ⟨rfl, rfl, -⟩ := h
  exact Ppu.tick_eq hl hw

theorem Stands.tick_inside (h : p.Stands mode ticks ly) (hw : ticks % 4 = 0) (hl : ticks + 4 < mode.length) :
    (p.tick vram oam sh).Stands mode (ticks + 4) ly ∧ (p.tick vram oam sh).frameReady = false := by
  rw [h.tick_eq hw (by omega)]
  obtain ⟨rfl, rfl, rfl⟩ := h
  rw [subTick_inside (by exact hl)]
  exact ⟨⟨rfl, rfl, rfl⟩, rfl⟩

theorem Stands.tick_enterTransfer (h : p.Stands .oamScan 76 ly) :
    (p.tick vram oam sh).Stands .transfer 0 ly ∧ (p.tick vram oam sh).frameReady = false := by
  rw [h.tick_eq rfl (by decide)]
  obtain ⟨framebuffer, windowLine, hq⟩ :=
    subTick_enterTransfer (p := { p with frameReady := false, modeTicks := 79 }) (vram := vram) (oam := oam) (sh := sh)
      h.mode rfl
  rw [hq]
  exact ⟨⟨rfl, rfl, h.ly⟩, rfl⟩

theorem Stands.tick_enterHblank (h : p.Stands .transfer 168 ly) :
    (p.tick vram oam sh).Stands .hblank 0 ly ∧ (p.tick vram oam sh).frameReady = false := by
  rw [h.tick_eq rfl (by decide), subTick_enterHblank (by exact h.mode) rfl]
  exact ⟨⟨rfl, rfl, h.ly⟩, rfl⟩

theorem Stands.ly_add_one (h : p.Stands mode ticks ly) (hl : ly < 255) : (p.ly + 1).toNat = ly + 1 := by
  obtain ⟨-, -, rfl⟩ := h
  bv_omega

theorem Stands.tick_nextLine (h : p.Stands .hblank 200 ly) (hl : ly < 143) :
    (p.tick vram oam sh).Stands .oamScan 0 (ly + 1) ∧ (p.tick vram oam sh).frameReady = false := by
  have hly := h.ly_add_one (by omega)
  have hne : p.ly + 1 ≠ 144 := fun he => by rw [he] at hly; simp at hly; omega
  rw [h.tick_eq rfl (by decide), subTick_nextLine (by exact h.mode) rfl (by exact hne)]
  exact ⟨⟨rfl, rfl, hly⟩, rfl⟩

theorem Stands.tick_enterVblank (h : p.Stands .hblank 200 143) :
    (p.tick vram oam sh).Stands .vblank 0 144 ∧ (p.tick vram oam sh).frameReady = false := by
  have he : p.ly + 1 = 144 := BitVec.eq_of_toNat_eq (h.ly_add_one (by decide))
  rw [h.tick_eq rfl (by decide), subTick_enterVblank (by exact h.mode) rfl (by exact he)]
  exact ⟨⟨rfl, rfl, rfl⟩, rfl⟩

theorem Stands.tick_nextVblankLine (h : p.Stands .vblank 452 ly) (hl : ly < 153) :
    (p.tick vram oam sh).Stands .vblank 0 (ly + 1) ∧ (p.tick vram oam sh).frameReady = false := by
  have hly := h.ly_add_one (by omega)
  have hlast : ¬153 < (p.ly + 1).toNat := by omega
  rw [h.tick_eq rfl (by decide), subTick_nextVblankLine (by exact h.mode) rfl (by exact hlast)]
  exact ⟨⟨h.mode, rfl, hly⟩, rfl⟩

theorem Stands.tick_nextFrame (h : p.Stands .vblank 452 153) :
    (p.tick vram oam sh).Stands .oamScan 0 0 ∧ (p.tick vram oam sh).frameReady = true := by
  have hly := h.ly_add_one (by decide)
  have hlast : 153 < (p.ly + 1).toNat := by omega
  rw [h.tick_eq rfl (by decide), subTick_nextFrame (by exact h.mode) rfl (by exact hlast)]
  exact ⟨⟨rfl, rfl, rfl⟩, rfl⟩

/-- One M-cycle further in the frame. -/
theorem AtPhase.tick_succ (h : p.AtPhase n) (hn : n + 1 < 17556) :
    (p.tick vram oam sh).AtPhase (n + 1) ∧ (p.tick vram oam sh).frameReady = false := by
  rw [atPhase_iff] at h ⊢
  obtain ⟨hv, ho, h⟩ | ⟨hv, ho, hx, h⟩ | ⟨hv, hx, h⟩ | ⟨hv, h⟩ := h
  · by_cases hlast : n % 114 = 19
    · refine (h.congr (by omega) rfl).tick_enterTransfer.imp_left fun hq => ?_
      exact .inr (.inl ⟨by omega, by omega, by omega, hq.congr (by omega) (by omega)⟩)
    · refine (h.tick_inside (by omega) (by simp only [PpuMode.length]; omega)).imp_left fun hq => ?_
      exact .inl ⟨by omega, by omega, hq.congr (by omega) (by omega)⟩
  · by_cases hlast : n % 114 = 62
    · refine (h.congr (by omega) rfl).tick_enterHblank.imp_left fun hq => ?_
      exact .inr (.inr (.inl ⟨by omega, by omega, hq.congr (by omega) (by omega)⟩))
    · refine (h.tick_inside (by omega) (by simp only [PpuMode.length]; omega)).imp_left fun hq => ?_
      exact .inr (.inl ⟨by omega, by omega, by omega, hq.congr (by omega) (by omega)⟩)
  · by_cases hlast : n % 114 = 113
    · by_cases hline : n / 114 = 143
      · refine (h.congr (by omega) hline).tick_enterVblank.imp_left fun hq => ?_
        exact .inr (.inr (.inr ⟨by omega, hq.congr (by omega) (by omega)⟩))
      · refine ((h.congr (by omega) rfl).tick_nextLine (by omega)).imp_left fun hq => ?_
        exact .inl ⟨by omega, by omega, hq.congr (by omega) (by omega)⟩
    · refine (h.tick_inside (by omega) (by simp only [PpuMode.length]; omega)).imp_left fun hq => ?_
      exact .inr (.inr (.inl ⟨by omega, by omega, hq.congr (by omega) (by omega)⟩))
  · by_cases hlast : n % 114 = 113
    · refine ((h.congr (by omega) rfl).tick_nextVblankLine (by omega)).imp_left fun hq => ?_
      exact .inr (.inr (.inr ⟨by omega, hq.congr (by omega) (by omega)⟩))
    · refine (h.tick_inside (by omega) (by simp only [PpuMode.length]; omega)).imp_left fun hq => ?_
      exact .inr (.inr (.inr ⟨by omega, hq.congr (by omega) (by omega)⟩))

/-- The last M-cycle of a frame. -/
theorem AtPhase.tick_last (h : p.AtPhase 17555) :
    (p.tick vram oam sh).AtPhase 0 ∧ (p.tick vram oam sh).frameReady = true := by
  rw [atPhase_iff] at h ⊢
  obtain ⟨hv, -⟩ | ⟨hv, -⟩ | ⟨hv, -⟩ | ⟨-, h⟩ := h
  · simp at hv
  · simp at hv
  · simp at hv
  · exact (h.congr rfl rfl).tick_nextFrame.imp_left fun hq => .inl ⟨by decide, by decide, hq⟩

/-- An M-cycle moves the phase by one, modulo the frame, and completes a frame where the phase is 0 again. -/
theorem AtPhase.tick (h : p.AtPhase (n % 17556)) :
    (p.tick vram oam sh).AtPhase ((n + 1) % 17556) ∧
      ((p.tick vram oam sh).frameReady = true ↔ (n + 1) % 17556 = 0) := by
  by_cases hlast : n % 17556 = 17555
  · rw [hlast] at h
    have hzero : (n + 1) % 17556 = 0 := by omega
    rw [hzero]
    exact h.tick_last.imp_right fun hr => iff_of_true hr rfl
  · have hsucc : (n + 1) % 17556 = n % 17556 + 1 := by omega
    rw [hsucc]
    exact (h.tick_succ (by omega)).imp_right fun hr => iff_of_false (by simp [hr]) (by omega)

end Ppu

/-- The picture unit's part of an M-cycle: the driver takes the request outputs, then the picture unit steps. -/
theorem State.cycle_ppu (s : State) :
    s.cycle.ppu =
      Ppu.tick s.vram s.oam s.launch.shades { s.ppu with vblankReq := false, statReq := false } :=
  s.endCycle.beginCycle_ppu

theorem State.cycle_ppu_phase {s : State} {n : Nat} (h : s.ppu.AtPhase (n % 17556)) :
    s.cycle.ppu.AtPhase ((n + 1) % 17556) ∧ (s.cycle.ppu.frameReady = true ↔ (n + 1) % 17556 = 0) := by
  rw [cycle_ppu]
  have htaken : Ppu.AtPhase { s.ppu with vblankReq := false, statReq := false } (n % 17556) := h
  exact htaken.tick

/-- Settles O50, by induction on the M-cycles. -/
theorem ppuPhase : Obligations.PpuPhase := by
  intro s h0 k
  induction k with
  | zero => exact ⟨h0, nofun⟩
  | succ k ih =>
    rw [State.cycles_succ]
    exact (State.cycle_ppu_phase ih.1).imp_right fun h _ => h

end Sys2Proof.Machine

/-! # The compositor -/

namespace Sys2Proof.Machine

namespace Ppu

variable (vram : Memory) (p : Ppu)

/-! ## Background and window (R471, R472) -/

/-- Where a tile's data starts: by unsigned index from 0x8000, or by signed index from 0x9000. -/
theorem tileBase_eq (unsigned : Bool) (t : Byte) :
    (if unsigned then t.toNat * 16 else (0x1000 + t.toInt * 16).toNat) =
      if unsigned = false ∧ t.toNat < 128 then 0x1000 + 16 * t.toNat else 16 * t.toNat := by
  have hlt : t.toNat < 256 := t.isLt
  cases unsigned
  case true => simp [Nat.mul_comm]
  case false =>
    simp only [Bool.false_eq_true, if_false, true_and, BitVec.toInt_eq_toNat_cond]
    split <;> split <;> omega

/-- The bits of a pixel of a tile. -/
theorem tilePixel_getLsbD (t : Byte) (px py : Nat) :
    let base := if p.lcdc.getLsbD 4 = false ∧ t.toNat < 128 then 0x1000 + 16 * t.toNat else 16 * t.toNat
    (p.tilePixel vram t px py).getLsbD 0 = (vram.read (base + 2 * py)).getLsbD (7 - px) ∧
      (p.tilePixel vram t px py).getLsbD 1 = (vram.read (base + 2 * py + 1)).getLsbD (7 - px) := by
  simp only [tilePixel, tileBase_eq, rowPixel_getLsbD_zero, rowPixel_getLsbD_one, and_self]

theorem tileMap_add (select : Bool) (row col : Nat) :
    tileMap select + row / 8 * 32 + col / 8 = (if select then 0x1C00 else 0x1800) + 32 * (row / 8) + col / 8 := by
  rw [tileMap, Nat.mul_comm]

/-- Where the window covers the background (R472, R474). -/
theorem backColour_eq (x y : Nat) :
    p.backColour vram x y =
      if p.lcdc.getLsbD 5 = true ∧ p.lcdc.getLsbD 0 = true ∧ p.wy.toNat ≤ y ∧ p.wx.toNat ≤ 166 ∧ p.wx.toNat ≤ x + 7
      then p.windowColour vram x else p.bgColour vram x y := by
  simp only [backColour, Bool.and_eq_true, windowDrawn_iff, decide_eq_true_eq, and_assoc]

end Ppu

/-- Settles O60: a pixel of the background or the window is a pixel of the tile that its map entry names. -/
theorem backgroundPixels : Obligations.BackgroundPixels := by
  intro vram p pixelOf tileAt mapEntry
  refine ⟨fun t px py _ _ => p.tilePixel_getLsbD vram t px py, fun h x y => ?_, fun h x y => ?_, fun x _ => ?_,
    p.backColour_eq vram⟩
  · simp only [Ppu.bgColour, h, Bool.false_eq_true, if_false]
  · simp only [Ppu.bgColour, h, if_true, Ppu.tileMap_add]
    exact p.tilePixel_getLsbD vram _ _ _
  · simp only [Ppu.windowColour, Ppu.tileMap_add]
    exact p.tilePixel_getLsbD vram _ _ _

/-! ## Colours (R40) -/

/-- The colour that a palette gives a colour number. -/
theorem shadeColour_paletteShade (sh : Shades) (palette : Byte) (c : BitVec 2) :
    shadeColour sh (paletteShade palette c) =
      [sh.shade0, sh.shade1, sh.shade2, sh.shade3].getD (palette.toNat / 4 ^ c.toNat % 4) 0 := by
  have hlt : palette.toNat / 4 ^ c.toNat % 4 < 4 := Nat.mod_lt _ (by decide)
  rw [shadeColour, paletteShade_toNat]
  match palette.toNat / 4 ^ c.toNat % 4, hlt with
  | 0, _ | 1, _ | 2, _ | 3, _ => rfl

/-! ## Which sprites are selected (R473) -/

theorem mem_take_filter_singleton {P : Nat → Bool} {m n i : Nat} :
    i ∈ ([n].filter P).take m ↔ i = n ∧ P i = true ∧ 0 < m := by
  cases m with
  | zero => simp
  | succ m =>
    have hlen : ([n].filter P).length ≤ m + 1 := (List.length_filter_le P [n]).trans (by simp)
    rw [List.take_of_length_le hlen]
    simp

/-- The first `k` numbers below `n` that satisfy `P` are those that fewer than `k` such numbers precede. -/
theorem mem_take_filter_range {P : Nat → Bool} {n k i : Nat} :
    i ∈ ((List.range n).filter P).take k ↔ i < n ∧ P i = true ∧ ((List.range i).filter P).length < k := by
  induction n with
  | zero => simp
  | succ n ih =>
    rw [List.range_succ, List.filter_append, List.take_append, List.mem_append, ih, mem_take_filter_singleton,
      Nat.sub_pos_iff_lt, Nat.lt_succ_iff_lt_or_eq, or_and_right]
    exact or_congr_right (and_congr_right fun h => by rw [h])

namespace Ppu

variable (vram oam : Memory) (p : Ppu)

/-- The OAM indexes of the selected sprites. -/
def chosen (p : Ppu) (oam : Memory) (y : Nat) : List Nat :=
  ((List.range 40).filter fun i => (spriteAt oam i).overlaps p.spriteHeight y).take 10

theorem selectedSprites_eq_map {y : Nat} (h : p.lcdc.getLsbD 1 = true) :
    p.selectedSprites oam y = (p.chosen oam y).map (spriteAt oam) := by
  simp only [selectedSprites, h, if_true, chosen, List.filter_map, List.map_take]
  rfl

theorem chosen_pairwise (y : Nat) : (p.chosen oam y).Pairwise (· < ·) :=
  (List.pairwise_lt_range.filter _).sublist (List.take_sublist _ _)

/-! ## A sprite's pixel (R473) -/

variable {sp : Sprite} {x y : Nat}

theorem spritePixel_outside (h : ¬(sp.x ≤ x + 8 ∧ x < sp.x)) : p.spritePixel vram sp x y = 0 :=
  if_neg (by omega)

theorem tall_tile_toNat (t : Byte) : (t &&& 0xFE).toNat = t.toNat / 2 * 2 := by
  revert t
  decide

/-- The tile of a sprite: tall sprites drop the low bit of the index. -/
theorem spriteTile_toNat (tall : Bool) (t : Byte) :
    (if (if tall then 16 else 8) = 16 then t &&& 0xFE else t).toNat = if tall then t.toNat / 2 * 2 else t.toNat := by
  cases tall
  case true => exact tall_tile_toNat t
  case false => rfl

theorem spritePixel_inside (hx : sp.x ≤ x + 8 ∧ x < sp.x)
    (hy : sp.y ≤ y + 16) (hy' : y + 16 < sp.y + p.spriteHeight) :
    let row := if sp.attr.getLsbD 6 then sp.y + p.spriteHeight - 1 - (y + 16) else y + 16 - sp.y
    let bit := if sp.attr.getLsbD 5 then x + 8 - sp.x else sp.x - 1 - x
    let base := 16 * (if p.lcdc.getLsbD 2 then sp.tile.toNat / 2 * 2 else sp.tile.toNat) + 2 * row
    (p.spritePixel vram sp x y).getLsbD 0 = (vram.read base).getLsbD bit ∧
      (p.spritePixel vram sp x y).getLsbD 1 = (vram.read (base + 1)).getLsbD bit := by
  have hrow : (if sp.attr.getLsbD 6 then p.spriteHeight - 1 - (y + 16 - sp.y) else y + 16 - sp.y) =
      if sp.attr.getLsbD 6 then sp.y + p.spriteHeight - 1 - (y + 16) else y + 16 - sp.y := by
    split <;> omega
  have hbit : 7 - (if sp.attr.getLsbD 5 then 7 - (x + 8 - sp.x) else x + 8 - sp.x) =
      if sp.attr.getLsbD 5 then x + 8 - sp.x else sp.x - 1 - x := by
    split <;> omega
  have htile := spriteTile_toNat (p.lcdc.getLsbD 2) sp.tile
  have hin : sp.x ≤ x + 8 ∧ x + 8 < sp.x + 8 := by omega
  rw [← spriteHeight] at htile
  simp only [spritePixel, if_pos hin, rowPixel_getLsbD_zero, rowPixel_getLsbD_one, hrow, hbit, htile, Nat.mul_comm,
    and_self]

end Ppu

/-! ## Which sprite is shown (R473, R474) -/

/-- One step of the choice of the shown sprite: a sprite of smaller X wins, at equal X the one found first. -/
def leftmost (best : Option Sprite) (sp : Sprite) : Option Sprite :=
  match best with
  | none => some sp
  | some b => if sp.x < b.x then some sp else some b

/-- `sp` is the first of the sprites of smallest X in `l`. -/
def IsLeftmost (sp : Sprite) (l : List Sprite) : Prop :=
  ∃ before after, l = before ++ sp :: after ∧ (∀ o ∈ before, sp.x < o.x) ∧ ∀ o ∈ after, sp.x ≤ o.x

theorem IsLeftmost.mem {sp : Sprite} {l : List Sprite} (h : IsLeftmost sp l) : sp ∈ l := by
  obtain ⟨before, after, rfl, -, -⟩ := h
  simp

theorem IsLeftmost.le {sp o : Sprite} {l : List Sprite} (h : IsLeftmost sp l) (ho : o ∈ l) : sp.x ≤ o.x := by
  obtain ⟨before, after, rfl, hbefore, hafter⟩ := h
  obtain ho | rfl | ho := by simpa using ho
  · exact (hbefore o ho).le
  · exact le_rfl
  · exact hafter o ho

/-- The choice over a whole list, from its end: the last sprite wins where its X is smaller than that of the winner
before it. -/
theorem foldl_leftmost (l : List Sprite) :
    (l.foldl leftmost none = none ∧ l = []) ∨ ∃ sp, l.foldl leftmost none = some sp ∧ IsLeftmost sp l := by
  induction l using List.reverseRecOn with
  | nil => exact .inl ⟨rfl, rfl⟩
  | append_singleton l c ih =>
    rw [List.foldl_append, List.foldl_cons, List.foldl_nil]
    right
    obtain ⟨h, rfl⟩ | ⟨sp, h, hsp⟩ := ih
    · exact ⟨c, by rw [h]; rfl, [], [], rfl, nofun, nofun⟩
    · by_cases hc : c.x < sp.x
      · exact ⟨c, by rw [h]; exact if_pos hc, l, [], rfl, fun o ho => hc.trans_le (hsp.le ho), nofun⟩
      · obtain ⟨before, after, rfl, hbefore, hafter⟩ := hsp
        refine ⟨sp, by rw [h]; exact if_neg hc, before, after ++ [c], by simp, hbefore, fun o ho => ?_⟩
        obtain ho | rfl := by simpa using ho
        · exact hafter o ho
        · exact Nat.le_of_not_lt hc

/-- What stands before the first of the sprites of smallest X has a larger X, or is filtered out. -/
theorem IsLeftmost.of_filter {sp : Sprite} {sel : List Sprite} {P : Sprite → Bool} (h : IsLeftmost sp (sel.filter P)) :
    ∃ before after, sel = before ++ sp :: after ∧ ∀ o ∈ before, P o = true → o.x ≠ sp.x := by
  obtain ⟨before, after, heq, hbefore, -⟩ := h
  obtain ⟨l₁, l₂, rfl, rfl, hrest⟩ := List.filter_eq_append_iff.mp heq
  obtain ⟨l₃, l₄, rfl, hl₃, -, -⟩ := List.filter_eq_cons_iff.mp hrest
  refine ⟨l₁ ++ l₃, l₄, by simp, fun o ho hP => ?_⟩
  obtain ho | ho := List.mem_append.mp ho
  · exact (hbefore o (List.mem_filter.mpr ⟨ho, hP⟩)).ne'
  · exact absurd hP (hl₃ o ho)

namespace Ppu

variable (vram : Memory) (p : Ppu) {sel : List Sprite} {sp : Sprite} {x y : Nat}

theorem shownSprite_eq_foldl :
    p.shownSprite vram sel x y = (sel.filter fun o => p.spritePixel vram o x y != 0).foldl leftmost none := rfl

theorem shownSprite_eq_none (h : p.shownSprite vram sel x y = none) : ∀ o ∈ sel, p.spritePixel vram o x y = 0 := by
  rw [shownSprite_eq_foldl] at h
  obtain ⟨-, hnil⟩ | ⟨sp, hsome, -⟩ := foldl_leftmost (sel.filter fun o => p.spritePixel vram o x y != 0)
  · simpa [List.filter_eq_nil_iff] using hnil
  · rw [h] at hsome
    cases hsome

/-- The shown sprite is the first of the sprites of smallest X among those with a pixel that is not transparent. -/
theorem shownSprite_eq_some (h : p.shownSprite vram sel x y = some sp) :
    IsLeftmost sp (sel.filter fun o => p.spritePixel vram o x y != 0) := by
  rw [shownSprite_eq_foldl] at h
  obtain ⟨hnone, -⟩ | ⟨sp', hsome, hsp⟩ := foldl_leftmost (sel.filter fun o => p.spritePixel vram o x y != 0)
  · rw [h] at hnone
    cases hnone
  · rw [h] at hsome
    cases hsome
    exact hsp

/-- The pixel where a sprite is shown: its colour, or the background's where its priority bit lets that cover it. -/
theorem pixel_of_some (sh : Shades) (h : p.shownSprite vram sel x y = some sp) :
    p.pixel vram sh sel y x =
      if sp.attr.getLsbD 7 = true ∧ p.backColour vram x y ≠ 0 then
        shadeColour sh (paletteShade p.bgp (p.backColour vram x y))
      else
        shadeColour sh
          (paletteShade (if sp.attr.getLsbD 4 then p.obp1 else p.obp0) (p.spritePixel vram sp x y)) := by
  simp only [pixel, h, Bool.and_eq_true, bne_iff_ne]

theorem pixel_of_none (sh : Shades) (h : p.shownSprite vram sel x y = none) :
    p.pixel vram sh sel y x = shadeColour sh (paletteShade p.bgp (p.backColour vram x y)) := by
  simp only [pixel, h]

end Ppu

/-- Settles O53: the selection as OAM indexes, a sprite's pixel, and the sprite that the choice shows. -/
theorem compositing : Obligations.Compositing := by
  intro vram oam sh p x y sel back height overlaps colour
  have hcolour (palette : Byte) (c : BitVec 2) : shadeColour sh (paletteShade palette c) = colour palette c :=
    shadeColour_paletteShade sh palette c
  refine ⟨fun i => rfl, fun h => ?_, fun h => ?_, fun sp => ⟨p.spritePixel_outside vram, fun hx ⟨hy, hy'⟩ => ?_⟩,
    fun sp h => ?_, fun h => ⟨p.shownSprite_eq_none vram h, (p.pixel_of_none vram sh h).trans (hcolour _ _)⟩⟩
  · exact if_neg (Bool.eq_false_iff.mp h)
  · exact ⟨p.chosen oam y, p.selectedSprites_eq_map oam h, List.length_take_le _ _, p.chosen_pairwise oam y,
      fun i => mem_take_filter_range⟩
  · exact p.spritePixel_inside vram hx hy hy'
  · have hleft := p.shownSprite_eq_some vram h
    obtain ⟨hmem, hpixel⟩ := List.mem_filter.mp hleft.mem
    have hvisible {o : Sprite} (ho : p.spritePixel vram o x y ≠ 0) : (p.spritePixel vram o x y != 0) = true :=
      bne_iff_ne.mpr ho
    refine ⟨hmem, bne_iff_ne.mp hpixel, fun o ho hne => hleft.le (List.mem_filter.mpr ⟨ho, hvisible hne⟩), ?_, ?_⟩
    · obtain ⟨before, after, heq, hbefore⟩ := hleft.of_filter
      exact ⟨before, after, heq, fun o ho hne => hbefore o ho (hvisible hne)⟩
    · rw [p.pixel_of_some vram sh h, hcolour, hcolour]

end Sys2Proof.Machine

/-! # The state after reset -/

namespace Sys2Proof.Machine

open State

/-- Settles O54: every field is the one that R50 gives; the first byte comes from the overlay where it is mapped, else
from the cartridge. -/
theorem resetState : Obligations.ResetState := by
  intro l p s
  refine ⟨fun hb => ?_, fun b hb => ?_, rfl, rfl, rfl, rfl, rfl, rfl, masked_low p.f, rfl, rfl, rfl, rfl, rfl, rfl, rfl,
    rfl, rfl, rfl, rfl, rfl, rfl, rfl, rfl, rfl, rfl⟩
  · have hread : s.memRead 0x0100 = l.rom.read (0x0100 % l.romLen) := by
      rw [memRead_open (dmaBlocks_eq_false (.inl rfl)), routeRead_cart _ (placeOf_eq_cart (by decide)),
        romRead_cart (.inl hb)]
      rfl
    exact ⟨by simp [s, resetWith, hb], by simp [s, resetWith, hb], hread⟩
  · have hmapped : s.bootDisabled = false := by simp [s, resetWith, hb]
    have hread : s.memRead 0x0000 = b.read 0 := by
      rw [memRead_open (dmaBlocks_eq_false (.inl rfl)), routeRead_cart _ (placeOf_eq_cart (by decide)),
        romRead_overlay hb (by decide) hmapped]
      rfl
    exact ⟨by simp [s, resetWith, hb], hmapped, hread, by simp [s, resetWith, hb], by simp [s, resetWith, hb]⟩

end Sys2Proof.Machine
